-- ==== Sys2Proof/Word.lean ====
section
/-! DEFINITION. The word types of the MAR block (R7, R14): bytes, halfwords, 32-bit words, register numbers
and the fields of an instruction word. -/
namespace Sys2Proof

/-- Eight bits: one cell of a backing memory (R72). -/
abbrev Byte := BitVec 8

/-- A 32-bit value: registers, guest addresses, instruction words (R7, R20, R25, R110). -/
abbrev Word := BitVec 32

/-- A 5-bit register number, `x[0]` to `x[31]` (R20, R111). -/
abbrev RegIdx := BitVec 5

/-- The `imm16` field (R111). -/
abbrev Imm16 := BitVec 16

/-- The `target26` field (R111). -/
abbrev Target26 := BitVec 26

/-- The free 20-bit `code` field of `SYSCALL` and `BREAK` (R111). -/
abbrev Code20 := BitVec 20

/-- A 6-bit selector of `get_state` and `set_reg` (R127). -/
abbrev Selector := BitVec 6

/-- A region's backing memory: (offset, byte) pairs in canonical form, offsets strictly rising and no
zero byte listed (R72). An unlisted offset reads 0 (log 3). -/
abbrev Memory := List Host.Cell

end Sys2Proof
end

