-- ==== Sys2Proof/Config.lean ====
section
/-! DEFINITION. The sizes the spec fixes (R7, R8), the open parameters with their defaults and constraints (R9 to
R13, log 4), and the free values: constants with no body, whose value no proof can see (R16). -/
namespace Sys2Proof

/-- `RAM_BYTES`, 2 MiB (R7). -/
def Config.ramBytes : Nat := 2097152

/-- `SCRATCH_BYTES`, 1 KiB (R7). -/
def Config.scratchBytes : Nat := 1024

/-- `ROM_BYTES`, 512 KiB (R7). -/
def Config.romBytes : Nat := 524288

/-- `RAM_BASE` (R8). -/
def Config.ramBase : Nat := 0

/-- One row of the cycle-cost table: a word that is `value` in the bits of `mask` costs `cost` (R11, log 4). -/
structure CostRow where
  mask : Word
  value : Word
  cost : Nat
  deriving DecidableEq, Repr

/-- The open parameters a model takes as arguments (R9, R11, R36; 93_implementation_defined.md part 3). They are
a field of the state that no step writes. -/
structure Params where
  /-- `PAGE_SHIFT` (R9). -/
  pageShift : Nat
  /-- `SCRATCH_BASE` (R9). -/
  scratchBase : Word
  /-- `ROM_BASE` (R9). -/
  romBase : Word
  /-- `REGION_MASK[0..7]` (R9, R36). -/
  regionMask : Vector Word 8
  /-- `CYCLE_COST`, row by row, the first row that matches a word first (R11). -/
  cycleCosts : List CostRow
  /-- `CYCLE_COST` of a word no row matches (R11). -/
  cycleCostElse : Nat
  deriving DecidableEq, Repr

/-- The defaults the spec chose (R9, R11). -/
def Params.specDefault : Params :=
  { pageShift := 11
    scratchBase := 0x1F800000#32
    romBase := 0x1FC00000#32
    regionMask := #v[0xFFFFFFFF#32, 0xFFFFFFFF#32, 0xFFFFFFFF#32, 0xFFFFFFFF#32, 0x7FFFFFFF#32, 0x1FFFFFFF#32,
      0xFFFFFFFF#32, 0xFFFFFFFF#32]
    cycleCosts := []
    cycleCostElse := 1 }

/-- `REGION_MASK[r]`, indexed by address bits 31..29 (R61, R62). -/
def Params.mask (c : Params) (r : BitVec 3) : Word := c.regionMask[r.toNat]'(by have := r.isLt; omega)

/-- `PAGE_BYTES = 2^PAGE_SHIFT` (R10). -/
def Params.pageBytes (c : Params) : Nat := 2 ^ c.pageShift

/-- `PAGE_INSTRS = PAGE_BYTES / 4` (R10). -/
def Params.pageInstrs (c : Params) : Nat := c.pageBytes / 4

/-- `RAM_PAGES` (R10). -/
def Params.ramPages (c : Params) : Nat := Config.ramBytes / c.pageBytes

/-- `ROM_PAGES` (R10). -/
def Params.romPages (c : Params) : Nat := Config.romBytes / c.pageBytes

/-- `TOTAL_PAGES = RAM_PAGES + ROM_PAGES` (R10). -/
def Params.totalPages (c : Params) : Nat := c.ramPages + c.romPages

/-- The cost a list of rows gives a word, `e` where no row matches (R11). -/
def costFrom (e : Nat) (w : Word) : List CostRow → Nat
  | [] => e
  | r :: rest => if w &&& r.mask = r.value then r.cost else costFrom e w rest

/-- `CYCLE_COST(w)`, a total function of the word: every such function is some table (R11). -/
def Params.cycleCost (c : Params) (w : Word) : Nat := costFrom c.cycleCostElse w c.cycleCosts

/-- The constraints every parameter choice must meet (R13 a to e). The intervals are of natural numbers: one that
reached past 2^32 would hold addresses that do not exist. -/
structure Params.Legal (c : Params) : Prop where
  /-- (a) -/
  shift : 2 ≤ c.pageShift
  /-- (a) -/
  ramWhole : c.pageBytes ∣ Config.ramBytes
  /-- (a) -/
  romWhole : c.pageBytes ∣ Config.romBytes
  /-- (b); `RAM_BASE` is 0. -/
  romAligned : c.pageBytes ∣ c.romBase.toNat
  /-- (b) -/
  scratchAligned : 4 ∣ c.scratchBase.toNat
  /-- (c) -/
  ramBelowScratch : Config.ramBase + Config.ramBytes ≤ c.scratchBase.toNat
  /-- (c) -/
  ramBelowRom : Config.ramBase + Config.ramBytes ≤ c.romBase.toNat
  /-- (c) -/
  scratchOffRom : c.scratchBase.toNat + Config.scratchBytes ≤ c.romBase.toNat ∨
    c.romBase.toNat + Config.romBytes ≤ c.scratchBase.toNat
  /-- (d) -/
  masks : ∀ r : BitVec 3, c.mask r &&& 0x1FFFFFFF#32 = 0x1FFFFFFF#32
  /-- (e) -/
  cost : ∀ w : Word, 1 ≤ c.cycleCost w

/-- `OPEN_BUS(addr, n)`: the value of the `k`-th draw for a load of `n` bytes from an unmapped address
(R12, R74). Free value (log 7). -/
opaque Config.openBus : Nat → Word → Nat → Word

/-- The value `HI` takes in the division corner cases of R269. Free value (log 8). -/
opaque Config.divHi : Nat → Word

/-- The value `LO` takes in the division corner cases of R269. Free value (log 8). -/
opaque Config.divLo : Nat → Word

/-- What `FAULT_INSTR` holds where R372 leaves it unspecified. Free value (log 9). -/
opaque Config.unspecifiedInstr : Nat → Word

/-- What `FAULT_ADDR` holds where R371 leaves it unspecified. Free value (log 9). -/
opaque Config.unspecifiedAddr : Nat → Word

/-- The counter the callback's owner returns when no reply of its own is queued (R160). Free value
(log 10). -/
opaque Config.callbackReply : Nat → Word

/-- What `x[1]` to `x[31]` hold after `delete` (R414). Free value (log 16). -/
opaque Config.deletedRegs : Nat → Vector Word 31

/-- What another 32-bit register (the second argument numbers it) holds after `delete` (R414). Free value
(log 16). -/
opaque Config.deletedWord : Nat → Nat → Word

/-- What a 1-bit register (the second argument numbers it) holds after `delete` (R414). Free value
(log 16). -/
opaque Config.deletedBit : Nat → Nat → Bool

/-- What a register of numbered values (the second argument numbers it) holds after `delete`: its value is this
number, reduced to the register's range (R414). Free value (log 16). -/
opaque Config.deletedIndex : Nat → Nat → Nat

end Sys2Proof
end

