-- ==== Sys2Proof/Syntax.lean ====
section
/-! DEFINITION. The instructions: one constructor per row of spec/opcode_table.json, 70 guest instructions
(R113 to R115) and 11 host commands (R125). Guest operands stand in assembler order (R122); every operand's
type has exactly the width of its field, so that every value of it can be encoded. -/
namespace Sys2Proof

/-- One guest instruction or one host command. -/
inductive Instr where
  /-- `ADDI rt, rs, imm` (R222). -/
  | addi (rt : RegIdx) (rs : RegIdx) (imm : Imm16)
  /-- `ADDIU rt, rs, imm` (R223). -/
  | addiu (rt : RegIdx) (rs : RegIdx) (imm : Imm16)
  /-- `SLTI rt, rs, imm` (R224). -/
  | slti (rt : RegIdx) (rs : RegIdx) (imm : Imm16)
  /-- `SLTIU rt, rs, imm` (R225). -/
  | sltiu (rt : RegIdx) (rs : RegIdx) (imm : Imm16)
  /-- `ANDI rt, rs, imm` (R226). -/
  | andi (rt : RegIdx) (rs : RegIdx) (imm : Imm16)
  /-- `ORI rt, rs, imm` (R227). -/
  | ori (rt : RegIdx) (rs : RegIdx) (imm : Imm16)
  /-- `XORI rt, rs, imm` (R228). -/
  | xori (rt : RegIdx) (rs : RegIdx) (imm : Imm16)
  /-- `LUI rt, imm` (R229). -/
  | lui (rt : RegIdx) (imm : Imm16)
  /-- `ADD rd, rs, rt` (R230). -/
  | add (rd : RegIdx) (rs : RegIdx) (rt : RegIdx)
  /-- `ADDU rd, rs, rt` (R231). -/
  | addu (rd : RegIdx) (rs : RegIdx) (rt : RegIdx)
  /-- `SUB rd, rs, rt` (R232). -/
  | sub (rd : RegIdx) (rs : RegIdx) (rt : RegIdx)
  /-- `SUBU rd, rs, rt` (R233). -/
  | subu (rd : RegIdx) (rs : RegIdx) (rt : RegIdx)
  /-- `AND rd, rs, rt` (R234). -/
  | and (rd : RegIdx) (rs : RegIdx) (rt : RegIdx)
  /-- `OR rd, rs, rt` (R235). -/
  | or (rd : RegIdx) (rs : RegIdx) (rt : RegIdx)
  /-- `XOR rd, rs, rt` (R236). -/
  | xor (rd : RegIdx) (rs : RegIdx) (rt : RegIdx)
  /-- `NOR rd, rs, rt` (R237). -/
  | nor (rd : RegIdx) (rs : RegIdx) (rt : RegIdx)
  /-- `SLT rd, rs, rt` (R238). -/
  | slt (rd : RegIdx) (rs : RegIdx) (rt : RegIdx)
  /-- `SLTU rd, rs, rt` (R239). -/
  | sltu (rd : RegIdx) (rs : RegIdx) (rt : RegIdx)
  /-- `SLL rd, rt, shamt` (R240). -/
  | sll (rd : RegIdx) (rt : RegIdx) (shamt : BitVec 5)
  /-- `SRL rd, rt, shamt` (R241). -/
  | srl (rd : RegIdx) (rt : RegIdx) (shamt : BitVec 5)
  /-- `SRA rd, rt, shamt` (R242). -/
  | sra (rd : RegIdx) (rt : RegIdx) (shamt : BitVec 5)
  /-- `SLLV rd, rt, rs` (R243). -/
  | sllv (rd : RegIdx) (rt : RegIdx) (rs : RegIdx)
  /-- `SRLV rd, rt, rs` (R244). -/
  | srlv (rd : RegIdx) (rt : RegIdx) (rs : RegIdx)
  /-- `SRAV rd, rt, rs` (R245). -/
  | srav (rd : RegIdx) (rt : RegIdx) (rs : RegIdx)
  /-- `MULT rs, rt` (R261). -/
  | mult (rs : RegIdx) (rt : RegIdx)
  /-- `MULTU rs, rt` (R262). -/
  | multu (rs : RegIdx) (rt : RegIdx)
  /-- `DIV rs, rt` (R263). -/
  | div (rs : RegIdx) (rt : RegIdx)
  /-- `DIVU rs, rt` (R264). -/
  | divu (rs : RegIdx) (rt : RegIdx)
  /-- `MFHI rd` (R265). -/
  | mfhi (rd : RegIdx)
  /-- `MTHI rs` (R266). -/
  | mthi (rs : RegIdx)
  /-- `MFLO rd` (R267). -/
  | mflo (rd : RegIdx)
  /-- `MTLO rs` (R268). -/
  | mtlo (rs : RegIdx)
  /-- `LB rt, offset(rs)` (R283). -/
  | lb (rt : RegIdx) (rs : RegIdx) (imm : Imm16)
  /-- `LH rt, offset(rs)` (R284). -/
  | lh (rt : RegIdx) (rs : RegIdx) (imm : Imm16)
  /-- `LWL rt, offset(rs)` (R285). -/
  | lwl (rt : RegIdx) (rs : RegIdx) (imm : Imm16)
  /-- `LW rt, offset(rs)` (R286). -/
  | lw (rt : RegIdx) (rs : RegIdx) (imm : Imm16)
  /-- `LBU rt, offset(rs)` (R287). -/
  | lbu (rt : RegIdx) (rs : RegIdx) (imm : Imm16)
  /-- `LHU rt, offset(rs)` (R288). -/
  | lhu (rt : RegIdx) (rs : RegIdx) (imm : Imm16)
  /-- `LWR rt, offset(rs)` (R289). -/
  | lwr (rt : RegIdx) (rs : RegIdx) (imm : Imm16)
  /-- `SB rt, offset(rs)` (R290). -/
  | sb (rt : RegIdx) (rs : RegIdx) (imm : Imm16)
  /-- `SH rt, offset(rs)` (R291). -/
  | sh (rt : RegIdx) (rs : RegIdx) (imm : Imm16)
  /-- `SWL rt, offset(rs)` (R292). -/
  | swl (rt : RegIdx) (rs : RegIdx) (imm : Imm16)
  /-- `SW rt, offset(rs)` (R293). -/
  | sw (rt : RegIdx) (rs : RegIdx) (imm : Imm16)
  /-- `SWR rt, offset(rs)` (R294). -/
  | swr (rt : RegIdx) (rs : RegIdx) (imm : Imm16)
  /-- `J target` (R312). -/
  | j (target : Target26)
  /-- `JAL target` (R313). -/
  | jal (target : Target26)
  /-- `JR rs` (R314). -/
  | jr (rs : RegIdx)
  /-- `JALR rd, rs` (R315). -/
  | jalr (rd : RegIdx) (rs : RegIdx)
  /-- `BEQ rs, rt, offset` (R316). -/
  | beq (rs : RegIdx) (rt : RegIdx) (imm : Imm16)
  /-- `BNE rs, rt, offset` (R317). -/
  | bne (rs : RegIdx) (rt : RegIdx) (imm : Imm16)
  /-- `BLEZ rs, offset` (R318). -/
  | blez (rs : RegIdx) (imm : Imm16)
  /-- `BGTZ rs, offset` (R319). -/
  | bgtz (rs : RegIdx) (imm : Imm16)
  /-- `BLTZ rs, offset` (R320). -/
  | bltz (rs : RegIdx) (imm : Imm16)
  /-- `BGEZ rs, offset` (R321). -/
  | bgez (rs : RegIdx) (imm : Imm16)
  /-- `BLTZAL rs, offset` (R322). -/
  | bltzal (rs : RegIdx) (imm : Imm16)
  /-- `BGEZAL rs, offset` (R323). -/
  | bgezal (rs : RegIdx) (imm : Imm16)
  /-- `SYSCALL` (R341). -/
  | syscall (code : Code20)
  /-- `BREAK` (R342). -/
  | brk (code : Code20)
  /-- `COP0` (R343). -/
  | cop0 (cofun : BitVec 26)
  /-- `COP1` (R344). -/
  | cop1 (cofun : BitVec 26)
  /-- `COP2` (R345). -/
  | cop2 (cofun : BitVec 26)
  /-- `COP3` (R346). -/
  | cop3 (cofun : BitVec 26)
  /-- `LWC0 rt, offset(rs)` (R347). -/
  | lwc0 (rt : RegIdx) (rs : RegIdx) (imm : Imm16)
  /-- `LWC1 rt, offset(rs)` (R348). -/
  | lwc1 (rt : RegIdx) (rs : RegIdx) (imm : Imm16)
  /-- `LWC2 rt, offset(rs)` (R349). -/
  | lwc2 (rt : RegIdx) (rs : RegIdx) (imm : Imm16)
  /-- `LWC3 rt, offset(rs)` (R350). -/
  | lwc3 (rt : RegIdx) (rs : RegIdx) (imm : Imm16)
  /-- `SWC0 rt, offset(rs)` (R351). -/
  | swc0 (rt : RegIdx) (rs : RegIdx) (imm : Imm16)
  /-- `SWC1 rt, offset(rs)` (R352). -/
  | swc1 (rt : RegIdx) (rs : RegIdx) (imm : Imm16)
  /-- `SWC2 rt, offset(rs)` (R353). -/
  | swc2 (rt : RegIdx) (rs : RegIdx) (imm : Imm16)
  /-- `SWC3 rt, offset(rs)` (R354). -/
  | swc3 (rt : RegIdx) (rs : RegIdx) (imm : Imm16)
  /-- host command `init` (its bindings are configuration, not bits) (R150). -/
  | init
  /-- host command `delete` (R151). -/
  | delete
  /-- host command `set_pc` (R152). -/
  | setPc (addr : Word)
  /-- host command `set_next_event`, a signed count (R153). -/
  | setNextEvent (cycles : Word)
  /-- host command `run`, operand `cycles_to_run`, a signed count (R180). -/
  | run (cycles : Word)
  /-- host command `resolve` (R154). -/
  | resolve (addr : Word)
  /-- host command `is_valid` (R155). -/
  | isValid (page : Word)
  /-- host command `invalidate` (R156). -/
  | invalidate (page : Word)
  /-- host command `ext_write` (R157). -/
  | extWrite (addr : Word) (n : Word) (v : Word)
  /-- host command `get_state` (R162). -/
  | getState (sel : Selector)
  /-- host command `set_reg` (R163). -/
  | setReg (sel : Selector) (v : Word)
  deriving DecidableEq, Repr

/-- The decoder's classes (R118), and one for the host commands of R125. The ninth class of R118,
`RESERVED`, is no instruction: it is the decoder's refusal (`Decoded.reserved`). -/
inductive InstrClass where
  | alu | muldiv | load | store | branch | jump | system | coproc | command
  deriving DecidableEq, Repr

end Sys2Proof
end

