-- ==== Sys2Proof/WellFormed.lean ====
section
/-! DEFINITION. Well-formed instructions: the operand values the spec gives a command a meaning for,
whatever the block's state. Every guest instruction is well-formed by its operands' types. A command that is
not is still decoded, and refused when it is executed (R166). -/
namespace Sys2Proof

/-- A page index of the validity table, 0 to `TOTAL_PAGES` - 1 (R10, R83, R155, R156). -/
def pageInRange (c : Params) (page : Word) : Bool := page.toNat < c.totalPages

/-- `n` is 1, 2 or 4 (R157). -/
def sizeLegal (n : Word) : Bool := n = 1#32 || n = 2#32 || n = 4#32

/-- `addr mod n = 0` (R157). -/
def sizeAligned (addr n : Word) : Bool := addr.toNat % n.toNat = 0

/-- A selector `get_state` reads: 0 to 41 (R127). -/
def selectorReadable (sel : Selector) : Bool := sel.toNat ≤ 41

/-- A selector `set_reg` writes: 0 to 33 (R127). -/
def selectorWritable (sel : Selector) : Bool := sel.toNat ≤ 33

/-- The operands are in the range the spec gives the instruction, under the block's parameters (R127, R155 to
R157, R163). -/
def Instr.wellFormed (c : Params) : Instr → Bool
  | .addi _ _ _ => true
  | .addiu _ _ _ => true
  | .slti _ _ _ => true
  | .sltiu _ _ _ => true
  | .andi _ _ _ => true
  | .ori _ _ _ => true
  | .xori _ _ _ => true
  | .lui _ _ => true
  | .add _ _ _ => true
  | .addu _ _ _ => true
  | .sub _ _ _ => true
  | .subu _ _ _ => true
  | .and _ _ _ => true
  | .or _ _ _ => true
  | .xor _ _ _ => true
  | .nor _ _ _ => true
  | .slt _ _ _ => true
  | .sltu _ _ _ => true
  | .sll _ _ _ => true
  | .srl _ _ _ => true
  | .sra _ _ _ => true
  | .sllv _ _ _ => true
  | .srlv _ _ _ => true
  | .srav _ _ _ => true
  | .mult _ _ => true
  | .multu _ _ => true
  | .div _ _ => true
  | .divu _ _ => true
  | .mfhi _ => true
  | .mthi _ => true
  | .mflo _ => true
  | .mtlo _ => true
  | .lb _ _ _ => true
  | .lh _ _ _ => true
  | .lwl _ _ _ => true
  | .lw _ _ _ => true
  | .lbu _ _ _ => true
  | .lhu _ _ _ => true
  | .lwr _ _ _ => true
  | .sb _ _ _ => true
  | .sh _ _ _ => true
  | .swl _ _ _ => true
  | .sw _ _ _ => true
  | .swr _ _ _ => true
  | .j _ => true
  | .jal _ => true
  | .jr _ => true
  | .jalr _ _ => true
  | .beq _ _ _ => true
  | .bne _ _ _ => true
  | .blez _ _ => true
  | .bgtz _ _ => true
  | .bltz _ _ => true
  | .bgez _ _ => true
  | .bltzal _ _ => true
  | .bgezal _ _ => true
  | .syscall _ => true
  | .brk _ => true
  | .cop0 _ => true
  | .cop1 _ => true
  | .cop2 _ => true
  | .cop3 _ => true
  | .lwc0 _ _ _ => true
  | .lwc1 _ _ _ => true
  | .lwc2 _ _ _ => true
  | .lwc3 _ _ _ => true
  | .swc0 _ _ _ => true
  | .swc1 _ _ _ => true
  | .swc2 _ _ _ => true
  | .swc3 _ _ _ => true
  | .init => true
  | .delete => true
  | .setPc _ => true
  | .setNextEvent _ => true
  | .run _ => true
  | .resolve _ => true
  | .isValid page => pageInRange c page
  | .invalidate page => pageInRange c page
  | .extWrite addr n _ => sizeLegal n && sizeAligned addr n
  | .getState sel => selectorReadable sel
  | .setReg sel _ => selectorWritable sel

end Sys2Proof
end

