-- ==== Sys2Proof/Decode.lean ====
section
/-! DEFINITION. The decoder (R111 to R119, R125), total on any word, bytes or command packet, and the encoder
beside it. A word that is no instruction is refused by name. -/
namespace Sys2Proof

/-! ## Fields of an instruction word (R111) -/

/-- `op = w[31:26]` (R111). -/
def opField (w : Word) : BitVec 6 := w.extractLsb' 26 6

/-- `rs = w[25:21]` (R111). -/
def rsField (w : Word) : RegIdx := w.extractLsb' 21 5

/-- `rt = w[20:16]` (R111). -/
def rtField (w : Word) : RegIdx := w.extractLsb' 16 5

/-- `rd = w[15:11]` (R111). -/
def rdField (w : Word) : RegIdx := w.extractLsb' 11 5

/-- `shamt = w[10:6]` (R111). -/
def shamtField (w : Word) : BitVec 5 := w.extractLsb' 6 5

/-- `funct = w[5:0]` (R111). -/
def functField (w : Word) : BitVec 6 := w.extractLsb' 0 6

/-- `imm16 = w[15:0]` (R111). -/
def immField (w : Word) : Imm16 := w.extractLsb' 0 16

/-- `target26 = w[25:0]`, also the free bits below a coprocessor opcode (R111, R116). -/
def targetField (w : Word) : Target26 := w.extractLsb' 0 26

/-- The `code` field, bits 25:6 (R111). -/
def codeField (w : Word) : Code20 := w.extractLsb' 6 20

/-- A field put at bit `lo` of a word. -/
def placeField {n : Nat} (f : BitVec n) (lo : Nat) : Word := f.setWidth 32 <<< lo

/-- A word of the R format (R111). -/
def rWord (op : BitVec 6) (rs rt rd : RegIdx) (shamt : BitVec 5) (funct : BitVec 6) : Word :=
  placeField op 26 ||| placeField rs 21 ||| placeField rt 16 ||| placeField rd 11 ||| placeField shamt 6
    ||| placeField funct 0

/-- A word of the I format (R111). -/
def iWord (op : BitVec 6) (rs rt : RegIdx) (imm : Imm16) : Word :=
  placeField op 26 ||| placeField rs 21 ||| placeField rt 16 ||| placeField imm 0

/-- A word of the J format, also of `COP0` to `COP3` (R111, R116). -/
def jWord (op : BitVec 6) (target : Target26) : Word := placeField op 26 ||| placeField target 0

/-- A word of `SYSCALL` or `BREAK`: the R format with its 20-bit `code` field (R111). -/
def codeWord (code : Code20) (funct : BitVec 6) : Word := placeField code 6 ||| placeField funct 0

/-! ## What the decoder reads and answers -/

/-- A command on the command port: a 4-bit code and up to three 32-bit operands (R125). -/
structure Packet where
  code : BitVec 4
  op0 : Word
  op1 : Word
  op2 : Word
  deriving DecidableEq, Repr

/-- The two things that are encoded: guest instruction words and host command packets. -/
inductive Encoded where
  | word (w : Word)
  | packet (p : Packet)
  deriving DecidableEq, Repr

/-- What the decoder answers. -/
inductive Decoded where
  /-- An instruction of spec/opcode_table.json. -/
  | instr (i : Instr)
  /-- A `RESERVED` word (R117, R119). -/
  | reserved
  /-- A reserved command code, 0xB to 0xF (R125). -/
  | reservedCommand
  /-- Fewer or more bytes than one instruction word (R110). -/
  | notOneWord
  deriving DecidableEq, Repr

/-- An instruction whose must-be-zero fields are checked (R116, R117 step 3). -/
def mustBeZero (zero : Bool) (i : Instr) : Decoded := if zero then .instr i else .reserved

/-! ## The decoder -/

/-- The SPECIAL map, `op = 0`, by `funct` (R114, R116). -/
def decodeSpecial (w : Word) : Decoded :=
  let rs := rsField w
  let rt := rtField w
  let rd := rdField w
  let sh := shamtField w
  match (functField w).toNat with
  | 0x00 => mustBeZero (rs = 0#5) (.sll rd rt sh)
  | 0x02 => mustBeZero (rs = 0#5) (.srl rd rt sh)
  | 0x03 => mustBeZero (rs = 0#5) (.sra rd rt sh)
  | 0x04 => mustBeZero (sh = 0#5) (.sllv rd rt rs)
  | 0x06 => mustBeZero (sh = 0#5) (.srlv rd rt rs)
  | 0x07 => mustBeZero (sh = 0#5) (.srav rd rt rs)
  | 0x08 => mustBeZero (rt = 0#5 && rd = 0#5 && sh = 0#5) (.jr rs)
  | 0x09 => mustBeZero (rt = 0#5 && sh = 0#5) (.jalr rd rs)
  | 0x0C => .instr (.syscall (codeField w))
  | 0x0D => .instr (.brk (codeField w))
  | 0x10 => mustBeZero (rs = 0#5 && rt = 0#5 && sh = 0#5) (.mfhi rd)
  | 0x11 => mustBeZero (rt = 0#5 && rd = 0#5 && sh = 0#5) (.mthi rs)
  | 0x12 => mustBeZero (rs = 0#5 && rt = 0#5 && sh = 0#5) (.mflo rd)
  | 0x13 => mustBeZero (rt = 0#5 && rd = 0#5 && sh = 0#5) (.mtlo rs)
  | 0x18 => mustBeZero (rd = 0#5 && sh = 0#5) (.mult rs rt)
  | 0x19 => mustBeZero (rd = 0#5 && sh = 0#5) (.multu rs rt)
  | 0x1A => mustBeZero (rd = 0#5 && sh = 0#5) (.div rs rt)
  | 0x1B => mustBeZero (rd = 0#5 && sh = 0#5) (.divu rs rt)
  | 0x20 => mustBeZero (sh = 0#5) (.add rd rs rt)
  | 0x21 => mustBeZero (sh = 0#5) (.addu rd rs rt)
  | 0x22 => mustBeZero (sh = 0#5) (.sub rd rs rt)
  | 0x23 => mustBeZero (sh = 0#5) (.subu rd rs rt)
  | 0x24 => mustBeZero (sh = 0#5) (.and rd rs rt)
  | 0x25 => mustBeZero (sh = 0#5) (.or rd rs rt)
  | 0x26 => mustBeZero (sh = 0#5) (.xor rd rs rt)
  | 0x27 => mustBeZero (sh = 0#5) (.nor rd rs rt)
  | 0x2A => mustBeZero (sh = 0#5) (.slt rd rs rt)
  | 0x2B => mustBeZero (sh = 0#5) (.sltu rd rs rt)
  | _ => .reserved

/-- The REGIMM map, `op = 1`, by `rt` (R115). -/
def decodeRegimm (w : Word) : Decoded :=
  match (rtField w).toNat with
  | 0x00 => .instr (.bltz (rsField w) (immField w))
  | 0x01 => .instr (.bgez (rsField w) (immField w))
  | 0x10 => .instr (.bltzal (rsField w) (immField w))
  | 0x11 => .instr (.bgezal (rsField w) (immField w))
  | _ => .reserved

/-- The decoding procedure of a guest instruction word (R113, R117): a pure function of the word. -/
def decodeGuest (w : Word) : Decoded :=
  let rs := rsField w
  let rt := rtField w
  let imm := immField w
  match (opField w).toNat with
  | 0x00 => decodeSpecial w
  | 0x01 => decodeRegimm w
  | 0x02 => .instr (.j (targetField w))
  | 0x03 => .instr (.jal (targetField w))
  | 0x04 => .instr (.beq rs rt imm)
  | 0x05 => .instr (.bne rs rt imm)
  | 0x06 => mustBeZero (rt = 0#5) (.blez rs imm)
  | 0x07 => mustBeZero (rt = 0#5) (.bgtz rs imm)
  | 0x08 => .instr (.addi rt rs imm)
  | 0x09 => .instr (.addiu rt rs imm)
  | 0x0A => .instr (.slti rt rs imm)
  | 0x0B => .instr (.sltiu rt rs imm)
  | 0x0C => .instr (.andi rt rs imm)
  | 0x0D => .instr (.ori rt rs imm)
  | 0x0E => .instr (.xori rt rs imm)
  | 0x0F => mustBeZero (rs = 0#5) (.lui rt imm)
  | 0x10 => .instr (.cop0 (targetField w))
  | 0x11 => .instr (.cop1 (targetField w))
  | 0x12 => .instr (.cop2 (targetField w))
  | 0x13 => .instr (.cop3 (targetField w))
  | 0x20 => .instr (.lb rt rs imm)
  | 0x21 => .instr (.lh rt rs imm)
  | 0x22 => .instr (.lwl rt rs imm)
  | 0x23 => .instr (.lw rt rs imm)
  | 0x24 => .instr (.lbu rt rs imm)
  | 0x25 => .instr (.lhu rt rs imm)
  | 0x26 => .instr (.lwr rt rs imm)
  | 0x28 => .instr (.sb rt rs imm)
  | 0x29 => .instr (.sh rt rs imm)
  | 0x2A => .instr (.swl rt rs imm)
  | 0x2B => .instr (.sw rt rs imm)
  | 0x2E => .instr (.swr rt rs imm)
  | 0x30 => .instr (.lwc0 rt rs imm)
  | 0x31 => .instr (.lwc1 rt rs imm)
  | 0x32 => .instr (.lwc2 rt rs imm)
  | 0x33 => .instr (.lwc3 rt rs imm)
  | 0x38 => .instr (.swc0 rt rs imm)
  | 0x39 => .instr (.swc1 rt rs imm)
  | 0x3A => .instr (.swc2 rt rs imm)
  | 0x3B => .instr (.swc3 rt rs imm)
  | _ => .reserved

/-- The command map by the 4-bit code (R125). Operand bits a command does not have are not read (log 23). -/
def decodeCommand (p : Packet) : Decoded :=
  match p.code.toNat with
  | 0x0 => .instr .init
  | 0x1 => .instr .delete
  | 0x2 => .instr (.setPc p.op0)
  | 0x3 => .instr (.setNextEvent p.op0)
  | 0x4 => .instr (.run p.op0)
  | 0x5 => .instr (.resolve p.op0)
  | 0x6 => .instr (.isValid p.op0)
  | 0x7 => .instr (.invalidate p.op0)
  | 0x8 => .instr (.extWrite p.op0 p.op1 p.op2)
  | 0x9 => .instr (.getState (p.op0.setWidth 6))
  | 0xA => .instr (.setReg (p.op0.setWidth 6) p.op1)
  | _ => .reservedCommand

/-- The decoder over both encodings. -/
def decode : Encoded → Decoded
  | .word w => decodeGuest w
  | .packet p => decodeCommand p

/-! ## Byte order (R71, R72) -/

/-- Two bytes, lowest address first, as a halfword: `B[o+1] ++ B[o]` (R72). -/
def halfOfBytes (b0 b1 : Byte) : BitVec 16 := b1.setWidth 16 <<< 8 ||| b0.setWidth 16

/-- Four bytes, lowest address first, as a word: `B[o+3] ++ B[o+2] ++ B[o+1] ++ B[o]` (R72). -/
def wordOfBytes (b0 b1 b2 b3 : Byte) : Word :=
  placeField b3 24 ||| placeField b2 16 ||| placeField b1 8 ||| placeField b0 0

/-- Byte `k` of a value, byte 0 its least significant (R71). -/
def byteOf (v : Word) (k : Nat) : Byte := v.extractLsb' (8 * k) 8

/-- The decoder over the bytes of one instruction word, lowest address first (R110). -/
def decodeBytes : List Byte → Decoded
  | [b0, b1, b2, b3] => decodeGuest (wordOfBytes b0 b1 b2 b3)
  | _ => .notOneWord

/-- A command as opcode_table.json numbers its bits: the code in bits 3:0, no operand bits, so operands of
zero. -/
def commandOfBits (w : Nat) : Packet := ⟨BitVec.ofNat 4 w, 0#32, 0#32, 0#32⟩

/-- The packet or the word whose bits are `w`: a row of at most one byte is a command, a longer row a guest
instruction word (log 17). -/
def encodedOfBits (nbits w : Nat) : Encoded :=
  if nbits ≤ 8 then .packet (commandOfBits w) else .word (BitVec.ofNat 32 (w % 2 ^ nbits))

/-- The instruction the decoder reads from the row bits `w` (log 17): a guest word goes to the decoder as its
four bytes in memory order. -/
def decodeTableWord (nbits w : Nat) : Option Instr :=
  match (match encodedOfBits nbits w with
    | .packet p => decodeCommand p
    | .word x => decodeBytes [byteOf x 0, byteOf x 1, byteOf x 2, byteOf x 3]) with
  | .instr i => some i
  | .reserved => none
  | .reservedCommand => none
  | .notOneWord => none

/-! ## The encoder -/

/-- The encoding of an instruction: its fields where R111 and R125 put them, every must-be-zero field 0
(R116). -/
def encode : Instr → Encoded
  | .addi rt rs imm => .word (iWord 0x08#6 rs rt imm)
  | .addiu rt rs imm => .word (iWord 0x09#6 rs rt imm)
  | .slti rt rs imm => .word (iWord 0x0A#6 rs rt imm)
  | .sltiu rt rs imm => .word (iWord 0x0B#6 rs rt imm)
  | .andi rt rs imm => .word (iWord 0x0C#6 rs rt imm)
  | .ori rt rs imm => .word (iWord 0x0D#6 rs rt imm)
  | .xori rt rs imm => .word (iWord 0x0E#6 rs rt imm)
  | .lui rt imm => .word (iWord 0x0F#6 0#5 rt imm)
  | .add rd rs rt => .word (rWord 0x00#6 rs rt rd 0#5 0x20#6)
  | .addu rd rs rt => .word (rWord 0x00#6 rs rt rd 0#5 0x21#6)
  | .sub rd rs rt => .word (rWord 0x00#6 rs rt rd 0#5 0x22#6)
  | .subu rd rs rt => .word (rWord 0x00#6 rs rt rd 0#5 0x23#6)
  | .and rd rs rt => .word (rWord 0x00#6 rs rt rd 0#5 0x24#6)
  | .or rd rs rt => .word (rWord 0x00#6 rs rt rd 0#5 0x25#6)
  | .xor rd rs rt => .word (rWord 0x00#6 rs rt rd 0#5 0x26#6)
  | .nor rd rs rt => .word (rWord 0x00#6 rs rt rd 0#5 0x27#6)
  | .slt rd rs rt => .word (rWord 0x00#6 rs rt rd 0#5 0x2A#6)
  | .sltu rd rs rt => .word (rWord 0x00#6 rs rt rd 0#5 0x2B#6)
  | .sll rd rt shamt => .word (rWord 0x00#6 0#5 rt rd shamt 0x00#6)
  | .srl rd rt shamt => .word (rWord 0x00#6 0#5 rt rd shamt 0x02#6)
  | .sra rd rt shamt => .word (rWord 0x00#6 0#5 rt rd shamt 0x03#6)
  | .sllv rd rt rs => .word (rWord 0x00#6 rs rt rd 0#5 0x04#6)
  | .srlv rd rt rs => .word (rWord 0x00#6 rs rt rd 0#5 0x06#6)
  | .srav rd rt rs => .word (rWord 0x00#6 rs rt rd 0#5 0x07#6)
  | .mult rs rt => .word (rWord 0x00#6 rs rt 0#5 0#5 0x18#6)
  | .multu rs rt => .word (rWord 0x00#6 rs rt 0#5 0#5 0x19#6)
  | .div rs rt => .word (rWord 0x00#6 rs rt 0#5 0#5 0x1A#6)
  | .divu rs rt => .word (rWord 0x00#6 rs rt 0#5 0#5 0x1B#6)
  | .mfhi rd => .word (rWord 0x00#6 0#5 0#5 rd 0#5 0x10#6)
  | .mthi rs => .word (rWord 0x00#6 rs 0#5 0#5 0#5 0x11#6)
  | .mflo rd => .word (rWord 0x00#6 0#5 0#5 rd 0#5 0x12#6)
  | .mtlo rs => .word (rWord 0x00#6 rs 0#5 0#5 0#5 0x13#6)
  | .lb rt rs imm => .word (iWord 0x20#6 rs rt imm)
  | .lh rt rs imm => .word (iWord 0x21#6 rs rt imm)
  | .lwl rt rs imm => .word (iWord 0x22#6 rs rt imm)
  | .lw rt rs imm => .word (iWord 0x23#6 rs rt imm)
  | .lbu rt rs imm => .word (iWord 0x24#6 rs rt imm)
  | .lhu rt rs imm => .word (iWord 0x25#6 rs rt imm)
  | .lwr rt rs imm => .word (iWord 0x26#6 rs rt imm)
  | .sb rt rs imm => .word (iWord 0x28#6 rs rt imm)
  | .sh rt rs imm => .word (iWord 0x29#6 rs rt imm)
  | .swl rt rs imm => .word (iWord 0x2A#6 rs rt imm)
  | .sw rt rs imm => .word (iWord 0x2B#6 rs rt imm)
  | .swr rt rs imm => .word (iWord 0x2E#6 rs rt imm)
  | .j target => .word (jWord 0x02#6 target)
  | .jal target => .word (jWord 0x03#6 target)
  | .jr rs => .word (rWord 0x00#6 rs 0#5 0#5 0#5 0x08#6)
  | .jalr rd rs => .word (rWord 0x00#6 rs 0#5 rd 0#5 0x09#6)
  | .beq rs rt imm => .word (iWord 0x04#6 rs rt imm)
  | .bne rs rt imm => .word (iWord 0x05#6 rs rt imm)
  | .blez rs imm => .word (iWord 0x06#6 rs 0#5 imm)
  | .bgtz rs imm => .word (iWord 0x07#6 rs 0#5 imm)
  | .bltz rs imm => .word (iWord 0x01#6 rs 0x00#5 imm)
  | .bgez rs imm => .word (iWord 0x01#6 rs 0x01#5 imm)
  | .bltzal rs imm => .word (iWord 0x01#6 rs 0x10#5 imm)
  | .bgezal rs imm => .word (iWord 0x01#6 rs 0x11#5 imm)
  | .syscall code => .word (codeWord code 0x0C#6)
  | .brk code => .word (codeWord code 0x0D#6)
  | .cop0 cofun => .word (jWord 0x10#6 cofun)
  | .cop1 cofun => .word (jWord 0x11#6 cofun)
  | .cop2 cofun => .word (jWord 0x12#6 cofun)
  | .cop3 cofun => .word (jWord 0x13#6 cofun)
  | .lwc0 rt rs imm => .word (iWord 0x30#6 rs rt imm)
  | .lwc1 rt rs imm => .word (iWord 0x31#6 rs rt imm)
  | .lwc2 rt rs imm => .word (iWord 0x32#6 rs rt imm)
  | .lwc3 rt rs imm => .word (iWord 0x33#6 rs rt imm)
  | .swc0 rt rs imm => .word (iWord 0x38#6 rs rt imm)
  | .swc1 rt rs imm => .word (iWord 0x39#6 rs rt imm)
  | .swc2 rt rs imm => .word (iWord 0x3A#6 rs rt imm)
  | .swc3 rt rs imm => .word (iWord 0x3B#6 rs rt imm)
  | .init => .packet ⟨0x0#4, 0#32, 0#32, 0#32⟩
  | .delete => .packet ⟨0x1#4, 0#32, 0#32, 0#32⟩
  | .setPc addr => .packet ⟨0x2#4, addr, 0#32, 0#32⟩
  | .setNextEvent cycles => .packet ⟨0x3#4, cycles, 0#32, 0#32⟩
  | .run cycles => .packet ⟨0x4#4, cycles, 0#32, 0#32⟩
  | .resolve addr => .packet ⟨0x5#4, addr, 0#32, 0#32⟩
  | .isValid page => .packet ⟨0x6#4, page, 0#32, 0#32⟩
  | .invalidate page => .packet ⟨0x7#4, page, 0#32, 0#32⟩
  | .extWrite addr n v => .packet ⟨0x8#4, addr, n, v⟩
  | .getState sel => .packet ⟨0x9#4, sel.setWidth 32, 0#32, 0#32⟩
  | .setReg sel v => .packet ⟨0xA#4, sel.setWidth 32, v, 0#32⟩

/-- The 32-bit word of an encoding; 0 for a command packet, which has none. -/
def Encoded.bits : Encoded → Word
  | .word w => w
  | .packet _ => 0#32

/-- The word `w` of a guest instruction, for `CYCLE_COST(w)` (R11) and `FAULT_INSTR` (R372). The must-be-zero
fields being strict (R116), an instruction has exactly one word (log 21). -/
def instrWord (i : Instr) : Word := (encode i).bits

/-- The class of an instruction (R118). -/
def Instr.cls : Instr → InstrClass
  | .addi _ _ _ => .alu
  | .addiu _ _ _ => .alu
  | .slti _ _ _ => .alu
  | .sltiu _ _ _ => .alu
  | .andi _ _ _ => .alu
  | .ori _ _ _ => .alu
  | .xori _ _ _ => .alu
  | .lui _ _ => .alu
  | .add _ _ _ => .alu
  | .addu _ _ _ => .alu
  | .sub _ _ _ => .alu
  | .subu _ _ _ => .alu
  | .and _ _ _ => .alu
  | .or _ _ _ => .alu
  | .xor _ _ _ => .alu
  | .nor _ _ _ => .alu
  | .slt _ _ _ => .alu
  | .sltu _ _ _ => .alu
  | .sll _ _ _ => .alu
  | .srl _ _ _ => .alu
  | .sra _ _ _ => .alu
  | .sllv _ _ _ => .alu
  | .srlv _ _ _ => .alu
  | .srav _ _ _ => .alu
  | .mult _ _ => .muldiv
  | .multu _ _ => .muldiv
  | .div _ _ => .muldiv
  | .divu _ _ => .muldiv
  | .mfhi _ => .muldiv
  | .mthi _ => .muldiv
  | .mflo _ => .muldiv
  | .mtlo _ => .muldiv
  | .lb _ _ _ => .load
  | .lh _ _ _ => .load
  | .lwl _ _ _ => .load
  | .lw _ _ _ => .load
  | .lbu _ _ _ => .load
  | .lhu _ _ _ => .load
  | .lwr _ _ _ => .load
  | .sb _ _ _ => .store
  | .sh _ _ _ => .store
  | .swl _ _ _ => .store
  | .sw _ _ _ => .store
  | .swr _ _ _ => .store
  | .j _ => .jump
  | .jal _ => .jump
  | .jr _ => .jump
  | .jalr _ _ => .jump
  | .beq _ _ _ => .branch
  | .bne _ _ _ => .branch
  | .blez _ _ => .branch
  | .bgtz _ _ => .branch
  | .bltz _ _ => .branch
  | .bgez _ _ => .branch
  | .bltzal _ _ => .branch
  | .bgezal _ _ => .branch
  | .syscall _ => .system
  | .brk _ => .system
  | .cop0 _ => .coproc
  | .cop1 _ => .coproc
  | .cop2 _ => .coproc
  | .cop3 _ => .coproc
  | .lwc0 _ _ _ => .coproc
  | .lwc1 _ _ _ => .coproc
  | .lwc2 _ _ _ => .coproc
  | .lwc3 _ _ _ => .coproc
  | .swc0 _ _ _ => .coproc
  | .swc1 _ _ _ => .coproc
  | .swc2 _ _ _ => .coproc
  | .swc3 _ _ _ => .coproc
  | .init => .command
  | .delete => .command
  | .setPc _ => .command
  | .setNextEvent _ => .command
  | .run _ => .command
  | .resolve _ => .command
  | .isValid _ => .command
  | .invalidate _ => .command
  | .extWrite _ _ _ => .command
  | .getState _ => .command
  | .setReg _ _ => .command

/-- `class(w) is BRANCH or JUMP` (R187, R310). -/
def Instr.isControlFlow (i : Instr) : Bool := i.cls = .branch || i.cls = .jump

/-- A host command, not a guest instruction. -/
def Instr.isCommand (i : Instr) : Bool := i.cls = .command

end Sys2Proof
end

