-- ==== Sys2Proof/Machine/State.lean ====
section
/-! DEFINITION. The state of the MAR block (10_state.md), as plain data, the reasons a step could stop, and
the state after reset. -/
namespace Sys2Proof.Machine

/-- `LIFE` (R31). -/
inductive Life where
  | uninitialized | ready | running | destroyed
  deriving DecidableEq, Repr

/-- `DSTATE` (R32). -/
inductive DState where
  | dispatch | execute | yield
  deriving DecidableEq, Repr

/-- `FAULT_CODE`, the codes 0 to 11 of R371; 12 to 15 are never written. -/
inductive FaultCode where
  | none | reservedInstr | coprocessor | syscall | brk | overflow | addrLoad | addrStore | fetchUnmapped
  | pcMisaligned | branchInDelay | invalidState
  deriving DecidableEq, Repr

/-- The kinds of a store (R81, R128). -/
inductive StoreKind where
  | b | h | w | wl | wr
  deriving DecidableEq, Repr

/-- What the block answers on the command port (R125, R126). `refused` carries no value: the spec gives a
refused command none, but `run` (R166, log 12). -/
inductive Response where
  /-- Accepted, a command whose response column is "none" (R125). -/
  | ack
  /-- One 32-bit value: `run`, `is_valid` (zero-extended), `get_state`. -/
  | value (v : Word)
  /-- The three values of `resolve` (R126). -/
  | resolution (region offset page : Word)
  /-- Refused (R166). -/
  | refused
  deriving DecidableEq, Repr

/-- A move of the callback's owner while a request is outstanding (R160, R161). -/
inductive OwnerMove where
  /-- The owner issues a command. -/
  | command (p : Packet)
  /-- The owner responds with an updated counter. -/
  | reply (counter : Word)
  deriving DecidableEq, Repr

/-- The reasons the machine could stop with a fault. The block's own faults are no such stop: a fault stop
(R372) is a next state (log 5). No definition of the model raises either constructor; they stand for the two
fatal conditions of the document (R398). -/
inductive Fault where
  /-- "Executable-memory allocation failure": raised by nothing, R398 and R150 say that it cannot occur.
  Safe. -/
  | allocationFailure
  /-- "Code-cache exhaustion": raised by nothing, R398 and R91 say that it cannot occur. Safe. -/
  | codeCacheExhausted
  deriving DecidableEq, Repr

/-- The reasons an instruction could have no meaning. A refused command (R166) is no such refusal: it is a
next state (log 6). -/
inductive Refusal where
  /-- An instruction not modelled yet, by its mnemonic: raised by no arm of `exec`. Safe. -/
  | notModelled (mnemonic : String)
  deriving DecidableEq, Repr

/-- The block's state (10_state.md), the memories beside it (R39), and the model's view of the world outside
(log 10, log 11). -/
structure State where
  /-- The block's configuration, which no step writes: `REGION_MASK` (R36) and the other open parameters (R9,
  R11). -/
  params : Params
  /-- `x[1]` to `x[31]`, at indices 0 to 30 (R20). -/
  regs : Vector Word 31
  /-- `HI` (R24). -/
  hi : Word
  /-- `LO` (R24). -/
  lo : Word
  /-- `PC` (R25). -/
  pc : Word
  /-- `CNT`, signed (R28). -/
  cnt : Word
  /-- `NEXT_EVENT`, signed (R29). -/
  nextEvent : Word
  /-- `NE_PENDING` (R29). -/
  nePending : Bool
  /-- `BUDGET`, signed (R30). -/
  budget : Word
  /-- `C0`, signed (R30). -/
  c0 : Word
  /-- `LIFE` (R31). -/
  life : Life
  /-- `DSTATE` (R32). -/
  dstate : DState
  /-- `CURPAGE` (R32). -/
  curPage : Nat
  /-- `IN_CALLBACK` (R32). -/
  inCallback : Bool
  /-- `VALID[p]` at key `p`, 0 unlisted (R33). -/
  valid : List (Nat × Bool)
  /-- `BLK[p][i]` at key `p * PAGE_INSTRS + i`, zero words unlisted (R34). -/
  blk : List (Nat × Word)
  /-- `FAULT_CODE` (R35). -/
  faultCode : FaultCode
  /-- `FAULT_PC` (R35). -/
  faultPc : Word
  /-- `FAULT_INSTR` (R35). -/
  faultInstr : Word
  /-- `FAULT_ADDR` (R35). -/
  faultAddr : Word
  /-- `FAULT_BD` (R35). -/
  faultBd : Bool
  /-- RAM, by offset (R39). -/
  ram : Memory
  /-- The scratchpad, by offset (R39). -/
  scratch : Memory
  /-- ROM, by offset (R39). -/
  rom : Memory
  /-- The callback request's `value` (R128). -/
  reqValue : Word
  /-- The callback request's `address` (R128). -/
  reqAddress : Word
  /-- The callback request's `counter`, signed (R128). -/
  reqCounter : Word
  /-- The callback request's `kind`, its 3-bit code (R128). -/
  reqKind : BitVec 3
  /-- `PC` once the outstanding response is adopted (R160, R187, R310). -/
  resumePc : Word
  /-- Whether a block boundary follows the suspended store (R190). -/
  resumeYield : Bool
  /-- The last response on the command port; none while a `run` is not answered (R125). -/
  response : Option Response
  /-- The model's own: the commands the host has still to issue, oldest first (log 11). -/
  hostPort : List Packet
  /-- The model's own: the moves the callback's owner has still to make, oldest first (log 10). -/
  owner : List OwnerMove
  /-- The model's own: how many free values have been drawn (log 20). -/
  draws : Nat
  deriving DecidableEq, Repr

/-- The block after reset, which is `init` (R40, R411): `LIFE` Ready, `VALID` all 0, `NE_PENDING`,
`IN_CALLBACK` and `FAULT_CODE` 0, the configured values those the spec chose as defaults (log 4). Every other register is unspecified in the spec and named 0 here:
DESIGN CHOICE, unsafe (log 2, log 3). -/
def State.reset : State :=
  { params := Params.specDefault, regs := Vector.replicate 31 0#32, hi := 0#32, lo := 0#32, pc := 0#32, cnt := 0#32, nextEvent := 0#32,
    nePending := false, budget := 0#32, c0 := 0#32, life := .ready, dstate := .yield, curPage := 0,
    inCallback := false, valid := [], blk := [], faultCode := .none, faultPc := 0#32, faultInstr := 0#32,
    faultAddr := 0#32, faultBd := false, ram := [], scratch := [], rom := [], reqValue := 0#32,
    reqAddress := 0#32, reqCounter := 0#32, reqKind := 0#3, resumePc := 0#32, resumeYield := false,
    response := none, hostPort := [], owner := [], draws := 0 }

/-- The block at power-on, before `init`: `LIFE` is `Uninitialized`, everything else unspecified and named as
in `State.reset` (R410, log 2). -/
def State.powerOn : State := { State.reset with life := .uninitialized }

end Sys2Proof.Machine
end

