-- ==== Sys2Proof/Machine/Flags.lean ====
section
/-! DEFINITION. Conditions. The block has no flags (R37): overflow is a fault condition (R221) and a comparison
gives 0 or 1 (R246). -/
namespace Sys2Proof.Machine

/-- `overflow_add(a, b)`: `a[31] = b[31]` and `(a + b)[31] != a[31]` (R221). -/
def overflowAdd (a b : Word) : Bool := a.msb == b.msb && (a + b).msb != a.msb

/-- `overflow_sub(a, b)`: `a[31] != b[31]` and `(a - b)[31] != a[31]` (R221). -/
def overflowSub (a b : Word) : Bool := a.msb != b.msb && (a - b).msb != a.msb

/-- `s32(a) < s32(b)` (R224, R238). -/
def lessSigned (a b : Word) : Bool := a.toInt < b.toInt

/-- `u32(a) < u32(b)` (R225, R239). -/
def lessUnsigned (a b : Word) : Bool := a.toNat < b.toNat

/-- A comparison's result: exactly 1 or 0 (R246). -/
def boolWord (c : Bool) : Word := if c then 1#32 else 0#32

/-- `min_signed` (R182). -/
def minSigned (a b : Word) : Word := if a.toInt ≤ b.toInt then a else b

end Sys2Proof.Machine
end

