-- ==== Sys2Proof/Machine/Operands.lean ====
section
/-! DEFINITION. Operand assembly (R112, R280, R312, R316): every immediate, address and target form. -/
namespace Sys2Proof.Machine

/-- `sext_16(imm16)`: arithmetic and comparison immediates, load and store offsets (R112 a, d). -/
def signExtImm (imm : Imm16) : Word := imm.signExtend 32

/-- `zext_16(imm16)`: logical immediates (R112 b). -/
def zeroExtImm (imm : Imm16) : Word := imm.setWidth 32

/-- `imm16 << 16`: the immediate of `LUI` (R112 c). -/
def upperImm (imm : Imm16) : Word := imm.setWidth 32 <<< 16

/-- The amount of a variable shift, `x[rs][4:0]` (R112 g, R243). -/
def shiftAmount (v : Word) : BitVec 5 := v.extractLsb' 0 5

/-- The effective address `x[rs] + sext_16(imm16)`, modulo 2^32, from the base register's value (R280). -/
def effectiveAddress (base : Word) (imm : Imm16) : Word := base + signExtImm imm

/-- `ea & 0xFFFFFFFC`: the aligned word a partial-word access touches (R285, R292). -/
def alignedWord (ea : Word) : Word := ea &&& 0xFFFFFFFC#32

/-- `ea[1:0]` (R285, R292). -/
def byteInWord (ea : Word) : BitVec 2 := ea.extractLsb' 0 2

/-- The target of a conditional branch at `b`: `(b + 4) + (sext_16(imm16) << 2)` (R112 e, R316). -/
def branchTarget (b : Word) (imm : Imm16) : Word := b + 4#32 + signExtImm imm <<< 2

/-- The target of `J` and `JAL` at `b`: `(b + 4)[31:28] ++ target26 ++ 0b00` (R112 f, R312). -/
def jumpTarget (b : Word) (target : Target26) : Word :=
  placeField ((b + 4#32).extractLsb' 28 4) 28 ||| placeField target 2

/-- `sext_8` of the low byte (R283). -/
def signExtByte (v : Word) : Word := (v.setWidth 8).signExtend 32

/-- `sext_16` of the low halfword (R284). -/
def signExtHalf (v : Word) : Word := (v.setWidth 16).signExtend 32

/-- What `LWL` leaves in `rt` from the aligned word `m` and the old `rt` (table of R285). -/
def mergeLoadLeft (k : BitVec 2) (m old : Word) : Word :=
  match k.toNat with
  | 0 => old &&& 0x00FFFFFF#32 ||| m <<< 24
  | 1 => old &&& 0x0000FFFF#32 ||| m <<< 16
  | 2 => old &&& 0x000000FF#32 ||| m <<< 8
  | _ => m

/-- What `LWR` leaves in `rt` (table of R289). -/
def mergeLoadRight (k : BitVec 2) (m old : Word) : Word :=
  match k.toNat with
  | 0 => m
  | 1 => old &&& 0xFF000000#32 ||| m >>> 8
  | 2 => old &&& 0xFFFF0000#32 ||| m >>> 16
  | _ => old &&& 0xFFFFFF00#32 ||| m >>> 24

/-- The word `SWL` leaves in memory over the old word `m` (table of R292). -/
def mergeStoreLeft (k : BitVec 2) (m v : Word) : Word :=
  match k.toNat with
  | 0 => m &&& 0xFFFFFF00#32 ||| v >>> 24
  | 1 => m &&& 0xFFFF0000#32 ||| v >>> 16
  | 2 => m &&& 0xFF000000#32 ||| v >>> 8
  | _ => v

/-- The word `SWR` leaves in memory over the old word `m` (table of R294). -/
def mergeStoreRight (k : BitVec 2) (m v : Word) : Word :=
  match k.toNat with
  | 0 => v
  | 1 => m &&& 0x000000FF#32 ||| v <<< 8
  | 2 => m &&& 0x0000FFFF#32 ||| v <<< 16
  | _ => m &&& 0x00FFFFFF#32 ||| v <<< 24

end Sys2Proof.Machine
end

