-- ==== Sys2Proof/Machine/Sparse.lean ====
section
/-! DEFINITION. Sparse tables: lists of (key, value) pairs in one canonical form, keys strictly rising and no
entry equal to what an unlisted key reads as. The three memories (R39) and the block store (R34) are kept so. -/
namespace Sys2Proof.Machine

variable {α : Type} [DecidableEq α]

/-- The value at key `k`; an unlisted key reads as `d`. -/
def sparseGet (d : α) : List (Nat × α) → Nat → α
  | [], _ => d
  | (a, b) :: r, k => if a = k then b else sparseGet d r k

/-- The table without key `k`. -/
def sparseErase : List (Nat × α) → Nat → List (Nat × α)
  | [], _ => []
  | (a, b) :: r, k => if a = k then sparseErase r k else (a, b) :: sparseErase r k

/-- An entry put before the first larger key. -/
def sparseInsert : List (Nat × α) → Nat → α → List (Nat × α)
  | [], k, v => [(k, v)]
  | (a, b) :: r, k, v => if k < a then (k, v) :: (a, b) :: r else (a, b) :: sparseInsert r k v

/-- Key `k` now reads `v`; the value an unlisted key reads as is not listed. -/
def sparsePut (d : α) (m : List (Nat × α)) (k : Nat) (v : α) : List (Nat × α) :=
  if v = d then sparseErase m k else sparseInsert (sparseErase m k) k v

/-- The canonical form, with every key below `bound`. -/
abbrev sparseWf (d : α) (bound : Nat) (m : List (Nat × α)) : Prop :=
  m.Pairwise (fun a b => a.1 < b.1) ∧ ∀ c ∈ m, c.1 < bound ∧ c.2 ≠ d

end Sys2Proof.Machine
end

