-- ==== Sys2Proof/Machine/Ops.lean ====
section
/-! DEFINITION. The operations every meaning is made of: registers, the router, the data path, the validity
table, the cycle charge, the fault stop, the callback request and the refused command. -/
namespace Sys2Proof.Machine

/-! ## Registers (R20, R21) -/

/-- `x[r]`; `x[0]` reads 0 (R21). -/
def readRegs (regs : Vector Word 31) (r : RegIdx) : Word :=
  if r = 0#5 then 0#32 else regs[r.toNat - 1]'(by have := r.isLt; omega)

/-- `x[r] <- v`; a write to `x[0]` is dropped (R21). -/
def writeRegs (regs : Vector Word 31) (r : RegIdx) (v : Word) : Vector Word 31 :=
  if r = 0#5 then regs else regs.set (r.toNat - 1) v (by have := r.isLt; omega)

/-- `x[r]` in a state (R15, R21). -/
def State.reg (s : State) (r : RegIdx) : Word := readRegs s.regs r

/-- `x[r] <- v` in a state (R15, R21). -/
def State.setReg (s : State) (r : RegIdx) (v : Word) : State := { s with regs := writeRegs s.regs r v }

/-! ## The memory router (R60 to R69) -/

/-- What an address resolves to: the region, the byte offset in it, and the page index where it has one
(R60, R66). -/
inductive Resolution where
  | ram (off page : Nat)
  | scratch (off : Nat)
  | rom (off page : Nat)
  | unmapped
  deriving DecidableEq, Repr

/-- The masked address: `a & REGION_MASK[a[31:29]]` (R61, R62). -/
def maskAddress (c : Params) (a : Word) : Word := a &&& c.mask (a.extractLsb' 29 3)

/-- The region of a masked address, RAM first, then scratchpad, then ROM (R63 to R66). -/
def rangeCheck (c : Params) (m : Nat) : Resolution :=
  if Config.ramBase ≤ m ∧ m < Config.ramBase + Config.ramBytes then
    .ram (m - Config.ramBase) ((m - Config.ramBase) >>> c.pageShift)
  else if c.scratchBase.toNat ≤ m ∧ m < c.scratchBase.toNat + Config.scratchBytes then
    .scratch (m - c.scratchBase.toNat)
  else if c.romBase.toNat ≤ m ∧ m < c.romBase.toNat + Config.romBytes then
    .rom (m - c.romBase.toNat) (c.ramPages + (m - c.romBase.toNat) >>> c.pageShift)
  else .unmapped

/-- `resolve(addr)`: a pure function of the address and the parameters (R60, R67). -/
def resolve (c : Params) (a : Word) : Resolution := rangeCheck c (maskAddress c a).toNat

/-- The index of an instruction within its page, `PC[PAGE_SHIFT-1:2]` (R65, R186). -/
def slotIndex (c : Params) (a : Word) : Nat := a.toNat % c.pageBytes / 4

/-! ## The backing memories (R71, R72) -/

/-- The byte at an offset; an unlisted one reads 0 (log 3). -/
def readByte (m : Memory) (o : Nat) : Byte := sparseGet 0#8 m o

/-- The byte at an offset becomes `b`. -/
def writeByte (m : Memory) (o : Nat) (b : Byte) : Memory := sparsePut 0#8 m o b

/-- The halfword at an offset (R72). -/
def readHalf (m : Memory) (o : Nat) : BitVec 16 := halfOfBytes (readByte m o) (readByte m (o + 1))

/-- The word at an offset (R72). -/
def readWord (m : Memory) (o : Nat) : Word :=
  wordOfBytes (readByte m o) (readByte m (o + 1)) (readByte m (o + 2)) (readByte m (o + 3))

/-- The low halfword of `v` at an offset, low byte first (R72). -/
def writeHalf (m : Memory) (o : Nat) (v : Word) : Memory :=
  writeByte (writeByte m o (byteOf v 0)) (o + 1) (byteOf v 1)

/-- `v` at an offset, low byte first (R72). -/
def writeWord (m : Memory) (o : Nat) (v : Word) : Memory :=
  writeByte (writeByte (writeByte (writeByte m o (byteOf v 0)) (o + 1) (byteOf v 1)) (o + 2) (byteOf v 2))
    (o + 3) (byteOf v 3)

/-- The canonical form of a memory of `size` bytes. -/
abbrev Memory.wf (size : Nat) (m : Memory) : Prop := sparseWf 0#8 size m

/-- The three memories are in canonical form, each within its region (R39). -/
abbrev State.memWf (s : State) : Prop :=
  Memory.wf Config.ramBytes s.ram ∧ Memory.wf Config.scratchBytes s.scratch ∧ Memory.wf Config.romBytes s.rom

/-- The byte a resolved address holds; an unmapped address has none (R73). -/
def State.byteAt (s : State) (r : Resolution) : Option Byte :=
  match r with
  | .ram off _ => some (readByte s.ram off)
  | .scratch off => some (readByte s.scratch off)
  | .rom off _ => some (readByte s.rom off)
  | .unmapped => none

/-- The byte the memories hold at a guest address, if it is mapped (R60, R73). -/
def State.readAddr (s : State) (a : Word) : Option Byte := s.byteAt (resolve s.params a)

/-! ## The validity table (R83 to R86) -/

/-- `is_valid(p)` (R84). -/
def State.pageValid (s : State) (p : Nat) : Bool := sparseGet false s.valid p

/-- `invalidate(p)`: `VALID[p] <- 0`, `BLK[p]` untouched (R85). -/
def State.invalidatePage (s : State) (p : Nat) : State :=
  { s with valid := sparsePut false s.valid p false }

/-- `mark_valid(p)`: `VALID[p] <- 1` (R86, R159). -/
def State.markValid (s : State) (p : Nat) : State :=
  { s with valid := sparsePut false s.valid p true }

/-! ## The cycle counter (R188) -/

/-- `charge(w)`: `CNT <- CNT - CYCLE_COST(w)`, wrapping (R188, log 24). -/
def State.charge (s : State) (w : Word) : State := { s with cnt := s.cnt - BitVec.ofNat 32 (s.params.cycleCost w) }

/-- What `run` returns: `(C0 - CNT) - BUDGET` (R195). -/
def State.runResult (s : State) : Word := s.c0 - s.cnt - s.budget

/-! ## The data path (R73 to R82) -/

/-- The size of a plain access (R73, R81). -/
inductive Size where
  | byte | half | word
  deriving DecidableEq, Repr

/-- `n` in bytes (R73). -/
def sizeBytes : Size → Nat
  | .byte => 1
  | .half => 2
  | .word => 4

/-- The alignment check of R75, on the address as issued. -/
def misaligned (ea : Word) : Size → Bool
  | .byte => false
  | .half => ea.extractLsb' 0 1 != 0#1
  | .word => ea.extractLsb' 0 2 != 0#2

/-- The low `n` bytes of a value. -/
def lowBytes (v : Word) : Size → Word
  | .byte => (v.setWidth 8).setWidth 32
  | .half => (v.setWidth 16).setWidth 32
  | .word => v

/-- The `n`-byte value at an offset, zero-extended (R72, R73). -/
def readSized (m : Memory) (o : Nat) : Size → Word
  | .byte => (readByte m o).setWidth 32
  | .half => (readHalf m o).setWidth 32
  | .word => readWord m o

/-- `MemRead(addr, n)`: the value, zero-extended, and the state after it, in which only the model's draw
counter can have moved (R73). An unmapped address reads `OPEN_BUS`, a free value per read (R74, log 7). -/
def memRead (s : State) (a : Word) (n : Size) : Word × State :=
  match resolve s.params a with
  | .ram off _ => (readSized s.ram off n, s)
  | .scratch off => (readSized s.scratch off n, s)
  | .rom off _ => (readSized s.rom off n, s)
  | .unmapped => (lowBytes (Config.openBus s.draws a (sizeBytes n)) n, { s with draws := s.draws + 1 })

/-- The bytes a store of kind `kind` to address `a` leaves in the memory of its region, `off` being the
address's offset (R77, R78, R81, R292, R294). -/
def storeInto (m : Memory) (off : Nat) (a : Word) (v : Word) : StoreKind → Memory
  | .b => writeByte m off (byteOf v 0)
  | .h => writeHalf m off v
  | .w => writeWord m off v
  | .wl =>
    let o := off - (byteInWord a).toNat
    writeWord m o (mergeStoreLeft (byteInWord a) (readWord m o) v)
  | .wr =>
    let o := off - (byteInWord a).toNat
    writeWord m o (mergeStoreRight (byteInWord a) (readWord m o) v)

/-- The code of a store's kind on the callback port (R128). -/
def storeKindCode : StoreKind → BitVec 3
  | .b => 0#3
  | .h => 1#3
  | .w => 2#3
  | .wl => 3#3
  | .wr => 4#3

/-- The request of the callback transaction: `IN_CALLBACK <- 1` and the four fields, the counter after the
store's own charge (R128, R160). -/
def State.requestCallback (s : State) (value address : Word) (kind : StoreKind) : State :=
  { s with inCallback := true, reqValue := value, reqAddress := address, reqCounter := s.cnt, reqKind := storeKindCode kind }

/-- What the body of an instruction that is not control flow comes to, before `PC` moves (R189). -/
inductive Body where
  /-- It completed. -/
  | done (s : State)
  /-- It is a store whose callback request is now outstanding; it completes when the response is adopted
  (R160). -/
  | call (s : State)
  /-- It raises a fault, with no effect (R372); the address where R371 gives `FAULT_ADDR` one. -/
  | fault (c : FaultCode) (addr : Option Word)
  deriving DecidableEq, Repr

/-- `MemWrite(addr, n, v, kind)` (R76 to R80). -/
def memWrite (s : State) (a : Word) (v : Word) (kind : StoreKind) : Body :=
  match resolve s.params a with
  | .ram off page => .done ({ s with ram := storeInto s.ram off a v kind }.invalidatePage page)
  | .scratch off => .done { s with scratch := storeInto s.scratch off a v kind }
  | .rom _ _ => .call (s.requestCallback v a kind)
  | .unmapped => .call (s.requestCallback v a kind)

/-! ## The fault stop (R372): the block's one way of taking an exception -/

/-- `fault_stop(F, pc_f, instr, addr, bd)` (R372), and the return from `run` (R195, R197). `none` for the word
or the address is where R371 or R372 leaves the register unspecified: it takes a free value (log 9).
There is no return from it to model beside it: R377, "There is no return-from-trap instruction"; the host
resumes with `set_pc` and `run`. -/
def State.faultStop (s : State) (c : FaultCode) (pcF : Word) (instr addr : Option Word) (bd : Bool) : State :=
  { s with
    faultCode := c
    faultPc := pcF
    faultInstr := instr.getD (Config.unspecifiedInstr s.draws)
    faultAddr := addr.getD (Config.unspecifiedAddr s.draws)
    faultBd := bd
    pc := pcF
    life := .ready
    response := some (.value s.runResult)
    draws := s.draws + 1 }

/-! ## Completing an instruction (R187, R190) -/

/-- `PC <- PC + 4`, and a block boundary when `PC` reaches the first word of a page (R187, R190 b). -/
def State.advance (s : State) : State :=
  { s with pc := s.pc + 4#32, dstate := if slotIndex s.params (s.pc + 4#32) = 0 then .yield else s.dstate }

/-- The block waits for the callback's response; where it goes on afterwards is kept (R94, R160). -/
def State.suspend (s : State) (next : Word) (boundary : Bool) : State :=
  { s with resumePc := next, resumeYield := boundary }

/-- Execute's treatment of an instruction that is not control flow, from the state it started in (R187,
R189). -/
def finish (w : Word) (s : State) : Body → Host.Outcome State Fault Refusal
  | .done t => .next t.advance
  | .call t => .next (t.suspend (t.pc + 4#32) (slotIndex t.params (t.pc + 4#32) = 0))
  | .fault c addr => .next (s.faultStop c s.pc (some w) addr false)

/-! ## Bodies several instructions share -/

/-- `charge(w)`, then `x[r] <- v` (R189, R220). -/
def writeBody (w : Word) (s : State) (r : RegIdx) (v : Word) : Body := .done ((s.charge w).setReg r v)

/-- `raise Overflow` on overflow, else as `writeBody` (R221). -/
def trapBody (w : Word) (s : State) (overflow : Bool) (r : RegIdx) (v : Word) : Body :=
  if overflow then .fault .overflow none else writeBody w s r v

/-- `charge(w)`, then both `HI` and `LO` (R260, R261). -/
def hiLoBody (w : Word) (s : State) (hi lo : Word) : Body := .done { s.charge w with hi := hi, lo := lo }

/-- `HI` and `LO` each become any value, drawn independently, each time (R269, log 8). -/
def hiLoFreeBody (w : Word) (s : State) : Body :=
  .done { s.charge w with hi := Config.divHi s.draws, lo := Config.divLo s.draws, draws := s.draws + 1 }

/-- The steps of a load: alignment, charge, read, write of `rt` (R281 a). -/
def loadBody (w : Word) (s : State) (rt : RegIdx) (ea : Word) (n : Size) (ext : Word → Word) : Body :=
  if misaligned ea n then .fault .addrLoad (some ea)
  else
    let r := memRead (s.charge w) ea n
    .done (r.2.setReg rt (ext r.1))

/-- The steps of `LWL` and `LWR`: charge, read of the aligned word, merge into `rt` (R281, R285, R289). -/
def loadMergeBody (w : Word) (s : State) (rt : RegIdx) (ea : Word) (merge : BitVec 2 → Word → Word → Word) : Body :=
  let r := memRead (s.charge w) (alignedWord ea) .word
  .done (r.2.setReg rt (merge (byteInWord ea) r.1 (s.reg rt)))

/-- The steps of a store: alignment, charge, `MemWrite` of the whole register (R282 a). -/
def storeBody (w : Word) (s : State) (rt : RegIdx) (ea : Word) (n : Size) (kind : StoreKind) : Body :=
  if misaligned ea n then .fault .addrStore (some ea)
  else memWrite (s.charge w) ea (s.reg rt) kind

/-! ## Commands (R165, R166) -/

/-- The states in which a command that is not refused for its operands is accepted: `LIFE` Ready, or Running
with a callback request outstanding (R154, R165). -/
def State.openToCommands (s : State) : Bool := s.life = .ready || (s.life = .running && s.inCallback)

/-- A refused command: `FAULT_CODE <- InvalidState` where R166 says so, nothing else (R166, R390, log 6). -/
def State.refuse (s : State) (answer : Response) : State :=
  { s with
    faultCode := if s.openToCommands then .invalidState else s.faultCode
    response := some answer }

/-- The block answers a command it accepted (R6, R125). -/
def State.answer (s : State) (r : Response) : State := { s with response := some r }

end Sys2Proof.Machine
end

