-- ==== Sys2Proof/Machine/Command.lean ====
section
/-! DEFINITION. The host commands (40_interface_operations.md, R181, R182). A command the table of R165 does
not accept, or whose operands R166 names, is refused: `State.refuse`. -/
namespace Sys2Proof.Machine

/-- `init`: accepted when `LIFE` is Uninitialized (R150). -/
def execInit (s : State) : Host.Outcome State Fault Refusal :=
  if s.life = .uninitialized then
    .next ({ s with valid := [], nePending := false, inCallback := false, faultCode := .none, life := .ready }.answer .ack)
  else .next (s.refuse .refused)

/-- The fault code of a number; every code is one (R371). -/
def faultCodeOf (n : Nat) : FaultCode :=
  match n % 12 with
  | 0 => .none
  | 1 => .reservedInstr
  | 2 => .coprocessor
  | 3 => .syscall
  | 4 => .brk
  | 5 => .overflow
  | 6 => .addrLoad
  | 7 => .addrStore
  | 8 => .fetchUnmapped
  | 9 => .pcMisaligned
  | 10 => .branchInDelay
  | _ => .invalidState

/-- The dispatcher state of a number; every state is one (R32). -/
def dstateOf (n : Nat) : DState :=
  match n % 3 with
  | 0 => .dispatch
  | 1 => .execute
  | _ => .yield

/-- The registers of the block after `delete`: each any value of its range, but `LIFE` (R414, log 16). The
memories, the validity table and the block store stand as they were. -/
def State.unspecifyRegisters (s : State) : State :=
  { s with
    regs := Config.deletedRegs s.draws
    hi := Config.deletedWord s.draws 31
    lo := Config.deletedWord s.draws 32
    pc := Config.deletedWord s.draws 33
    cnt := Config.deletedWord s.draws 34
    nextEvent := Config.deletedWord s.draws 35
    budget := Config.deletedWord s.draws 36
    c0 := Config.deletedWord s.draws 37
    faultPc := Config.deletedWord s.draws 38
    faultInstr := Config.deletedWord s.draws 39
    faultAddr := Config.deletedWord s.draws 40
    nePending := Config.deletedBit s.draws 0
    faultBd := Config.deletedBit s.draws 1
    inCallback := Config.deletedBit s.draws 2
    faultCode := faultCodeOf (Config.deletedIndex s.draws 0)
    dstate := dstateOf (Config.deletedIndex s.draws 1)
    curPage := Config.deletedIndex s.draws 2 % s.params.totalPages
    draws := s.draws + 1 }

/-- `delete`: accepted when `LIFE` is Ready; `LIFE <- Destroyed` (R151), the registers become unspecified
(R414). -/
def execDelete (s : State) : Host.Outcome State Fault Refusal :=
  if s.life = .ready then .next ({ s.unspecifyRegisters with life := .destroyed }.answer .ack)
  else .next (s.refuse .refused)

/-- `set_pc`: accepted when `LIFE` is Ready; `PC <- addr`, any value (R152). -/
def execSetPc (addr : Word) (s : State) : Host.Outcome State Fault Refusal :=
  if s.life = .ready then .next ({ s with pc := addr }.answer .ack) else .next (s.refuse .refused)

/-- `set_next_event`: accepted when `LIFE` is Ready; `NEXT_EVENT <- cycles`, `NE_PENDING <- 1` (R153). -/
def execSetNextEvent (cycles : Word) (s : State) : Host.Outcome State Fault Refusal :=
  if s.life = .ready then .next ({ s with nextEvent := cycles, nePending := true }.answer .ack)
  else .next (s.refuse .refused)

/-- The counter `run` starts from (R182). -/
def State.startCount (s : State) (n : Word) : Word := if s.nePending then minSigned n s.nextEvent else n

/-- The entry of an accepted `run`: Running, no fault recorded, the budget loaded, the dispatcher in Yield
(R181 to R183). It is answered when it ends (R195). -/
def State.startRun (s : State) (n : Word) : State :=
  { s with
    life := .running
    faultCode := .none
    budget := n
    c0 := s.startCount n
    nePending := false
    cnt := s.startCount n
    dstate := .yield
    response := none }

/-- `run`: accepted when `LIFE` is Ready (R181); a refused `run` returns 0 (R166). -/
def execRun (cycles : Word) (s : State) : Host.Outcome State Fault Refusal :=
  if s.life = .ready then .next (s.startRun cycles) else .next (s.refuse (.value 0#32))

/-- The response of `resolve`: region codes RAM 0, SCRATCH 1, ROM 2, UNMAPPED 3, a meaningless field 0
(R126). -/
def resolutionResponse : Resolution → Response
  | .ram off page => .resolution 0#32 (BitVec.ofNat 32 off) (BitVec.ofNat 32 page)
  | .scratch off => .resolution 1#32 (BitVec.ofNat 32 off) 0#32
  | .rom off page => .resolution 2#32 (BitVec.ofNat 32 off) (BitVec.ofNat 32 page)
  | .unmapped => .resolution 3#32 0#32 0#32

/-- `resolve` as a command (R154). -/
def execResolve (addr : Word) (s : State) : Host.Outcome State Fault Refusal :=
  if s.openToCommands then .next (s.answer (resolutionResponse (resolve s.params addr))) else .next (s.refuse .refused)

/-- `is_valid` as a command; a page index out of range is refused (R155). -/
def execIsValid (page : Word) (s : State) : Host.Outcome State Fault Refusal :=
  if s.openToCommands && pageInRange s.params page then
    .next (s.answer (.value (boolWord (s.pageValid page.toNat))))
  else .next (s.refuse .refused)

/-- `invalidate` as a command; a page index out of range is refused (R156). -/
def execInvalidate (page : Word) (s : State) : Host.Outcome State Fault Refusal :=
  if s.openToCommands && pageInRange s.params page then .next ((s.invalidatePage page.toNat).answer .ack)
  else .next (s.refuse .refused)

/-- The low `n` bytes of `v` at an offset, `n` in 1, 2, 4 (R157). -/
def writeLow (m : Memory) (off : Nat) (n v : Word) : Memory :=
  if n = 1#32 then writeByte m off (byteOf v 0) else if n = 2#32 then writeHalf m off v else writeWord m off v

/-- `ext_write`: into RAM, invalidating the page, or into the scratchpad; refused when misaligned, to ROM or
to an unmapped address (R157, R166), and for a size that is not 1, 2 or 4 (log 13). -/
def execExtWrite (addr n v : Word) (s : State) : Host.Outcome State Fault Refusal :=
  if s.openToCommands && sizeLegal n && sizeAligned addr n then
    match resolve s.params addr with
    | .ram off page => .next (({ s with ram := writeLow s.ram off n v }.invalidatePage page).answer .ack)
    | .scratch off => .next ({ s with scratch := writeLow s.scratch off n v }.answer .ack)
    | .rom _ _ => .next (s.refuse .refused)
    | .unmapped => .next (s.refuse .refused)
  else .next (s.refuse .refused)

/-- The code of a lifecycle state (R31). -/
def lifeCode : Life → Word
  | .uninitialized => 0#32
  | .ready => 1#32
  | .running => 2#32
  | .destroyed => 3#32

/-- The code of a fault (R371). -/
def faultCodeWord : FaultCode → Word
  | .none => 0#32
  | .reservedInstr => 1#32
  | .coprocessor => 2#32
  | .syscall => 3#32
  | .brk => 4#32
  | .overflow => 5#32
  | .addrLoad => 6#32
  | .addrStore => 7#32
  | .fetchUnmapped => 8#32
  | .pcMisaligned => 9#32
  | .branchInDelay => 10#32
  | .invalidState => 11#32

/-- The register a selector names, 0 to 41 (R127). -/
def State.selected (s : State) (sel : Selector) : Word :=
  if sel.toNat < 32 then s.reg (sel.setWidth 5)
  else match sel.toNat with
    | 32 => s.hi
    | 33 => s.lo
    | 34 => s.pc
    | 35 => s.cnt
    | 36 => faultCodeWord s.faultCode
    | 37 => s.faultPc
    | 38 => s.faultInstr
    | 39 => s.faultAddr
    | 40 => boolWord s.faultBd
    | _ => lifeCode s.life

/-- When `get_state(sel)` is accepted: Ready, or Running in a callback, for a selector that is not reserved;
selector 41 also when Uninitialized or Destroyed (R162, R165, log 14). -/
def State.acceptsGet (s : State) (sel : Selector) : Bool :=
  (s.openToCommands && selectorReadable sel)
    || (sel.toNat = 41 && (s.life = .uninitialized || s.life = .destroyed))

/-- `get_state` (R162). -/
def execGetState (sel : Selector) (s : State) : Host.Outcome State Fault Refusal :=
  if s.acceptsGet sel then .next (s.answer (.value (s.selected sel))) else .next (s.refuse .refused)

/-- `set_reg`'s write: `x[sel]` for 0 to 31 (dropped for 0), `HI` for 32, `LO` for 33 (R163). -/
def State.writeSelected (s : State) (sel : Selector) (v : Word) : State :=
  if sel.toNat < 32 then s.setReg (sel.setWidth 5) v
  else if sel.toNat = 32 then { s with hi := v }
  else { s with lo := v }

/-- `set_reg`: accepted when `LIFE` is Ready, for selectors 0 to 33 (R127, R163). -/
def execSetReg (sel : Selector) (v : Word) (s : State) : Host.Outcome State Fault Refusal :=
  if s.life = .ready && selectorWritable sel then .next ((s.writeSelected sel v).answer .ack)
  else .next (s.refuse .refused)

end Sys2Proof.Machine
end

