-- ==== Sys2Proof/Machine/Block.lean ====
section
/-! DEFINITION. The block store and the fetches: `translate` (R158), the word Execute runs (R186) and the
delay-slot word (R191, R192). -/
namespace Sys2Proof.Machine

/-- The key of `BLK[p][i]`. -/
def blkKey (c : Params) (p i : Nat) : Nat := p * c.pageInstrs + i

/-- `BLK[p][i]` (R34). -/
def State.blkWord (s : State) (p i : Nat) : Word := sparseGet 0#32 s.blk (blkKey s.params p i)

/-- The offset of page `p` in its backing memory: RAM pages first, then ROM pages (R65, R158). -/
def pageBase (c : Params) (p : Nat) : Nat :=
  if p < c.ramPages then p * c.pageBytes else (p - c.ramPages) * c.pageBytes

/-- The backing memory of page `p` (R158). -/
def State.pageMem (s : State) (p : Nat) : Memory := if p < s.params.ramPages then s.ram else s.rom

/-- The word now at index `i` of page `p`'s backing memory (R89, R158). -/
def State.pageWord (s : State) (p i : Nat) : Word := readWord (s.pageMem p) (pageBase s.params p + 4 * i)

/-- Words 0 to `n` - 1 of page `p` copied into the block store (the loop of R158). -/
def copyWords (s : State) (p : Nat) : Nat → List (Nat × Word)
  | 0 => s.blk
  | n + 1 => sparsePut 0#32 (copyWords s p n) (blkKey s.params p n) (s.pageWord p n)

/-- `translate(p)`: the page's words into `BLK[p]`, whatever they decode to, then `mark_valid(p)` (R90, R92,
R158). -/
def State.translate (s : State) (p : Nat) : State :=
  { s with blk := copyWords s p s.params.pageInstrs }.markValid p

/-- The instruction word Execute runs: `BLK[CURPAGE][PC[PAGE_SHIFT-1:2]]` (R186). -/
def fetchWord (s : State) : Word := s.blkWord s.curPage (slotIndex s.params s.pc)

/-- The delay-slot word of a branch at `PC`: the next word of the block, or, for a branch in the last slot of
its page, the word in memory at `b + 4` now; none when that address is not in RAM or ROM (R191, R192). -/
def slotWord (s : State) : Option Word :=
  if slotIndex s.params s.pc = s.params.pageInstrs - 1 then
    match resolve s.params (s.pc + 4#32) with
    | .ram off _ => some (readWord s.ram off)
    | .scratch _ => none
    | .rom off _ => some (readWord s.rom off)
    | .unmapped => none
  else some (s.blkWord s.curPage (slotIndex s.params s.pc + 1))

end Sys2Proof.Machine
end

