-- ==== Sys2Proof/Machine/Alu.lean ====
section
/-! DEFINITION. The arithmetic, logical, comparison and shift instructions (42_guest_alu.md). A body is what
the instruction does before `PC` moves, also in a delay slot; `exec…` is the instruction in Execute. -/
namespace Sys2Proof.Machine

/-- `x[rt] <- x[rs] + sext_16(imm16)`, trapping on signed overflow (R222). -/
def addiBody (rt rs : RegIdx) (imm : Imm16) (s : State) : Body :=
  trapBody (instrWord (.addi rt rs imm)) s (overflowAdd (s.reg rs) (signExtImm imm)) rt (s.reg rs + signExtImm imm)

/-- `ADDI` in Execute (R222, R189). -/
def execAddi (rt rs : RegIdx) (imm : Imm16) (s : State) : Host.Outcome State Fault Refusal :=
  finish (instrWord (.addi rt rs imm)) s (addiBody rt rs imm s)

/-- `x[rt] <- x[rs] + sext_16(imm16)` modulo 2^32 (R223). -/
def addiuBody (rt rs : RegIdx) (imm : Imm16) (s : State) : Body :=
  writeBody (instrWord (.addiu rt rs imm)) s rt (s.reg rs + signExtImm imm)

/-- `ADDIU` in Execute (R223, R189). -/
def execAddiu (rt rs : RegIdx) (imm : Imm16) (s : State) : Host.Outcome State Fault Refusal :=
  finish (instrWord (.addiu rt rs imm)) s (addiuBody rt rs imm s)

/-- `x[rt] <- (s32(x[rs]) < s32(sext_16(imm16))) ? 1 : 0` (R224). -/
def sltiBody (rt rs : RegIdx) (imm : Imm16) (s : State) : Body :=
  writeBody (instrWord (.slti rt rs imm)) s rt (boolWord (lessSigned (s.reg rs) (signExtImm imm)))

/-- `SLTI` in Execute (R224, R189). -/
def execSlti (rt rs : RegIdx) (imm : Imm16) (s : State) : Host.Outcome State Fault Refusal :=
  finish (instrWord (.slti rt rs imm)) s (sltiBody rt rs imm s)

/-- `x[rt] <- (u32(x[rs]) < u32(sext_16(imm16))) ? 1 : 0` (R225). -/
def sltiuBody (rt rs : RegIdx) (imm : Imm16) (s : State) : Body :=
  writeBody (instrWord (.sltiu rt rs imm)) s rt (boolWord (lessUnsigned (s.reg rs) (signExtImm imm)))

/-- `SLTIU` in Execute (R225, R189). -/
def execSltiu (rt rs : RegIdx) (imm : Imm16) (s : State) : Host.Outcome State Fault Refusal :=
  finish (instrWord (.sltiu rt rs imm)) s (sltiuBody rt rs imm s)

/-- `x[rt] <- x[rs] & zext_16(imm16)` (R226). -/
def andiBody (rt rs : RegIdx) (imm : Imm16) (s : State) : Body :=
  writeBody (instrWord (.andi rt rs imm)) s rt (s.reg rs &&& zeroExtImm imm)

/-- `ANDI` in Execute (R226, R189). -/
def execAndi (rt rs : RegIdx) (imm : Imm16) (s : State) : Host.Outcome State Fault Refusal :=
  finish (instrWord (.andi rt rs imm)) s (andiBody rt rs imm s)

/-- `x[rt] <- x[rs] | zext_16(imm16)` (R227). -/
def oriBody (rt rs : RegIdx) (imm : Imm16) (s : State) : Body :=
  writeBody (instrWord (.ori rt rs imm)) s rt (s.reg rs ||| zeroExtImm imm)

/-- `ORI` in Execute (R227, R189). -/
def execOri (rt rs : RegIdx) (imm : Imm16) (s : State) : Host.Outcome State Fault Refusal :=
  finish (instrWord (.ori rt rs imm)) s (oriBody rt rs imm s)

/-- `x[rt] <- x[rs] ^ zext_16(imm16)` (R228). -/
def xoriBody (rt rs : RegIdx) (imm : Imm16) (s : State) : Body :=
  writeBody (instrWord (.xori rt rs imm)) s rt (s.reg rs ^^^ zeroExtImm imm)

/-- `XORI` in Execute (R228, R189). -/
def execXori (rt rs : RegIdx) (imm : Imm16) (s : State) : Host.Outcome State Fault Refusal :=
  finish (instrWord (.xori rt rs imm)) s (xoriBody rt rs imm s)

/-- `x[rt] <- imm16 << 16` (R229). -/
def luiBody (rt : RegIdx) (imm : Imm16) (s : State) : Body :=
  writeBody (instrWord (.lui rt imm)) s rt (upperImm imm)

/-- `LUI` in Execute (R229, R189). -/
def execLui (rt : RegIdx) (imm : Imm16) (s : State) : Host.Outcome State Fault Refusal :=
  finish (instrWord (.lui rt imm)) s (luiBody rt imm s)

/-- `x[rd] <- x[rs] + x[rt]`, trapping on signed overflow (R230). -/
def addBody (rd rs rt : RegIdx) (s : State) : Body :=
  trapBody (instrWord (.add rd rs rt)) s (overflowAdd (s.reg rs) (s.reg rt)) rd (s.reg rs + s.reg rt)

/-- `ADD` in Execute (R230, R189). -/
def execAdd (rd rs rt : RegIdx) (s : State) : Host.Outcome State Fault Refusal :=
  finish (instrWord (.add rd rs rt)) s (addBody rd rs rt s)

/-- `x[rd] <- x[rs] + x[rt]` modulo 2^32 (R231). -/
def adduBody (rd rs rt : RegIdx) (s : State) : Body :=
  writeBody (instrWord (.addu rd rs rt)) s rd (s.reg rs + s.reg rt)

/-- `ADDU` in Execute (R231, R189). -/
def execAddu (rd rs rt : RegIdx) (s : State) : Host.Outcome State Fault Refusal :=
  finish (instrWord (.addu rd rs rt)) s (adduBody rd rs rt s)

/-- `x[rd] <- x[rs] - x[rt]`, trapping on signed overflow (R232). -/
def subBody (rd rs rt : RegIdx) (s : State) : Body :=
  trapBody (instrWord (.sub rd rs rt)) s (overflowSub (s.reg rs) (s.reg rt)) rd (s.reg rs - s.reg rt)

/-- `SUB` in Execute (R232, R189). -/
def execSub (rd rs rt : RegIdx) (s : State) : Host.Outcome State Fault Refusal :=
  finish (instrWord (.sub rd rs rt)) s (subBody rd rs rt s)

/-- `x[rd] <- x[rs] - x[rt]` modulo 2^32 (R233). -/
def subuBody (rd rs rt : RegIdx) (s : State) : Body :=
  writeBody (instrWord (.subu rd rs rt)) s rd (s.reg rs - s.reg rt)

/-- `SUBU` in Execute (R233, R189). -/
def execSubu (rd rs rt : RegIdx) (s : State) : Host.Outcome State Fault Refusal :=
  finish (instrWord (.subu rd rs rt)) s (subuBody rd rs rt s)

/-- `x[rd] <- x[rs] & x[rt]` (R234). -/
def andBody (rd rs rt : RegIdx) (s : State) : Body :=
  writeBody (instrWord (.and rd rs rt)) s rd (s.reg rs &&& s.reg rt)

/-- `AND` in Execute (R234, R189). -/
def execAnd (rd rs rt : RegIdx) (s : State) : Host.Outcome State Fault Refusal :=
  finish (instrWord (.and rd rs rt)) s (andBody rd rs rt s)

/-- `x[rd] <- x[rs] | x[rt]` (R235). -/
def orBody (rd rs rt : RegIdx) (s : State) : Body :=
  writeBody (instrWord (.or rd rs rt)) s rd (s.reg rs ||| s.reg rt)

/-- `OR` in Execute (R235, R189). -/
def execOr (rd rs rt : RegIdx) (s : State) : Host.Outcome State Fault Refusal :=
  finish (instrWord (.or rd rs rt)) s (orBody rd rs rt s)

/-- `x[rd] <- x[rs] ^ x[rt]` (R236). -/
def xorBody (rd rs rt : RegIdx) (s : State) : Body :=
  writeBody (instrWord (.xor rd rs rt)) s rd (s.reg rs ^^^ s.reg rt)

/-- `XOR` in Execute (R236, R189). -/
def execXor (rd rs rt : RegIdx) (s : State) : Host.Outcome State Fault Refusal :=
  finish (instrWord (.xor rd rs rt)) s (xorBody rd rs rt s)

/-- `x[rd] <- ~(x[rs] | x[rt])` (R237). -/
def norBody (rd rs rt : RegIdx) (s : State) : Body :=
  writeBody (instrWord (.nor rd rs rt)) s rd (~~~(s.reg rs ||| s.reg rt))

/-- `NOR` in Execute (R237, R189). -/
def execNor (rd rs rt : RegIdx) (s : State) : Host.Outcome State Fault Refusal :=
  finish (instrWord (.nor rd rs rt)) s (norBody rd rs rt s)

/-- `x[rd] <- (s32(x[rs]) < s32(x[rt])) ? 1 : 0` (R238). -/
def sltBody (rd rs rt : RegIdx) (s : State) : Body :=
  writeBody (instrWord (.slt rd rs rt)) s rd (boolWord (lessSigned (s.reg rs) (s.reg rt)))

/-- `SLT` in Execute (R238, R189). -/
def execSlt (rd rs rt : RegIdx) (s : State) : Host.Outcome State Fault Refusal :=
  finish (instrWord (.slt rd rs rt)) s (sltBody rd rs rt s)

/-- `x[rd] <- (u32(x[rs]) < u32(x[rt])) ? 1 : 0` (R239). -/
def sltuBody (rd rs rt : RegIdx) (s : State) : Body :=
  writeBody (instrWord (.sltu rd rs rt)) s rd (boolWord (lessUnsigned (s.reg rs) (s.reg rt)))

/-- `SLTU` in Execute (R239, R189). -/
def execSltu (rd rs rt : RegIdx) (s : State) : Host.Outcome State Fault Refusal :=
  finish (instrWord (.sltu rd rs rt)) s (sltuBody rd rs rt s)

/-- `x[rd] <- x[rt] << shamt` (R240). -/
def sllBody (rd rt : RegIdx) (shamt : BitVec 5) (s : State) : Body :=
  writeBody (instrWord (.sll rd rt shamt)) s rd (s.reg rt <<< shamt)

/-- `SLL` in Execute (R240, R189). -/
def execSll (rd rt : RegIdx) (shamt : BitVec 5) (s : State) : Host.Outcome State Fault Refusal :=
  finish (instrWord (.sll rd rt shamt)) s (sllBody rd rt shamt s)

/-- `x[rd] <- x[rt] >>u shamt` (R241). -/
def srlBody (rd rt : RegIdx) (shamt : BitVec 5) (s : State) : Body :=
  writeBody (instrWord (.srl rd rt shamt)) s rd (s.reg rt >>> shamt)

/-- `SRL` in Execute (R241, R189). -/
def execSrl (rd rt : RegIdx) (shamt : BitVec 5) (s : State) : Host.Outcome State Fault Refusal :=
  finish (instrWord (.srl rd rt shamt)) s (srlBody rd rt shamt s)

/-- `x[rd] <- x[rt] >>s shamt` (R242). -/
def sraBody (rd rt : RegIdx) (shamt : BitVec 5) (s : State) : Body :=
  writeBody (instrWord (.sra rd rt shamt)) s rd ((s.reg rt).sshiftRight shamt.toNat)

/-- `SRA` in Execute (R242, R189). -/
def execSra (rd rt : RegIdx) (shamt : BitVec 5) (s : State) : Host.Outcome State Fault Refusal :=
  finish (instrWord (.sra rd rt shamt)) s (sraBody rd rt shamt s)

/-- `x[rd] <- x[rt] << x[rs][4:0]` (R243). -/
def sllvBody (rd rt rs : RegIdx) (s : State) : Body :=
  writeBody (instrWord (.sllv rd rt rs)) s rd (s.reg rt <<< shiftAmount (s.reg rs))

/-- `SLLV` in Execute (R243, R189). -/
def execSllv (rd rt rs : RegIdx) (s : State) : Host.Outcome State Fault Refusal :=
  finish (instrWord (.sllv rd rt rs)) s (sllvBody rd rt rs s)

/-- `x[rd] <- x[rt] >>u x[rs][4:0]` (R244). -/
def srlvBody (rd rt rs : RegIdx) (s : State) : Body :=
  writeBody (instrWord (.srlv rd rt rs)) s rd (s.reg rt >>> shiftAmount (s.reg rs))

/-- `SRLV` in Execute (R244, R189). -/
def execSrlv (rd rt rs : RegIdx) (s : State) : Host.Outcome State Fault Refusal :=
  finish (instrWord (.srlv rd rt rs)) s (srlvBody rd rt rs s)

/-- `x[rd] <- x[rt] >>s x[rs][4:0]` (R245). -/
def sravBody (rd rt rs : RegIdx) (s : State) : Body :=
  writeBody (instrWord (.srav rd rt rs)) s rd ((s.reg rt).sshiftRight (shiftAmount (s.reg rs)).toNat)

/-- `SRAV` in Execute (R245, R189). -/
def execSrav (rd rt rs : RegIdx) (s : State) : Host.Outcome State Fault Refusal :=
  finish (instrWord (.srav rd rt rs)) s (sravBody rd rt rs s)

end Sys2Proof.Machine
end

