-- ==== Sys2Proof/Machine/LoadStore.lean ====
section
/-! DEFINITION. The load and store instructions (44_guest_loadstore.md). `ea` is R280's effective address. -/
namespace Sys2Proof.Machine

/-- `x[rt] <- sext_8(MemRead(ea, 1))` (R283). -/
def lbBody (rt rs : RegIdx) (imm : Imm16) (s : State) : Body :=
  loadBody (instrWord (.lb rt rs imm)) s rt (effectiveAddress (s.reg rs) imm) .byte signExtByte

/-- `LB` in Execute (R283, R189). -/
def execLb (rt rs : RegIdx) (imm : Imm16) (s : State) : Host.Outcome State Fault Refusal :=
  finish (instrWord (.lb rt rs imm)) s (lbBody rt rs imm s)

/-- `x[rt] <- sext_16(MemRead(ea, 2))`, `AddrLoad` on an odd address (R284). -/
def lhBody (rt rs : RegIdx) (imm : Imm16) (s : State) : Body :=
  loadBody (instrWord (.lh rt rs imm)) s rt (effectiveAddress (s.reg rs) imm) .half signExtHalf

/-- `LH` in Execute (R284, R189). -/
def execLh (rt rs : RegIdx) (imm : Imm16) (s : State) : Host.Outcome State Fault Refusal :=
  finish (instrWord (.lh rt rs imm)) s (lhBody rt rs imm s)

/-- The left merge of the aligned word at `ea` into `rt` (R285). -/
def lwlBody (rt rs : RegIdx) (imm : Imm16) (s : State) : Body :=
  loadMergeBody (instrWord (.lwl rt rs imm)) s rt (effectiveAddress (s.reg rs) imm) mergeLoadLeft

/-- `LWL` in Execute (R285, R189). -/
def execLwl (rt rs : RegIdx) (imm : Imm16) (s : State) : Host.Outcome State Fault Refusal :=
  finish (instrWord (.lwl rt rs imm)) s (lwlBody rt rs imm s)

/-- `x[rt] <- MemRead(ea, 4)`, `AddrLoad` when `ea` is no multiple of 4 (R286). -/
def lwBody (rt rs : RegIdx) (imm : Imm16) (s : State) : Body :=
  loadBody (instrWord (.lw rt rs imm)) s rt (effectiveAddress (s.reg rs) imm) .word id

/-- `LW` in Execute (R286, R189). -/
def execLw (rt rs : RegIdx) (imm : Imm16) (s : State) : Host.Outcome State Fault Refusal :=
  finish (instrWord (.lw rt rs imm)) s (lwBody rt rs imm s)

/-- `x[rt] <- zext_8(MemRead(ea, 1))` (R287). -/
def lbuBody (rt rs : RegIdx) (imm : Imm16) (s : State) : Body :=
  loadBody (instrWord (.lbu rt rs imm)) s rt (effectiveAddress (s.reg rs) imm) .byte id

/-- `LBU` in Execute (R287, R189). -/
def execLbu (rt rs : RegIdx) (imm : Imm16) (s : State) : Host.Outcome State Fault Refusal :=
  finish (instrWord (.lbu rt rs imm)) s (lbuBody rt rs imm s)

/-- `x[rt] <- zext_16(MemRead(ea, 2))`, `AddrLoad` on an odd address (R288). -/
def lhuBody (rt rs : RegIdx) (imm : Imm16) (s : State) : Body :=
  loadBody (instrWord (.lhu rt rs imm)) s rt (effectiveAddress (s.reg rs) imm) .half id

/-- `LHU` in Execute (R288, R189). -/
def execLhu (rt rs : RegIdx) (imm : Imm16) (s : State) : Host.Outcome State Fault Refusal :=
  finish (instrWord (.lhu rt rs imm)) s (lhuBody rt rs imm s)

/-- The right merge of the aligned word at `ea` into `rt` (R289). -/
def lwrBody (rt rs : RegIdx) (imm : Imm16) (s : State) : Body :=
  loadMergeBody (instrWord (.lwr rt rs imm)) s rt (effectiveAddress (s.reg rs) imm) mergeLoadRight

/-- `LWR` in Execute (R289, R189). -/
def execLwr (rt rs : RegIdx) (imm : Imm16) (s : State) : Host.Outcome State Fault Refusal :=
  finish (instrWord (.lwr rt rs imm)) s (lwrBody rt rs imm s)

/-- `MemWrite(ea, 1, x[rt], B)` (R290). -/
def sbBody (rt rs : RegIdx) (imm : Imm16) (s : State) : Body :=
  storeBody (instrWord (.sb rt rs imm)) s rt (effectiveAddress (s.reg rs) imm) .byte .b

/-- `SB` in Execute (R290, R189). -/
def execSb (rt rs : RegIdx) (imm : Imm16) (s : State) : Host.Outcome State Fault Refusal :=
  finish (instrWord (.sb rt rs imm)) s (sbBody rt rs imm s)

/-- `MemWrite(ea, 2, x[rt], H)`, `AddrStore` on an odd address (R291). -/
def shBody (rt rs : RegIdx) (imm : Imm16) (s : State) : Body :=
  storeBody (instrWord (.sh rt rs imm)) s rt (effectiveAddress (s.reg rs) imm) .half .h

/-- `SH` in Execute (R291, R189). -/
def execSh (rt rs : RegIdx) (imm : Imm16) (s : State) : Host.Outcome State Fault Refusal :=
  finish (instrWord (.sh rt rs imm)) s (shBody rt rs imm s)

/-- `MemWrite` of kind `WL`: the most significant bytes of `rt` into the low part of the aligned word (R292). -/
def swlBody (rt rs : RegIdx) (imm : Imm16) (s : State) : Body :=
  memWrite (s.charge (instrWord (.swl rt rs imm))) (effectiveAddress (s.reg rs) imm) (s.reg rt) .wl

/-- `SWL` in Execute (R292, R189). -/
def execSwl (rt rs : RegIdx) (imm : Imm16) (s : State) : Host.Outcome State Fault Refusal :=
  finish (instrWord (.swl rt rs imm)) s (swlBody rt rs imm s)

/-- `MemWrite(ea, 4, x[rt], W)`, `AddrStore` when `ea` is no multiple of 4 (R293). -/
def swBody (rt rs : RegIdx) (imm : Imm16) (s : State) : Body :=
  storeBody (instrWord (.sw rt rs imm)) s rt (effectiveAddress (s.reg rs) imm) .word .w

/-- `SW` in Execute (R293, R189). -/
def execSw (rt rs : RegIdx) (imm : Imm16) (s : State) : Host.Outcome State Fault Refusal :=
  finish (instrWord (.sw rt rs imm)) s (swBody rt rs imm s)

/-- `MemWrite` of kind `WR`: the least significant bytes of `rt` into the high part of the aligned word (R294). -/
def swrBody (rt rs : RegIdx) (imm : Imm16) (s : State) : Body :=
  memWrite (s.charge (instrWord (.swr rt rs imm))) (effectiveAddress (s.reg rs) imm) (s.reg rt) .wr

/-- `SWR` in Execute (R294, R189). -/
def execSwr (rt rs : RegIdx) (imm : Imm16) (s : State) : Host.Outcome State Fault Refusal :=
  finish (instrWord (.swr rt rs imm)) s (swrBody rt rs imm s)

end Sys2Proof.Machine
end

