-- ==== Sys2Proof/Machine/MulDiv.lean ====
section
/-! DEFINITION. The multiply, divide and `HI`/`LO` instructions (43_guest_muldiv.md). -/
namespace Sys2Proof.Machine

/-- `p[63:32]` of the 64-bit two's complement form of `p` (R261). -/
def highWord (p : Int) : Word := (BitVec.ofInt 64 p).extractLsb' 32 32

/-- `p[31:0]` of the 64-bit two's complement form of `p` (R261). -/
def lowWord (p : Int) : Word := (BitVec.ofInt 64 p).extractLsb' 0 32

/-- The operands of `DIV` for which R269 leaves the results open. -/
def divOpen (n d : Word) : Bool := d = 0#32 || (n = 0x80000000#32 && d = 0xFFFFFFFF#32)

/-- The quotient of `DIV`, rounded toward zero (R263). -/
def quotSigned (n d : Word) : Word := BitVec.ofInt 32 (n.toInt.tdiv d.toInt)

/-- The remainder of `DIV`, `n - q * d` (R263). -/
def remSigned (n d : Word) : Word := BitVec.ofInt 32 (n.toInt - n.toInt.tdiv d.toInt * d.toInt)

/-- The quotient of `DIVU` (R264). -/
def quotUnsigned (n d : Word) : Word := BitVec.ofNat 32 (n.toNat / d.toNat)

/-- The remainder of `DIVU` (R264). -/
def remUnsigned (n d : Word) : Word := BitVec.ofNat 32 (n.toNat % d.toNat)

/-- `p <- s32(x[rs]) * s32(x[rt])`; `LO <- p[31:0]`; `HI <- p[63:32]` (R261). -/
def multBody (rs rt : RegIdx) (s : State) : Body :=
  hiLoBody (instrWord (.mult rs rt)) s (highWord ((s.reg rs).toInt * (s.reg rt).toInt))
    (lowWord ((s.reg rs).toInt * (s.reg rt).toInt))

/-- `MULT` in Execute (R261, R189). -/
def execMult (rs rt : RegIdx) (s : State) : Host.Outcome State Fault Refusal :=
  finish (instrWord (.mult rs rt)) s (multBody rs rt s)

/-- `p <- u32(x[rs]) * u32(x[rt])`; `LO <- p[31:0]`; `HI <- p[63:32]` (R262). -/
def multuBody (rs rt : RegIdx) (s : State) : Body :=
  hiLoBody (instrWord (.multu rs rt)) s (highWord ((s.reg rs).toNat * (s.reg rt).toNat))
    (lowWord ((s.reg rs).toNat * (s.reg rt).toNat))

/-- `MULTU` in Execute (R262, R189). -/
def execMultu (rs rt : RegIdx) (s : State) : Host.Outcome State Fault Refusal :=
  finish (instrWord (.multu rs rt)) s (multuBody rs rt s)

/-- `LO <- q`, `HI <- r`, each any value for a zero divisor and for 0x80000000 / -1 (R269) (R263). -/
def divBody (rs rt : RegIdx) (s : State) : Body :=
  if divOpen (s.reg rs) (s.reg rt) then hiLoFreeBody (instrWord (.div rs rt)) s
  else hiLoBody (instrWord (.div rs rt)) s (remSigned (s.reg rs) (s.reg rt)) (quotSigned (s.reg rs) (s.reg rt))

/-- `DIV` in Execute (R263, R189). -/
def execDiv (rs rt : RegIdx) (s : State) : Host.Outcome State Fault Refusal :=
  finish (instrWord (.div rs rt)) s (divBody rs rt s)

/-- `LO <- floor(n / d)`, `HI <- n mod d`, each any value for a zero divisor (R269) (R264). -/
def divuBody (rs rt : RegIdx) (s : State) : Body :=
  if s.reg rt = 0#32 then hiLoFreeBody (instrWord (.divu rs rt)) s
  else hiLoBody (instrWord (.divu rs rt)) s (remUnsigned (s.reg rs) (s.reg rt)) (quotUnsigned (s.reg rs) (s.reg rt))

/-- `DIVU` in Execute (R264, R189). -/
def execDivu (rs rt : RegIdx) (s : State) : Host.Outcome State Fault Refusal :=
  finish (instrWord (.divu rs rt)) s (divuBody rs rt s)

/-- `x[rd] <- HI` (R265). -/
def mfhiBody (rd : RegIdx) (s : State) : Body := writeBody (instrWord (.mfhi rd)) s rd s.hi

/-- `MFHI` in Execute (R265, R189). -/
def execMfhi (rd : RegIdx) (s : State) : Host.Outcome State Fault Refusal :=
  finish (instrWord (.mfhi rd)) s (mfhiBody rd s)

/-- `HI <- x[rs]`, `LO` unchanged (R266). -/
def mthiBody (rs : RegIdx) (s : State) : Body := hiLoBody (instrWord (.mthi rs)) s (s.reg rs) s.lo

/-- `MTHI` in Execute (R266, R189). -/
def execMthi (rs : RegIdx) (s : State) : Host.Outcome State Fault Refusal :=
  finish (instrWord (.mthi rs)) s (mthiBody rs s)

/-- `x[rd] <- LO` (R267). -/
def mfloBody (rd : RegIdx) (s : State) : Body := writeBody (instrWord (.mflo rd)) s rd s.lo

/-- `MFLO` in Execute (R267, R189). -/
def execMflo (rd : RegIdx) (s : State) : Host.Outcome State Fault Refusal :=
  finish (instrWord (.mflo rd)) s (mfloBody rd s)

/-- `LO <- x[rs]`, `HI` unchanged (R268). -/
def mtloBody (rs : RegIdx) (s : State) : Body := hiLoBody (instrWord (.mtlo rs)) s s.hi (s.reg rs)

/-- `MTLO` in Execute (R268, R189). -/
def execMtlo (rs : RegIdx) (s : State) : Host.Outcome State Fault Refusal :=
  finish (instrWord (.mtlo rs)) s (mtloBody rs s)

end Sys2Proof.Machine
end

