-- ==== Sys2Proof/Machine/System.lean ====
section
/-! DEFINITION. The system and coprocessor instructions (46_guest_system.md): each takes the fault stop R340
and its own rule describe, with no other effect. -/
namespace Sys2Proof.Machine

/-- `raise Syscall(pc, instr = w)`: whatever its code field (R341). -/
def syscallBody (_code : Code20) (_s : State) : Body := .fault .syscall none

/-- `SYSCALL` in Execute (R341, R189). -/
def execSyscall (code : Code20) (s : State) : Host.Outcome State Fault Refusal :=
  finish (instrWord (.syscall code)) s (syscallBody code s)

/-- `raise Break(pc, instr = w)`: whatever its code field (R342). -/
def brkBody (_code : Code20) (_s : State) : Body := .fault .brk none

/-- `BREAK` in Execute (R342, R189). -/
def execBrk (code : Code20) (s : State) : Host.Outcome State Fault Refusal :=
  finish (instrWord (.brk code)) s (brkBody code s)

/-- `raise Coprocessor(pc, instr = w)` (R343). -/
def cop0Body (_cofun : BitVec 26) (_s : State) : Body := .fault .coprocessor none

/-- `COP0` in Execute (R343, R189). -/
def execCop0 (cofun : BitVec 26) (s : State) : Host.Outcome State Fault Refusal :=
  finish (instrWord (.cop0 cofun)) s (cop0Body cofun s)

/-- `raise Coprocessor(pc, instr = w)` (R344). -/
def cop1Body (_cofun : BitVec 26) (_s : State) : Body := .fault .coprocessor none

/-- `COP1` in Execute (R344, R189). -/
def execCop1 (cofun : BitVec 26) (s : State) : Host.Outcome State Fault Refusal :=
  finish (instrWord (.cop1 cofun)) s (cop1Body cofun s)

/-- `raise Coprocessor(pc, instr = w)` (R345). -/
def cop2Body (_cofun : BitVec 26) (_s : State) : Body := .fault .coprocessor none

/-- `COP2` in Execute (R345, R189). -/
def execCop2 (cofun : BitVec 26) (s : State) : Host.Outcome State Fault Refusal :=
  finish (instrWord (.cop2 cofun)) s (cop2Body cofun s)

/-- `raise Coprocessor(pc, instr = w)` (R346). -/
def cop3Body (_cofun : BitVec 26) (_s : State) : Body := .fault .coprocessor none

/-- `COP3` in Execute (R346, R189). -/
def execCop3 (cofun : BitVec 26) (s : State) : Host.Outcome State Fault Refusal :=
  finish (instrWord (.cop3 cofun)) s (cop3Body cofun s)

/-- `raise Coprocessor(pc, instr = w)`, no memory is read (R347). -/
def lwc0Body (_rt _rs : RegIdx) (_imm : Imm16) (_s : State) : Body := .fault .coprocessor none

/-- `LWC0` in Execute (R347, R189). -/
def execLwc0 (rt rs : RegIdx) (imm : Imm16) (s : State) : Host.Outcome State Fault Refusal :=
  finish (instrWord (.lwc0 rt rs imm)) s (lwc0Body rt rs imm s)

/-- `raise Coprocessor(pc, instr = w)`, no memory is read (R348). -/
def lwc1Body (_rt _rs : RegIdx) (_imm : Imm16) (_s : State) : Body := .fault .coprocessor none

/-- `LWC1` in Execute (R348, R189). -/
def execLwc1 (rt rs : RegIdx) (imm : Imm16) (s : State) : Host.Outcome State Fault Refusal :=
  finish (instrWord (.lwc1 rt rs imm)) s (lwc1Body rt rs imm s)

/-- `raise Coprocessor(pc, instr = w)`, no memory is read (R349). -/
def lwc2Body (_rt _rs : RegIdx) (_imm : Imm16) (_s : State) : Body := .fault .coprocessor none

/-- `LWC2` in Execute (R349, R189). -/
def execLwc2 (rt rs : RegIdx) (imm : Imm16) (s : State) : Host.Outcome State Fault Refusal :=
  finish (instrWord (.lwc2 rt rs imm)) s (lwc2Body rt rs imm s)

/-- `raise Coprocessor(pc, instr = w)`, no memory is read (R350). -/
def lwc3Body (_rt _rs : RegIdx) (_imm : Imm16) (_s : State) : Body := .fault .coprocessor none

/-- `LWC3` in Execute (R350, R189). -/
def execLwc3 (rt rs : RegIdx) (imm : Imm16) (s : State) : Host.Outcome State Fault Refusal :=
  finish (instrWord (.lwc3 rt rs imm)) s (lwc3Body rt rs imm s)

/-- `raise Coprocessor(pc, instr = w)`, no memory is written, no callback is made (R351). -/
def swc0Body (_rt _rs : RegIdx) (_imm : Imm16) (_s : State) : Body := .fault .coprocessor none

/-- `SWC0` in Execute (R351, R189). -/
def execSwc0 (rt rs : RegIdx) (imm : Imm16) (s : State) : Host.Outcome State Fault Refusal :=
  finish (instrWord (.swc0 rt rs imm)) s (swc0Body rt rs imm s)

/-- `raise Coprocessor(pc, instr = w)`, no memory is written, no callback is made (R352). -/
def swc1Body (_rt _rs : RegIdx) (_imm : Imm16) (_s : State) : Body := .fault .coprocessor none

/-- `SWC1` in Execute (R352, R189). -/
def execSwc1 (rt rs : RegIdx) (imm : Imm16) (s : State) : Host.Outcome State Fault Refusal :=
  finish (instrWord (.swc1 rt rs imm)) s (swc1Body rt rs imm s)

/-- `raise Coprocessor(pc, instr = w)`, no memory is written, no callback is made (R353). -/
def swc2Body (_rt _rs : RegIdx) (_imm : Imm16) (_s : State) : Body := .fault .coprocessor none

/-- `SWC2` in Execute (R353, R189). -/
def execSwc2 (rt rs : RegIdx) (imm : Imm16) (s : State) : Host.Outcome State Fault Refusal :=
  finish (instrWord (.swc2 rt rs imm)) s (swc2Body rt rs imm s)

/-- `raise Coprocessor(pc, instr = w)`, no memory is written, no callback is made (R354). -/
def swc3Body (_rt _rs : RegIdx) (_imm : Imm16) (_s : State) : Body := .fault .coprocessor none

/-- `SWC3` in Execute (R354, R189). -/
def execSwc3 (rt rs : RegIdx) (imm : Imm16) (s : State) : Host.Outcome State Fault Refusal :=
  finish (instrWord (.swc3 rt rs imm)) s (swc3Body rt rs imm s)

end Sys2Proof.Machine
end

