-- ==== Sys2Proof/Machine/Slot.lean ====
section
/-! DEFINITION. What an instruction does in a delay slot (R311): the same body as in Execute. -/
namespace Sys2Proof.Machine

/-- The body of an instruction standing in a delay slot (R310 step 6, R311). A branch or jump never reaches
here (`controlUnit` raises `BranchInDelay` first, R310 step 2), nor does a host command (no guest word decodes
to one); their arms repeat the fault of R311 and the one of a word that is no guest instruction. -/
def slotBody (i : Instr) (s : State) : Body :=
  match i with
  | .addi rt rs imm => addiBody rt rs imm s
  | .addiu rt rs imm => addiuBody rt rs imm s
  | .slti rt rs imm => sltiBody rt rs imm s
  | .sltiu rt rs imm => sltiuBody rt rs imm s
  | .andi rt rs imm => andiBody rt rs imm s
  | .ori rt rs imm => oriBody rt rs imm s
  | .xori rt rs imm => xoriBody rt rs imm s
  | .lui rt imm => luiBody rt imm s
  | .add rd rs rt => addBody rd rs rt s
  | .addu rd rs rt => adduBody rd rs rt s
  | .sub rd rs rt => subBody rd rs rt s
  | .subu rd rs rt => subuBody rd rs rt s
  | .and rd rs rt => andBody rd rs rt s
  | .or rd rs rt => orBody rd rs rt s
  | .xor rd rs rt => xorBody rd rs rt s
  | .nor rd rs rt => norBody rd rs rt s
  | .slt rd rs rt => sltBody rd rs rt s
  | .sltu rd rs rt => sltuBody rd rs rt s
  | .sll rd rt shamt => sllBody rd rt shamt s
  | .srl rd rt shamt => srlBody rd rt shamt s
  | .sra rd rt shamt => sraBody rd rt shamt s
  | .sllv rd rt rs => sllvBody rd rt rs s
  | .srlv rd rt rs => srlvBody rd rt rs s
  | .srav rd rt rs => sravBody rd rt rs s
  | .mult rs rt => multBody rs rt s
  | .multu rs rt => multuBody rs rt s
  | .div rs rt => divBody rs rt s
  | .divu rs rt => divuBody rs rt s
  | .mfhi rd => mfhiBody rd s
  | .mthi rs => mthiBody rs s
  | .mflo rd => mfloBody rd s
  | .mtlo rs => mtloBody rs s
  | .lb rt rs imm => lbBody rt rs imm s
  | .lh rt rs imm => lhBody rt rs imm s
  | .lwl rt rs imm => lwlBody rt rs imm s
  | .lw rt rs imm => lwBody rt rs imm s
  | .lbu rt rs imm => lbuBody rt rs imm s
  | .lhu rt rs imm => lhuBody rt rs imm s
  | .lwr rt rs imm => lwrBody rt rs imm s
  | .sb rt rs imm => sbBody rt rs imm s
  | .sh rt rs imm => shBody rt rs imm s
  | .swl rt rs imm => swlBody rt rs imm s
  | .sw rt rs imm => swBody rt rs imm s
  | .swr rt rs imm => swrBody rt rs imm s
  | .j _ => .fault .branchInDelay none
  | .jal _ => .fault .branchInDelay none
  | .jr _ => .fault .branchInDelay none
  | .jalr _ _ => .fault .branchInDelay none
  | .beq _ _ _ => .fault .branchInDelay none
  | .bne _ _ _ => .fault .branchInDelay none
  | .blez _ _ => .fault .branchInDelay none
  | .bgtz _ _ => .fault .branchInDelay none
  | .bltz _ _ => .fault .branchInDelay none
  | .bgez _ _ => .fault .branchInDelay none
  | .bltzal _ _ => .fault .branchInDelay none
  | .bgezal _ _ => .fault .branchInDelay none
  | .syscall code => syscallBody code s
  | .brk code => brkBody code s
  | .cop0 cofun => cop0Body cofun s
  | .cop1 cofun => cop1Body cofun s
  | .cop2 cofun => cop2Body cofun s
  | .cop3 cofun => cop3Body cofun s
  | .lwc0 rt rs imm => lwc0Body rt rs imm s
  | .lwc1 rt rs imm => lwc1Body rt rs imm s
  | .lwc2 rt rs imm => lwc2Body rt rs imm s
  | .lwc3 rt rs imm => lwc3Body rt rs imm s
  | .swc0 rt rs imm => swc0Body rt rs imm s
  | .swc1 rt rs imm => swc1Body rt rs imm s
  | .swc2 rt rs imm => swc2Body rt rs imm s
  | .swc3 rt rs imm => swc3Body rt rs imm s
  | .init => .fault .reservedInstr none
  | .delete => .fault .reservedInstr none
  | .setPc _ => .fault .reservedInstr none
  | .setNextEvent _ => .fault .reservedInstr none
  | .run _ => .fault .reservedInstr none
  | .resolve _ => .fault .reservedInstr none
  | .isValid _ => .fault .reservedInstr none
  | .invalidate _ => .fault .reservedInstr none
  | .extWrite _ _ _ => .fault .reservedInstr none
  | .getState _ => .fault .reservedInstr none
  | .setReg _ _ => .fault .reservedInstr none

/-- The body of the delay-slot word `d`; a `RESERVED` word raises `ReservedInstr` (R311, R355). -/
def slotWordBody (d : Word) (s : State) : Body :=
  match decodeGuest d with
  | .instr i => slotBody i s
  | .reserved => .fault .reservedInstr none
  | .reservedCommand => .fault .reservedInstr none
  | .notOneWord => .fault .reservedInstr none

/-- `class(d) is BRANCH or JUMP` (R310 step 2). -/
def isControlWord (d : Word) : Bool :=
  match decodeGuest d with
  | .instr i => i.isControlFlow
  | .reserved => false
  | .reservedCommand => false
  | .notOneWord => false

end Sys2Proof.Machine
end

