-- ==== Sys2Proof/Machine/Control.lean ====
section
/-! DEFINITION. The branches and jumps (45_guest_control.md): each is a control-flow unit with the word in its
delay slot, executed as one step (R310). -/
namespace Sys2Proof.Machine

/-- Step 5 of R310: the link register, if the instruction links, becomes `b + 8`. -/
def State.link (s : State) (r : Option RegIdx) : State :=
  match r with
  | some r => s.setReg r (s.pc + 8#32)
  | none => s

/-- Step 7 of R310, after the slot's body in the state `u` (charged and linked) came to `slot`: `PC` becomes
`next`, and the block ends (R190 a). A fault of the slot records the branch (R375). -/
def finishUnit (d : Word) (u : State) (next : Word) (slot : Body) : Host.Outcome State Fault Refusal :=
  match slot with
  | .done t => .next { t with pc := next, dstate := .yield }
  | .call t => .next (t.suspend next true)
  | .fault c addr => .next (u.faultStop c u.pc (some d) addr true)

/-- `control_flow_unit(b, w)` at `b = PC` (R310), with the branch's condition and target computed from the
registers before anything changes (step 3), and `link` the register it links, if any. -/
def controlUnit (w : Word) (taken : Bool) (target : Word) (link : Option RegIdx) (s : State) :
    Host.Outcome State Fault Refusal :=
  match slotWord s with
  | none => .next (s.faultStop .fetchUnmapped s.pc (some w) (some (s.pc + 4#32)) true)
  | some d =>
    if isControlWord d then .next (s.faultStop .branchInDelay s.pc (some d) none true)
    else
      let u := (s.charge w).link link
      finishUnit d u (if taken then target else s.pc + 8#32) (slotWordBody d u)

/-- `J`: always taken, no link (R312). -/
def execJ (target : Target26) (s : State) : Host.Outcome State Fault Refusal :=
  controlUnit (instrWord (.j target)) true (jumpTarget s.pc target) none s

/-- `JAL`: always taken, `x[31] <- b + 8` (R313). -/
def execJal (target : Target26) (s : State) : Host.Outcome State Fault Refusal :=
  controlUnit (instrWord (.jal target)) true (jumpTarget s.pc target) (some 31#5) s

/-- `JR`: to `x[rs]`, read before the delay slot (R314). -/
def execJr (rs : RegIdx) (s : State) : Host.Outcome State Fault Refusal :=
  controlUnit (instrWord (.jr rs)) true (s.reg rs) none s

/-- `JALR`: to the old `x[rs]`, `x[rd] <- b + 8` (R315). -/
def execJalr (rd rs : RegIdx) (s : State) : Host.Outcome State Fault Refusal :=
  controlUnit (instrWord (.jalr rd rs)) true (s.reg rs) (some rd) s

/-- `BEQ`: taken when `x[rs] = x[rt]` (R316). -/
def execBeq (rs rt : RegIdx) (imm : Imm16) (s : State) : Host.Outcome State Fault Refusal :=
  controlUnit (instrWord (.beq rs rt imm)) (s.reg rs = s.reg rt) (branchTarget s.pc imm) none s

/-- `BNE`: taken when `x[rs] != x[rt]` (R317). -/
def execBne (rs rt : RegIdx) (imm : Imm16) (s : State) : Host.Outcome State Fault Refusal :=
  controlUnit (instrWord (.bne rs rt imm)) (s.reg rs ≠ s.reg rt) (branchTarget s.pc imm) none s

/-- `BLEZ`: taken when `s32(x[rs]) <= 0` (R318). -/
def execBlez (rs : RegIdx) (imm : Imm16) (s : State) : Host.Outcome State Fault Refusal :=
  controlUnit (instrWord (.blez rs imm)) ((s.reg rs).toInt ≤ 0) (branchTarget s.pc imm) none s

/-- `BGTZ`: taken when `s32(x[rs]) > 0` (R319). -/
def execBgtz (rs : RegIdx) (imm : Imm16) (s : State) : Host.Outcome State Fault Refusal :=
  controlUnit (instrWord (.bgtz rs imm)) (0 < (s.reg rs).toInt) (branchTarget s.pc imm) none s

/-- `BLTZ`: taken when `x[rs][31] = 1` (R320). -/
def execBltz (rs : RegIdx) (imm : Imm16) (s : State) : Host.Outcome State Fault Refusal :=
  controlUnit (instrWord (.bltz rs imm)) (s.reg rs).msb (branchTarget s.pc imm) none s

/-- `BGEZ`: taken when `x[rs][31] = 0` (R321). -/
def execBgez (rs : RegIdx) (imm : Imm16) (s : State) : Host.Outcome State Fault Refusal :=
  controlUnit (instrWord (.bgez rs imm)) (!(s.reg rs).msb) (branchTarget s.pc imm) none s

/-- `BLTZAL`: taken when `x[rs][31] = 1`; `x[31] <- b + 8` either way (R322). -/
def execBltzal (rs : RegIdx) (imm : Imm16) (s : State) : Host.Outcome State Fault Refusal :=
  controlUnit (instrWord (.bltzal rs imm)) (s.reg rs).msb (branchTarget s.pc imm) (some 31#5) s

/-- `BGEZAL`: taken when `x[rs][31] = 0`; `x[31] <- b + 8` either way (R323). -/
def execBgezal (rs : RegIdx) (imm : Imm16) (s : State) : Host.Outcome State Fault Refusal :=
  controlUnit (instrWord (.bgezal rs imm)) (!(s.reg rs).msb) (branchTarget s.pc imm) (some 31#5) s

end Sys2Proof.Machine
end

