-- ==== Sys2Proof/Machine/Transition.lean ====
section
/-! DEFINITION. The moves of the block: the three dispatcher states (R184, R185, R187), a command taken from
the port, and the callback transaction's end (R160). One step of the machine is one of them. -/
namespace Sys2Proof.Machine

/-- `run` returns: `LIFE <- Ready`, the response `(C0 - CNT) - BUDGET` (R195). -/
def State.endRun (s : State) : State := { s with life := .ready, response := some (.value s.runResult) }

/-- Yield: return to the host when `CNT <= 0`, else Dispatch (R184). -/
def yieldMove (s : State) : State := if s.cnt.toInt ≤ 0 then s.endRun else { s with dstate := .dispatch }

/-- Entry into page `p`: translated if invalid, then Execute (R185). -/
def State.enterPage (s : State) (p : Nat) : State :=
  { (if s.pageValid p then s else s.translate p) with curPage := p, dstate := .execute }

/-- A fault raised in Dispatch, with `FAULT_PC = FAULT_ADDR = PC` (R380, R381). -/
def State.dispatchFault (s : State) (c : FaultCode) : State := s.faultStop c s.pc none (some s.pc) false

/-- Dispatch: `PC` to a page, translating if invalid (R185). -/
def dispatchMove (s : State) : State :=
  if s.pc.extractLsb' 0 2 ≠ 0#2 then s.dispatchFault .pcMisaligned
  else match resolve s.params s.pc with
    | .ram _ page => s.enterPage page
    | .scratch _ => s.dispatchFault .fetchUnmapped
    | .rom _ page => s.enterPage page
    | .unmapped => s.dispatchFault .fetchUnmapped

/-- A `RESERVED` word in Execute: `raise ReservedInstr(pc, instr = w)` (R355, R382). -/
def State.reservedFault (s : State) : State := s.faultStop .reservedInstr s.pc (some (fetchWord s)) none false

/-- Execute: the instruction, or the whole control-flow unit, at `PC` (R187). -/
def executeMove (s : State) : Host.Outcome State Fault Refusal :=
  match decodeGuest (fetchWord s) with
  | .instr i => exec i s
  | .reserved => .next s.reservedFault
  | .reservedCommand => .next s.reservedFault
  | .notOneWord => .next s.reservedFault

/-- A command on the port; a reserved code is refused (R125, R166). -/
def takeCommand (p : Packet) (s : State) : Host.Outcome State Fault Refusal :=
  match decodeCommand p with
  | .instr i => exec i s
  | .reserved => .next (s.refuse .refused)
  | .reservedCommand => .next (s.refuse .refused)
  | .notOneWord => .next (s.refuse .refused)

/-- The response arrives: `CNT <- counter'`, `IN_CALLBACK <- 0`, and the store completes (R160): `PC` and the
block boundary are as they would have been without the callback. -/
def State.adoptReply (s : State) (counter : Word) : State :=
  { s with
    cnt := counter
    inCallback := false
    pc := s.resumePc
    dstate := if s.resumeYield then .yield else s.dstate }

/-- A move of the callback's owner while the request is outstanding (R160, R161); with none queued it replies
any value (log 10). -/
def ownerMove (s : State) : Host.Outcome State Fault Refusal :=
  match s.owner with
  | [] => .next { s.adoptReply (Config.callbackReply s.draws) with draws := s.draws + 1 }
  | .reply c :: rest => .next { s.adoptReply c with owner := rest }
  | .command p :: rest => takeCommand p { s with owner := rest }

/-- A move of the host while the block is not Running; with no command the block does nothing (R396, R410). -/
def hostMove (s : State) : Host.Outcome State Fault Refusal :=
  match s.hostPort with
  | [] => .next s
  | p :: rest => takeCommand p { s with hostPort := rest }

/-- A move of the block inside `run` (R201). -/
def runMove (s : State) : Host.Outcome State Fault Refusal :=
  match s.dstate with
  | .yield => .next (yieldMove s)
  | .dispatch => .next (dispatchMove s)
  | .execute => executeMove s

/-- One move: of the host when the block is not Running, of the callback's owner when a request is
outstanding, else of the dispatcher (R165, R194). -/
def move (s : State) : Host.Outcome State Fault Refusal :=
  match s.life with
  | .uninitialized => hostMove s
  | .ready => hostMove s
  | .destroyed => hostMove s
  | .running => if s.inCallback then ownerMove s else runMove s

/-- The block inside `run`, in Execute, with the word `w` in the block store where it fetches (R186). -/
def State.placeWord (s : State) (w : Word) : State :=
  { s with
    life := .running
    dstate := .execute
    inCallback := false
    blk := sparsePut 0#32 s.blk (blkKey s.params s.curPage (slotIndex s.params s.pc)) w }

/-- The host about to issue the packet `p` to a block that is not Running (R165). -/
def State.placeCommand (s : State) (p : Packet) : State :=
  { s with
    life := if s.life = .running then .ready else s.life
    hostPort := p :: s.hostPort }

/-- What the machine runs next is the encoding `e`. -/
def State.placeEncoded (s : State) (e : Encoded) : State :=
  match e with
  | .word w => s.placeWord w
  | .packet p => s.placeCommand p

end Sys2Proof.Machine
end

