-- ==== Sys2Proof/Machine/Step.lean ====
section
/-! DEFINITION. One step of the machine, and the state in which a given instruction is the next it runs. -/
namespace Sys2Proof.Machine

/-- One step: one move (R6, R201). -/
def step (s : State) : Host.Outcome State Fault Refusal := move s

/-- `s` with the instruction of `nbits` bits `w` where the machine takes its next instruction: a guest word in
the block store at `BLK[CURPAGE][PC[PAGE_SHIFT-1:2]]` with the dispatcher in Execute, a command at the head of
the host's port (log 15, log 17). -/
def State.withFetchWord (s : State) (nbits w : Nat) : State := s.placeEncoded (encodedOfBits nbits w)

end Sys2Proof.Machine
end

