-- ==== Sys2Proof/Safety.lean ====
section
/-! DEFINITION. What counts as a safe state and a safe run, in the terms claims use: a run without a recorded
fault (R373), a validity table that keeps its promise (R89), a dispatcher inside its page (R186). -/
namespace Sys2Proof.Machine

/-- The block store's canonical form: one slot per page (R91). -/
abbrev State.blkWf (s : State) : Prop := sparseWf 0#32 (s.params.totalPages * s.params.pageInstrs) s.blk

/-- The validity table's canonical form: one flag per page (R33, R83). -/
abbrev State.validWf (s : State) : Prop := sparseWf false s.params.totalPages s.valid

/-- R89: whenever `VALID[p] = 1`, `BLK[p][i]` equals the word now at index `i` of the page's backing memory. -/
def State.blockCoherent (s : State) : Prop :=
  ∀ p < s.params.totalPages, s.pageValid p = true → ∀ i < s.params.pageInstrs, s.blkWord p i = s.pageWord p i

/-- The page index an address executes from: of RAM or ROM only (R66, R185). -/
def pageOf (c : Params) (a : Word) : Option Nat :=
  match resolve c a with
  | .ram _ page => some page
  | .scratch _ => none
  | .rom _ page => some page
  | .unmapped => none

/-- R186: throughout a stay in Execute, `PC` is aligned and stays inside the page Dispatch resolved. -/
def State.inPage (s : State) : Prop :=
  s.life = .running → s.dstate = .execute → s.pc.toNat % 4 = 0 ∧ pageOf s.params s.pc = some s.curPage

/-- While a store waits for its response and no boundary follows it, it goes on inside the same page (R160,
R187). -/
def State.resumeInPage (s : State) : Prop :=
  s.life = .running → s.inCallback = true → s.resumeYield = false →
    s.resumePc.toNat % 4 = 0 ∧ pageOf s.params s.resumePc = some s.curPage

/-- While the block is Ready or Running, a callback request is outstanding only inside `run`, in Execute (R160,
R165); before `init` and after `delete` the flag is unspecified (R40, R414). -/
def State.callbackInRun (s : State) : Prop :=
  s.life = .ready ∨ s.life = .running → s.inCallback = true → s.life = .running ∧ s.dstate = .execute

/-- No fault since the last accepted `run` began (R371, R373). -/
def State.faultFree (s : State) : Prop := s.faultCode = .none

/-- A step of the whole machine that goes on. -/
def stepsTo (s t : State) : Prop := step s = .next t

/-- The lifecycle's moves, a state to itself included (R31, R165). -/
def lifeMove : Life → Life → Bool
  | .uninitialized, .uninitialized => true
  | .uninitialized, .ready => true
  | .uninitialized, .running => false
  | .uninitialized, .destroyed => false
  | .ready, .uninitialized => false
  | .ready, .ready => true
  | .ready, .running => true
  | .ready, .destroyed => true
  | .running, .uninitialized => false
  | .running, .ready => true
  | .running, .running => true
  | .running, .destroyed => false
  | .destroyed, .uninitialized => false
  | .destroyed, .ready => false
  | .destroyed, .running => false
  | .destroyed, .destroyed => true

/-! ## The terms of the instructions' claims -/

/-- The state after an instruction of word `w` that only moves `PC` and is charged (R187, R188, R190 b). -/
def State.retired (s : State) (w : Word) : State :=
  { s with
    pc := s.pc + 4#32
    cnt := s.cnt - BitVec.ofNat 32 (s.params.cycleCost w)
    dstate := if slotIndex s.params (s.pc + 4#32) = 0 then .yield else s.dstate }

/-- The general registers of `t` are those of `s` but for `x[r] = v`; `x[0]` reads 0 and drops the write
(R21). -/
def wroteReg (s t : State) (r : RegIdx) (v : Word) : Prop :=
  ∀ q : RegIdx, t.reg q = if q = 0#5 then 0#32 else if q = r then v else s.reg q

/-- Every address reads as before. -/
def sameMemory (s t : State) : Prop := ∀ a : Word, t.readAddr a = s.readAddr a

/-- An instruction of word `w` completed that writes the general register `r` and nothing else. -/
def retiredWrite (s t : State) (w : Word) (r : RegIdx) (v : Word) : Prop :=
  t = { s.retired w with regs := t.regs } ∧ wroteReg s t r v ∧ sameMemory s t

/-- The `n` bytes from address `first` on hold `byte 0`, `byte 1`, …, through every alias; every other address
reads as before (R68, R72). -/
def storedBytes (s t : State) (first : Word) (n : Nat) (byte : Nat → Byte) : Prop :=
  ∀ a : Word,
    (∀ k < n, resolve s.params a = resolve s.params (first + BitVec.ofNat 32 k) → t.readAddr a = some (byte k)) ∧
    ((∀ k < n, resolve s.params a ≠ resolve s.params (first + BitVec.ofNat 32 k)) → t.readAddr a = s.readAddr a)

/-- Page `p` is invalid, every other page as it was (R77, R85). -/
def onlyInvalidated (s t : State) (p : Nat) : Prop := ∀ q : Nat, t.pageValid q = (s.pageValid q && q ≠ p)

/-- Byte `k` of a register, byte 0 its least significant (R71). -/
def regByte (v : Word) (k : Nat) : Byte := v.extractLsb' (8 * k) 8

/-- A store of `n` bytes of word `w` completed in RAM: those bytes, its page invalid, and nothing else. -/
def retiredRamStore (s t : State) (w : Word) (page : Nat) (first : Word) (n : Nat) (byte : Nat → Byte) : Prop :=
  t = { s.retired w with ram := t.ram, valid := t.valid } ∧ onlyInvalidated s t page ∧ storedBytes s t first n byte

/-- A store completed in the scratchpad: those bytes and nothing else (R78). -/
def retiredScratchStore (s t : State) (w : Word) (first : Word) (n : Nat) (byte : Nat → Byte) : Prop :=
  t = { s.retired w with scratch := t.scratch } ∧ storedBytes s t first n byte

/-- A store that waits for its callback: the request with the counter after the charge, and nothing else
(R80, R128, R160). -/
def awaitingCallback (s : State) (w : Word) (value address : Word) (kind : BitVec 3) : State :=
  { s with
    cnt := s.cnt - BitVec.ofNat 32 (s.params.cycleCost w)
    inCallback := true
    reqValue := value
    reqAddress := address
    reqCounter := s.cnt - BitVec.ofNat 32 (s.params.cycleCost w)
    reqKind := kind
    resumePc := s.pc + 4#32
    resumeYield := slotIndex s.params (s.pc + 4#32) = 0 }

/-- `t` is the fault stop of `s` with code `c`, at `PC`, with the word and the address where the spec gives
them; `run` has returned, and nothing else changed but the model's draw counter (R195, R372). -/
def stoppedAt (s t : State) (c : FaultCode) (instr addr : Option Word) (bd : Bool) : Prop :=
  t = { s with
        faultCode := c
        faultPc := s.pc
        faultInstr := t.faultInstr
        faultAddr := t.faultAddr
        faultBd := bd
        life := .ready
        response := some (.value (s.c0 - s.cnt - s.budget))
        draws := t.draws } ∧
    (∀ w, instr = some w → t.faultInstr = w) ∧ (∀ a, addr = some a → t.faultAddr = a) ∧ sameMemory s t

/-- Where a control-flow unit at `PC` goes (R312 to R323). -/
def unitTarget (s : State) : Instr → Word
  | .j target => ((s.pc + 4#32).extractLsb' 28 4 ++ target ++ 0#2 : BitVec 32)
  | .jal target => ((s.pc + 4#32).extractLsb' 28 4 ++ target ++ 0#2 : BitVec 32)
  | .jr rs => s.reg rs
  | .jalr _ rs => s.reg rs
  | .beq rs rt imm => if s.reg rs = s.reg rt then s.pc + 4#32 + imm.signExtend 32 * 4#32 else s.pc + 8#32
  | .bne rs rt imm => if s.reg rs ≠ s.reg rt then s.pc + 4#32 + imm.signExtend 32 * 4#32 else s.pc + 8#32
  | .blez rs imm => if (s.reg rs).toInt ≤ 0 then s.pc + 4#32 + imm.signExtend 32 * 4#32 else s.pc + 8#32
  | .bgtz rs imm => if 0 < (s.reg rs).toInt then s.pc + 4#32 + imm.signExtend 32 * 4#32 else s.pc + 8#32
  | .bltz rs imm => if (s.reg rs).toInt < 0 then s.pc + 4#32 + imm.signExtend 32 * 4#32 else s.pc + 8#32
  | .bgez rs imm => if 0 ≤ (s.reg rs).toInt then s.pc + 4#32 + imm.signExtend 32 * 4#32 else s.pc + 8#32
  | .bltzal rs imm => if (s.reg rs).toInt < 0 then s.pc + 4#32 + imm.signExtend 32 * 4#32 else s.pc + 8#32
  | .bgezal rs imm => if 0 ≤ (s.reg rs).toInt then s.pc + 4#32 + imm.signExtend 32 * 4#32 else s.pc + 8#32
  | _ => s.pc + 4#32

/-- The register a control-flow instruction links (R313, R315, R322, R323). -/
def linkRegister : Instr → Option RegIdx
  | .jal _ => some 31#5
  | .jalr rd _ => some rd
  | .bltzal _ _ => some 31#5
  | .bgezal _ _ => some 31#5
  | _ => none

/-- The state in which the slot of the control-flow instruction `i` executes: `i` charged, its link written
(R310 steps 4 and 5). -/
def slotEntry (i : Instr) (s : State) : State := (s.charge (instrWord i)).link (linkRegister i)

/-- A control-flow unit of word `w` with a `NOP` in its slot completed: both charged, `PC` at `next`, the block
ended, nothing else changed but what is said of the registers beside it (R190 a, R191, R310). -/
def unitWithNop (s t : State) (w next : Word) : Prop :=
  t = { s with
        regs := t.regs
        pc := next
        cnt := s.cnt - BitVec.ofNat 32 (s.params.cycleCost w) - BitVec.ofNat 32 (s.params.cycleCost 0#32)
        dstate := .yield } ∧ sameMemory s t

/-- The table of R165: whether the block takes the command in this state, operands apart. -/
def tableAccepts (s : State) : Instr → Bool
  | .init => s.life = .uninitialized
  | .delete => s.life = .ready
  | .setPc _ => s.life = .ready
  | .setNextEvent _ => s.life = .ready
  | .run _ => s.life = .ready
  | .setReg _ _ => s.life = .ready
  | .resolve _ => s.life = .ready || (s.life = .running && s.inCallback)
  | .isValid _ => s.life = .ready || (s.life = .running && s.inCallback)
  | .invalidate _ => s.life = .ready || (s.life = .running && s.inCallback)
  | .extWrite _ _ _ => s.life = .ready || (s.life = .running && s.inCallback)
  | .getState sel =>
    s.life = .ready || (s.life = .running && s.inCallback)
      || (sel = 41#6 && (s.life = .uninitialized || s.life = .destroyed))
  | _ => false

/-- What a refused command leaves (R166, R390): the answer, `InvalidState` where a command could be taken at
all, nothing else. -/
def refusedState (s : State) (answer : Response) : State :=
  { s with
    faultCode := if s.life = .ready ∨ s.life = .running ∧ s.inCallback = true then .invalidState else s.faultCode
    response := some answer }

end Sys2Proof.Machine
end

