-- ==== Sys2Proof/Certificates/Slice0/Obligations.lean ====
section
/-! DEFINITION. What is stated of the model, for the provers. Every statement is a sentence of the numbered
rules of spec/, for every state and every operand that meet its hypotheses. -/
section ObligationsOfSlice0
open Sys2Proof Sys2Proof.Machine

/-! ## Encoding -/

/-- The decoder reads every encoded instruction back, with every operand (R111 to R116, R125). -/
def Obligations.DecodeOfEncode : Prop := ∀ i : Instr, decode (encode i) = .instr i

/-- A word has one meaning: what a word decodes to encodes to that word (R116, R117). -/
def Obligations.EncodeOfDecode : Prop := ∀ (w : Word) (i : Instr), decodeGuest w = .instr i → encode i = .word w

/-- The eight worked encodings of R124. -/
def Obligations.WorkedEncodings : Prop :=
  decodeGuest 0x2408000A#32 = .instr (.addiu 8#5 0#5 10#16) ∧
  decodeGuest 0x01284821#32 = .instr (.addu 9#5 9#5 8#5) ∧
  decodeGuest 0x1500FFFD#32 = .instr (.bne 8#5 0#5 0xFFFD#16) ∧
  decodeGuest 0x08000000#32 = .instr (.j 0#26) ∧
  decodeGuest 0xAE090100#32 = .instr (.sw 9#5 16#5 0x100#16) ∧
  decodeGuest 0x3C108001#32 = .instr (.lui 16#5 0x8001#16) ∧
  decodeGuest 0x03E00008#32 = .instr (.jr 31#5) ∧
  decodeGuest 0x0000000C#32 = .instr (.syscall 0#20)

/-- The unassigned entries of the primary, SPECIAL and REGIMM maps are `RESERVED`, whatever the other bits
(R113 to R115, R119). -/
def Obligations.UnassignedEntriesReserved : Prop :=
  ∀ w : Word,
    ((opField w).toNat ∈ [0x14, 0x15, 0x16, 0x17, 0x18, 0x19, 0x1A, 0x1B, 0x1C, 0x1D, 0x1E, 0x1F, 0x27, 0x2C,
        0x2D, 0x2F, 0x34, 0x35, 0x36, 0x37, 0x3C, 0x3D, 0x3E, 0x3F] → decodeGuest w = .reserved) ∧
    (opField w = 0#6 →
      (functField w).toNat ∉ [0x00, 0x02, 0x03, 0x04, 0x06, 0x07, 0x08, 0x09, 0x0C, 0x0D, 0x10, 0x11, 0x12, 0x13,
        0x18, 0x19, 0x1A, 0x1B, 0x20, 0x21, 0x22, 0x23, 0x24, 0x25, 0x26, 0x27, 0x2A, 0x2B] →
      decodeGuest w = .reserved) ∧
    (opField w = 1#6 → (rtField w).toNat ∉ [0x00, 0x01, 0x10, 0x11] → decodeGuest w = .reserved)

/-- A non-zero must-be-zero field makes the word `RESERVED` (R116). -/
def Obligations.MustBeZeroFieldsStrict : Prop :=
  ∀ w : Word,
    (opField w = 0#6 →
      ((functField w).toNat ∈ [0x00, 0x02, 0x03] → rsField w ≠ 0#5 → decodeGuest w = .reserved) ∧
      ((functField w).toNat ∈ [0x04, 0x06, 0x07, 0x20, 0x21, 0x22, 0x23, 0x24, 0x25, 0x26, 0x27, 0x2A, 0x2B] →
        shamtField w ≠ 0#5 → decodeGuest w = .reserved) ∧
      ((functField w).toNat ∈ [0x08, 0x11, 0x13] → rtField w ≠ 0#5 ∨ rdField w ≠ 0#5 ∨ shamtField w ≠ 0#5 →
        decodeGuest w = .reserved) ∧
      (functField w = 0x09#6 → rtField w ≠ 0#5 ∨ shamtField w ≠ 0#5 → decodeGuest w = .reserved) ∧
      ((functField w).toNat ∈ [0x10, 0x12] → rsField w ≠ 0#5 ∨ rtField w ≠ 0#5 ∨ shamtField w ≠ 0#5 →
        decodeGuest w = .reserved) ∧
      ((functField w).toNat ∈ [0x18, 0x19, 0x1A, 0x1B] → rdField w ≠ 0#5 ∨ shamtField w ≠ 0#5 →
        decodeGuest w = .reserved)) ∧
    (opField w = 0x0F#6 → rsField w ≠ 0#5 → decodeGuest w = .reserved) ∧
    (opField w = 0x06#6 ∨ opField w = 0x07#6 → rtField w ≠ 0#5 → decodeGuest w = .reserved)

/-! ## A step -/

/-- A step runs the decoded instruction: in Execute the one at `PC`, else the command the host, or inside a
callback its owner, issues; a command leaves its port first (R154, R161, R165, R186). The two ports are the model's own
fields (logs 10, 11). -/
def Obligations.StepRunsDecoded : Prop :=
  ∀ (s : State) (i : Instr),
    (s.life = .running → s.inCallback = false → s.dstate = .execute → decodeGuest (fetchWord s) = .instr i →
      step s = exec i s) ∧
    (∀ p rest, s.life ≠ .running → s.hostPort = p :: rest → decodeCommand p = .instr i →
      step s = exec i { s with hostPort := rest }) ∧
    (∀ p rest, s.life = .running → s.inCallback = true → s.owner = .command p :: rest →
      decodeCommand p = .instr i → step s = exec i { s with owner := rest })

/-- A `RESERVED` word in Execute is the fault `ReservedInstr` (R355, R382). -/
def Obligations.ReservedWordStops : Prop :=
  ∀ s : State, s.life = .running → s.inCallback = false → s.dstate = .execute →
    decodeGuest (fetchWord s) = .reserved →
    ∃ t, step s = .next t ∧ stoppedAt s t .reservedInstr (some (fetchWord s)) none false

/-- `x[0]` reads 0 and drops writes, the host's too (R21, R163). -/
def Obligations.RegisterZero : Prop :=
  ∀ (s : State) (v : Word), s.reg 0#5 = 0#32 ∧ (∀ r, (s.setReg r v).reg 0#5 = 0#32) ∧ s.setReg 0#5 v = s ∧
    (s.life = .ready → exec (.setReg 0#6 v) s = .next { s with response := some .ack })

/-! ## Arithmetic, logic, comparison, shifts -/

/-- The immediate instructions that do not trap (R223 to R229). -/
def Obligations.ImmediateResults : Prop :=
  ∀ (s : State) (rt rs : RegIdx) (imm : Imm16),
    (∃ t, exec (.addiu rt rs imm) s = .next t ∧
      retiredWrite s t (instrWord (.addiu rt rs imm)) rt (s.reg rs + imm.signExtend 32)) ∧
    (∃ t, exec (.slti rt rs imm) s = .next t ∧
      retiredWrite s t (instrWord (.slti rt rs imm)) rt (if (s.reg rs).toInt < imm.toInt then 1#32 else 0#32)) ∧
    (∃ t, exec (.sltiu rt rs imm) s = .next t ∧
      retiredWrite s t (instrWord (.sltiu rt rs imm)) rt
        (if (s.reg rs).toNat < (imm.signExtend 32).toNat then 1#32 else 0#32)) ∧
    (∃ t, exec (.andi rt rs imm) s = .next t ∧
      retiredWrite s t (instrWord (.andi rt rs imm)) rt (s.reg rs &&& imm.zeroExtend 32)) ∧
    (∃ t, exec (.ori rt rs imm) s = .next t ∧
      retiredWrite s t (instrWord (.ori rt rs imm)) rt (s.reg rs ||| imm.zeroExtend 32)) ∧
    (∃ t, exec (.xori rt rs imm) s = .next t ∧
      retiredWrite s t (instrWord (.xori rt rs imm)) rt (s.reg rs ^^^ imm.zeroExtend 32)) ∧
    (∃ t, exec (.lui rt imm) s = .next t ∧
      retiredWrite s t (instrWord (.lui rt imm)) rt (imm ++ 0#16 : BitVec 32))

/-- The three-register instructions that do not trap (R231, R233 to R239). -/
def Obligations.RegisterResults : Prop :=
  ∀ (s : State) (rd rs rt : RegIdx),
    (∃ t, exec (.addu rd rs rt) s = .next t ∧
      retiredWrite s t (instrWord (.addu rd rs rt)) rd (s.reg rs + s.reg rt)) ∧
    (∃ t, exec (.subu rd rs rt) s = .next t ∧
      retiredWrite s t (instrWord (.subu rd rs rt)) rd (s.reg rs - s.reg rt)) ∧
    (∃ t, exec (.and rd rs rt) s = .next t ∧
      retiredWrite s t (instrWord (.and rd rs rt)) rd (s.reg rs &&& s.reg rt)) ∧
    (∃ t, exec (.or rd rs rt) s = .next t ∧
      retiredWrite s t (instrWord (.or rd rs rt)) rd (s.reg rs ||| s.reg rt)) ∧
    (∃ t, exec (.xor rd rs rt) s = .next t ∧
      retiredWrite s t (instrWord (.xor rd rs rt)) rd (s.reg rs ^^^ s.reg rt)) ∧
    (∃ t, exec (.nor rd rs rt) s = .next t ∧
      retiredWrite s t (instrWord (.nor rd rs rt)) rd (~~~(s.reg rs ||| s.reg rt))) ∧
    (∃ t, exec (.slt rd rs rt) s = .next t ∧
      retiredWrite s t (instrWord (.slt rd rs rt)) rd
        (if (s.reg rs).toInt < (s.reg rt).toInt then 1#32 else 0#32)) ∧
    (∃ t, exec (.sltu rd rs rt) s = .next t ∧
      retiredWrite s t (instrWord (.sltu rd rs rt)) rd
        (if (s.reg rs).toNat < (s.reg rt).toNat then 1#32 else 0#32))

/-- The shifts; a register amount counts modulo 32 (R240 to R245). -/
def Obligations.ShiftResults : Prop :=
  ∀ (s : State) (rd rt rs : RegIdx) (sh : BitVec 5),
    (∃ t, exec (.sll rd rt sh) s = .next t ∧
      retiredWrite s t (instrWord (.sll rd rt sh)) rd (s.reg rt <<< sh.toNat)) ∧
    (∃ t, exec (.srl rd rt sh) s = .next t ∧
      retiredWrite s t (instrWord (.srl rd rt sh)) rd (s.reg rt >>> sh.toNat)) ∧
    (∃ t, exec (.sra rd rt sh) s = .next t ∧
      retiredWrite s t (instrWord (.sra rd rt sh)) rd ((s.reg rt).sshiftRight sh.toNat)) ∧
    (∃ t, exec (.sllv rd rt rs) s = .next t ∧
      retiredWrite s t (instrWord (.sllv rd rt rs)) rd (s.reg rt <<< ((s.reg rs).toNat % 32))) ∧
    (∃ t, exec (.srlv rd rt rs) s = .next t ∧
      retiredWrite s t (instrWord (.srlv rd rt rs)) rd (s.reg rt >>> ((s.reg rs).toNat % 32))) ∧
    (∃ t, exec (.srav rd rt rs) s = .next t ∧
      retiredWrite s t (instrWord (.srav rd rt rs)) rd ((s.reg rt).sshiftRight ((s.reg rs).toNat % 32)))

/-- `ADDI`, `ADD` and `SUB` write the true signed result when it fits in 32 bits (R221, R222, R230, R232). -/
def Obligations.TrappingResults : Prop :=
  ∀ (s : State) (rd rs rt : RegIdx) (imm : Imm16) (v : Word),
    (v.toInt = (s.reg rs).toInt + imm.toInt →
      ∃ t, exec (.addi rt rs imm) s = .next t ∧ retiredWrite s t (instrWord (.addi rt rs imm)) rt v) ∧
    (v.toInt = (s.reg rs).toInt + (s.reg rt).toInt →
      ∃ t, exec (.add rd rs rt) s = .next t ∧ retiredWrite s t (instrWord (.add rd rs rt)) rd v) ∧
    (v.toInt = (s.reg rs).toInt - (s.reg rt).toInt →
      ∃ t, exec (.sub rd rs rt) s = .next t ∧ retiredWrite s t (instrWord (.sub rd rs rt)) rd v)

/-- `ADDI`, `ADD` and `SUB` raise `Overflow` when the true signed result does not fit in 32 bits, whatever the
destination (R221, R386). -/
def Obligations.TrappingOverflows : Prop :=
  ∀ (s : State) (rd rs rt : RegIdx) (imm : Imm16),
    ((∀ v : Word, v.toInt ≠ (s.reg rs).toInt + imm.toInt) →
      ∃ t, exec (.addi rt rs imm) s = .next t ∧
        stoppedAt s t .overflow (some (instrWord (.addi rt rs imm))) none false) ∧
    ((∀ v : Word, v.toInt ≠ (s.reg rs).toInt + (s.reg rt).toInt) →
      ∃ t, exec (.add rd rs rt) s = .next t ∧
        stoppedAt s t .overflow (some (instrWord (.add rd rs rt))) none false) ∧
    ((∀ v : Word, v.toInt ≠ (s.reg rs).toInt - (s.reg rt).toInt) →
      ∃ t, exec (.sub rd rs rt) s = .next t ∧
        stoppedAt s t .overflow (some (instrWord (.sub rd rs rt))) none false)

/-! ## Multiply, divide, `HI` and `LO` -/

/-- `MULT` and `MULTU` leave the exact 64-bit product in `HI` and `LO` (R261, R262). -/
def Obligations.MultiplyResults : Prop :=
  ∀ (s : State) (rs rt : RegIdx),
    (∃ t, exec (.mult rs rt) s = .next t ∧
      t = { s.retired (instrWord (.mult rs rt)) with hi := t.hi, lo := t.lo } ∧ sameMemory s t ∧
      (t.hi ++ t.lo : BitVec 64).toInt = (s.reg rs).toInt * (s.reg rt).toInt) ∧
    (∃ t, exec (.multu rs rt) s = .next t ∧
      t = { s.retired (instrWord (.multu rs rt)) with hi := t.hi, lo := t.lo } ∧ sameMemory s t ∧
      (t.hi ++ t.lo : BitVec 64).toNat = (s.reg rs).toNat * (s.reg rt).toNat)

/-- `DIV` and `DIVU` where the spec gives a result: the quotient toward zero in `LO`, the remainder, of the
dividend's sign and smaller than the divisor, in `HI` (R263, R264). -/
def Obligations.DivideResults : Prop :=
  ∀ (s : State) (rs rt : RegIdx),
    (s.reg rt ≠ 0#32 → ¬(s.reg rs = 0x80000000#32 ∧ s.reg rt = 0xFFFFFFFF#32) →
      ∃ t, exec (.div rs rt) s = .next t ∧
        t = { s.retired (instrWord (.div rs rt)) with hi := t.hi, lo := t.lo } ∧ sameMemory s t ∧
        t.lo.toInt = (s.reg rs).toInt.tdiv (s.reg rt).toInt ∧
        t.hi.toInt = (s.reg rs).toInt - t.lo.toInt * (s.reg rt).toInt ∧
        t.hi.toInt.natAbs < (s.reg rt).toInt.natAbs ∧ 0 ≤ t.hi.toInt * (s.reg rs).toInt) ∧
    (s.reg rt ≠ 0#32 →
      ∃ t, exec (.divu rs rt) s = .next t ∧
        t = { s.retired (instrWord (.divu rs rt)) with hi := t.hi, lo := t.lo } ∧ sameMemory s t ∧
        t.lo.toNat = (s.reg rs).toNat / (s.reg rt).toNat ∧ t.hi.toNat = (s.reg rs).toNat % (s.reg rt).toNat)

/-- Where the spec leaves `HI` and `LO` any value, the division completes all the same and changes nothing else
of the spec's state (R263, R264, R269). The model's draw counter moves (log 8). -/
def Obligations.DivideOpen : Prop :=
  ∀ (s : State) (rs rt : RegIdx),
    (s.reg rt = 0#32 ∨ s.reg rs = 0x80000000#32 ∧ s.reg rt = 0xFFFFFFFF#32 →
      ∃ t, exec (.div rs rt) s = .next t ∧ sameMemory s t ∧
        t = { s.retired (instrWord (.div rs rt)) with hi := t.hi, lo := t.lo, draws := t.draws }) ∧
    (s.reg rt = 0#32 →
      ∃ t, exec (.divu rs rt) s = .next t ∧ sameMemory s t ∧
        t = { s.retired (instrWord (.divu rs rt)) with hi := t.hi, lo := t.lo, draws := t.draws })

/-- The moves to and from `HI` and `LO` (R265 to R268). -/
def Obligations.HiLoMoves : Prop :=
  ∀ (s : State) (r : RegIdx),
    (∃ t, exec (.mfhi r) s = .next t ∧ retiredWrite s t (instrWord (.mfhi r)) r s.hi) ∧
    (∃ t, exec (.mflo r) s = .next t ∧ retiredWrite s t (instrWord (.mflo r)) r s.lo) ∧
    (∃ t, exec (.mthi r) s = .next t ∧ t = { s.retired (instrWord (.mthi r)) with hi := s.reg r } ∧
      sameMemory s t) ∧
    (∃ t, exec (.mtlo r) s = .next t ∧ t = { s.retired (instrWord (.mtlo r)) with lo := s.reg r } ∧
      sameMemory s t)

/-! ## Loads -/

/-- A load of mapped bytes, aligned for its size, leaves them in `rt`, least significant byte at the lowest
address, extended as the instruction says (R72, R73, R283, R284, R286 to R288). -/
def Obligations.MappedLoads : Prop :=
  ∀ (s : State) (rt rs : RegIdx) (imm : Imm16) (b0 b1 b2 b3 : Byte), s.params.Legal →
    s.readAddr (s.reg rs + imm.signExtend 32) = some b0 →
    (∃ t, exec (.lb rt rs imm) s = .next t ∧
      retiredWrite s t (instrWord (.lb rt rs imm)) rt (b0.signExtend 32)) ∧
    (∃ t, exec (.lbu rt rs imm) s = .next t ∧
      retiredWrite s t (instrWord (.lbu rt rs imm)) rt (b0.zeroExtend 32)) ∧
    (s.readAddr (s.reg rs + imm.signExtend 32 + 1#32) = some b1 →
      (s.reg rs + imm.signExtend 32).toNat % 2 = 0 →
      (∃ t, exec (.lh rt rs imm) s = .next t ∧
        retiredWrite s t (instrWord (.lh rt rs imm)) rt ((b1 ++ b0 : BitVec 16).signExtend 32)) ∧
      (∃ t, exec (.lhu rt rs imm) s = .next t ∧
        retiredWrite s t (instrWord (.lhu rt rs imm)) rt ((b1 ++ b0 : BitVec 16).zeroExtend 32))) ∧
    (s.readAddr (s.reg rs + imm.signExtend 32 + 1#32) = some b1 →
      s.readAddr (s.reg rs + imm.signExtend 32 + 2#32) = some b2 →
      s.readAddr (s.reg rs + imm.signExtend 32 + 3#32) = some b3 →
      (s.reg rs + imm.signExtend 32).toNat % 4 = 0 →
      ∃ t, exec (.lw rt rs imm) s = .next t ∧
        retiredWrite s t (instrWord (.lw rt rs imm)) rt (b3 ++ b2 ++ b1 ++ b0 : BitVec 32))

/-- A load from an unmapped address completes: `rt` takes some value of the load's width, extended or merged
as the instruction says, and nothing else changes but the model's draw counter (R74, R281 d, log 7). -/
def Obligations.UnmappedLoads : Prop :=
  ∀ (s : State) (rt rs : RegIdx) (imm : Imm16), s.params.Legal →
    resolve s.params (s.reg rs + imm.signExtend 32) = .unmapped →
    (∃ (v : Byte) (t : State), exec (.lb rt rs imm) s = .next t ∧
      retiredWrite { s with draws := t.draws } t (instrWord (.lb rt rs imm)) rt (v.signExtend 32)) ∧
    (∃ (v : Byte) (t : State), exec (.lbu rt rs imm) s = .next t ∧
      retiredWrite { s with draws := t.draws } t (instrWord (.lbu rt rs imm)) rt (v.zeroExtend 32)) ∧
    ((s.reg rs + imm.signExtend 32).toNat % 2 = 0 →
      (∃ (v : BitVec 16) (t : State), exec (.lh rt rs imm) s = .next t ∧
        retiredWrite { s with draws := t.draws } t (instrWord (.lh rt rs imm)) rt (v.signExtend 32)) ∧
      (∃ (v : BitVec 16) (t : State), exec (.lhu rt rs imm) s = .next t ∧
        retiredWrite { s with draws := t.draws } t (instrWord (.lhu rt rs imm)) rt (v.zeroExtend 32))) ∧
    ((s.reg rs + imm.signExtend 32).toNat % 4 = 0 →
      ∃ (v : Word) (t : State), exec (.lw rt rs imm) s = .next t ∧
        retiredWrite { s with draws := t.draws } t (instrWord (.lw rt rs imm)) rt v) ∧
    (∃ (v : Word) (t : State), exec (.lwl rt rs imm) s = .next t ∧
      retiredWrite { s with draws := t.draws } t (instrWord (.lwl rt rs imm)) rt
        (mergeLoadLeft (byteInWord (s.reg rs + imm.signExtend 32)) v (s.reg rt))) ∧
    (∃ (v : Word) (t : State), exec (.lwr rt rs imm) s = .next t ∧
      retiredWrite { s with draws := t.draws } t (instrWord (.lwr rt rs imm)) rt
        (mergeLoadRight (byteInWord (s.reg rs + imm.signExtend 32)) v (s.reg rt)))

/-- A misaligned halfword or word load raises `AddrLoad` and reads nothing, mapped or not (R75, R387). -/
def Obligations.MisalignedLoads : Prop :=
  ∀ (s : State) (rt rs : RegIdx) (imm : Imm16),
    ((s.reg rs + imm.signExtend 32).toNat % 2 ≠ 0 →
      (∃ t, exec (.lh rt rs imm) s = .next t ∧
        stoppedAt s t .addrLoad (some (instrWord (.lh rt rs imm))) (some (s.reg rs + imm.signExtend 32)) false) ∧
      (∃ t, exec (.lhu rt rs imm) s = .next t ∧
        stoppedAt s t .addrLoad (some (instrWord (.lhu rt rs imm))) (some (s.reg rs + imm.signExtend 32)) false)) ∧
    ((s.reg rs + imm.signExtend 32).toNat % 4 ≠ 0 →
      ∃ t, exec (.lw rt rs imm) s = .next t ∧
        stoppedAt s t .addrLoad (some (instrWord (.lw rt rs imm))) (some (s.reg rs + imm.signExtend 32)) false)

/-- `LWL` and `LWR` merge the bytes of the aligned word into the old `rt` by the tables of R285 and R289. -/
def Obligations.PartialLoads : Prop :=
  ∀ (s : State) (rt rs : RegIdx) (imm : Imm16) (b0 b1 b2 b3 : Byte), s.params.Legal →
    s.readAddr ((s.reg rs + imm.signExtend 32) &&& 0xFFFFFFFC#32) = some b0 →
    s.readAddr (((s.reg rs + imm.signExtend 32) &&& 0xFFFFFFFC#32) + 1#32) = some b1 →
    s.readAddr (((s.reg rs + imm.signExtend 32) &&& 0xFFFFFFFC#32) + 2#32) = some b2 →
    s.readAddr (((s.reg rs + imm.signExtend 32) &&& 0xFFFFFFFC#32) + 3#32) = some b3 →
    (∃ t, exec (.lwl rt rs imm) s = .next t ∧
      retiredWrite s t (instrWord (.lwl rt rs imm)) rt
        (if (s.reg rs + imm.signExtend 32).toNat % 4 = 0 then
          s.reg rt &&& 0x00FFFFFF#32 ||| (b3 ++ b2 ++ b1 ++ b0 : BitVec 32) <<< 24
        else if (s.reg rs + imm.signExtend 32).toNat % 4 = 1 then
          s.reg rt &&& 0x0000FFFF#32 ||| (b3 ++ b2 ++ b1 ++ b0 : BitVec 32) <<< 16
        else if (s.reg rs + imm.signExtend 32).toNat % 4 = 2 then
          s.reg rt &&& 0x000000FF#32 ||| (b3 ++ b2 ++ b1 ++ b0 : BitVec 32) <<< 8
        else (b3 ++ b2 ++ b1 ++ b0 : BitVec 32))) ∧
    (∃ t, exec (.lwr rt rs imm) s = .next t ∧
      retiredWrite s t (instrWord (.lwr rt rs imm)) rt
        (if (s.reg rs + imm.signExtend 32).toNat % 4 = 0 then (b3 ++ b2 ++ b1 ++ b0 : BitVec 32)
        else if (s.reg rs + imm.signExtend 32).toNat % 4 = 1 then
          s.reg rt &&& 0xFF000000#32 ||| (b3 ++ b2 ++ b1 ++ b0 : BitVec 32) >>> 8
        else if (s.reg rs + imm.signExtend 32).toNat % 4 = 2 then
          s.reg rt &&& 0xFFFF0000#32 ||| (b3 ++ b2 ++ b1 ++ b0 : BitVec 32) >>> 16
        else s.reg rt &&& 0xFFFFFF00#32 ||| (b3 ++ b2 ++ b1 ++ b0 : BitVec 32) >>> 24))

/-- `lwr rt, 0(rs)` then `lwl rt, 3(rs)` loads the word at `x[rs]`, aligned or not (R289). -/
def Obligations.UnalignedWordLoad : Prop :=
  ∀ (s : State) (rt rs : RegIdx) (b0 b1 b2 b3 : Byte), s.params.Legal → rt ≠ 0#5 → rt ≠ rs →
    s.readAddr (s.reg rs) = some b0 → s.readAddr (s.reg rs + 1#32) = some b1 →
    s.readAddr (s.reg rs + 2#32) = some b2 → s.readAddr (s.reg rs + 3#32) = some b3 →
    ∃ t u, exec (.lwr rt rs 0#16) s = .next t ∧ exec (.lwl rt rs 3#16) t = .next u ∧
      u.reg rt = (b3 ++ b2 ++ b1 ++ b0 : BitVec 32) ∧ (∀ q, q ≠ rt → u.reg q = s.reg q) ∧ sameMemory s u

/-! ## Stores -/

/-- A store to RAM, aligned for its size, writes the low bytes of `rt`, low byte first, and invalidates the
page, whether or not anything changed (R72, R77, R290, R291, R293). -/
def Obligations.RamStores : Prop :=
  ∀ (s : State) (rt rs : RegIdx) (imm : Imm16) (off page : Nat), s.params.Legal →
    resolve s.params (s.reg rs + imm.signExtend 32) = .ram off page →
    (∃ t, exec (.sb rt rs imm) s = .next t ∧
      retiredRamStore s t (instrWord (.sb rt rs imm)) page (s.reg rs + imm.signExtend 32) 1 (regByte (s.reg rt))) ∧
    ((s.reg rs + imm.signExtend 32).toNat % 2 = 0 →
      ∃ t, exec (.sh rt rs imm) s = .next t ∧
        retiredRamStore s t (instrWord (.sh rt rs imm)) page (s.reg rs + imm.signExtend 32) 2
          (regByte (s.reg rt))) ∧
    ((s.reg rs + imm.signExtend 32).toNat % 4 = 0 →
      ∃ t, exec (.sw rt rs imm) s = .next t ∧
        retiredRamStore s t (instrWord (.sw rt rs imm)) page (s.reg rs + imm.signExtend 32) 4
          (regByte (s.reg rt)))

/-- A store to the scratchpad writes its bytes and invalidates nothing (R78, R290, R291, R293). -/
def Obligations.ScratchpadStores : Prop :=
  ∀ (s : State) (rt rs : RegIdx) (imm : Imm16) (off : Nat), s.params.Legal →
    resolve s.params (s.reg rs + imm.signExtend 32) = .scratch off →
    (∃ t, exec (.sb rt rs imm) s = .next t ∧
      retiredScratchStore s t (instrWord (.sb rt rs imm)) (s.reg rs + imm.signExtend 32) 1 (regByte (s.reg rt))) ∧
    ((s.reg rs + imm.signExtend 32).toNat % 2 = 0 →
      ∃ t, exec (.sh rt rs imm) s = .next t ∧
        retiredScratchStore s t (instrWord (.sh rt rs imm)) (s.reg rs + imm.signExtend 32) 2
          (regByte (s.reg rt))) ∧
    ((s.reg rs + imm.signExtend 32).toNat % 4 = 0 →
      ∃ t, exec (.sw rt rs imm) s = .next t ∧
        retiredScratchStore s t (instrWord (.sw rt rs imm)) (s.reg rs + imm.signExtend 32) 4
          (regByte (s.reg rt)))

/-- `SWL` writes the most significant bytes of `rt` from the aligned word's first byte up to `ea`; `SWR` the
least significant ones from `ea` to the word's last byte (R292, R294). -/
def Obligations.PartialStores : Prop :=
  ∀ (s : State) (rt rs : RegIdx) (imm : Imm16), s.params.Legal →
    (∀ off page, resolve s.params (s.reg rs + imm.signExtend 32) = .ram off page →
      (∃ t, exec (.swl rt rs imm) s = .next t ∧
        retiredRamStore s t (instrWord (.swl rt rs imm)) page
          ((s.reg rs + imm.signExtend 32) &&& 0xFFFFFFFC#32) ((s.reg rs + imm.signExtend 32).toNat % 4 + 1)
          (fun k => regByte (s.reg rt) (3 - (s.reg rs + imm.signExtend 32).toNat % 4 + k))) ∧
      (∃ t, exec (.swr rt rs imm) s = .next t ∧
        retiredRamStore s t (instrWord (.swr rt rs imm)) page (s.reg rs + imm.signExtend 32)
          (4 - (s.reg rs + imm.signExtend 32).toNat % 4) (regByte (s.reg rt)))) ∧
    (∀ off, resolve s.params (s.reg rs + imm.signExtend 32) = .scratch off →
      (∃ t, exec (.swl rt rs imm) s = .next t ∧
        retiredScratchStore s t (instrWord (.swl rt rs imm))
          ((s.reg rs + imm.signExtend 32) &&& 0xFFFFFFFC#32) ((s.reg rs + imm.signExtend 32).toNat % 4 + 1)
          (fun k => regByte (s.reg rt) (3 - (s.reg rs + imm.signExtend 32).toNat % 4 + k))) ∧
      (∃ t, exec (.swr rt rs imm) s = .next t ∧
        retiredScratchStore s t (instrWord (.swr rt rs imm)) (s.reg rs + imm.signExtend 32)
          (4 - (s.reg rs + imm.signExtend 32).toNat % 4) (regByte (s.reg rt))))

/-- A store to ROM or to an unmapped address is handed to the callback once, with the whole register and the
address as computed and the code of its kind, and changes no memory and no validity bit (R79, R80, R128,
R160). The two fields that keep where execution goes on are the model's form (log 10). -/
def Obligations.CallbackStores : Prop :=
  ∀ (s : State) (rt rs : RegIdx) (imm : Imm16),
    (resolve s.params (s.reg rs + imm.signExtend 32) = .unmapped ∨
      ∃ off page, resolve s.params (s.reg rs + imm.signExtend 32) = .rom off page) →
    exec (.sb rt rs imm) s =
      .next (awaitingCallback s (instrWord (.sb rt rs imm)) (s.reg rt) (s.reg rs + imm.signExtend 32) 0#3) ∧
    ((s.reg rs + imm.signExtend 32).toNat % 2 = 0 → exec (.sh rt rs imm) s =
      .next (awaitingCallback s (instrWord (.sh rt rs imm)) (s.reg rt) (s.reg rs + imm.signExtend 32) 1#3)) ∧
    ((s.reg rs + imm.signExtend 32).toNat % 4 = 0 → exec (.sw rt rs imm) s =
      .next (awaitingCallback s (instrWord (.sw rt rs imm)) (s.reg rt) (s.reg rs + imm.signExtend 32) 2#3)) ∧
    exec (.swl rt rs imm) s =
      .next (awaitingCallback s (instrWord (.swl rt rs imm)) (s.reg rt) (s.reg rs + imm.signExtend 32) 3#3) ∧
    exec (.swr rt rs imm) s =
      .next (awaitingCallback s (instrWord (.swr rt rs imm)) (s.reg rt) (s.reg rs + imm.signExtend 32) 4#3)

/-- A misaligned halfword or word store raises `AddrStore`; nothing is written, invalidated or called, even
where the address is unmapped (R75, R388). -/
def Obligations.MisalignedStores : Prop :=
  ∀ (s : State) (rt rs : RegIdx) (imm : Imm16),
    ((s.reg rs + imm.signExtend 32).toNat % 2 ≠ 0 →
      ∃ t, exec (.sh rt rs imm) s = .next t ∧
        stoppedAt s t .addrStore (some (instrWord (.sh rt rs imm))) (some (s.reg rs + imm.signExtend 32)) false) ∧
    ((s.reg rs + imm.signExtend 32).toNat % 4 ≠ 0 →
      ∃ t, exec (.sw rt rs imm) s = .next t ∧
        stoppedAt s t .addrStore (some (instrWord (.sw rt rs imm))) (some (s.reg rs + imm.signExtend 32)) false)

/-- `swr rt, 0(rs)` then `swl rt, 3(rs)` stores the four bytes of `rt` at `x[rs]`, aligned or not, in RAM
(R292, R294). -/
def Obligations.UnalignedWordStore : Prop :=
  ∀ (s : State) (rt rs : RegIdx) (off page off' page' : Nat), s.params.Legal →
    resolve s.params (s.reg rs) = .ram off page → resolve s.params (s.reg rs + 3#32) = .ram off' page' →
    ∃ t u, exec (.swr rt rs 0#16) s = .next t ∧ exec (.swl rt rs 3#16) t = .next u ∧
      storedBytes s u (s.reg rs) 4 (regByte (s.reg rt)) ∧ (∀ q, u.reg q = s.reg q) ∧
      u.pageValid page = false ∧ u.pageValid page' = false

/-- A word stored to RAM or the scratchpad is loaded back, through any alias of its address (R68, R72, R93). -/
def Obligations.LoadAfterStore : Prop :=
  ∀ (s t : State) (rt rs rd rb : RegIdx) (imm imm' : Imm16), s.params.Legal →
    ((∃ off page, resolve s.params (s.reg rs + imm.signExtend 32) = .ram off page) ∨
      ∃ off, resolve s.params (s.reg rs + imm.signExtend 32) = .scratch off) →
    (s.reg rs + imm.signExtend 32).toNat % 4 = 0 →
    exec (.sw rt rs imm) s = .next t →
    resolve s.params (t.reg rb + imm'.signExtend 32) = resolve s.params (s.reg rs + imm.signExtend 32) →
    ∃ u, exec (.lw rd rb imm') t = .next u ∧ retiredWrite t u (instrWord (.lw rd rb imm')) rd (s.reg rt)

/-! ## Branches, jumps and the delay slot -/

/-- A jump with a `NOP` in its slot (R191, R312 to R315). -/
def Obligations.JumpsWithNop : Prop :=
  ∀ (s : State) (target : Target26) (rd rs : RegIdx), slotWord s = some 0#32 →
    (∃ t, exec (.j target) s = .next t ∧ (∀ q, t.reg q = s.reg q) ∧
      unitWithNop s t (instrWord (.j target)) ((s.pc + 4#32).extractLsb' 28 4 ++ target ++ 0#2 : BitVec 32)) ∧
    (∃ t, exec (.jal target) s = .next t ∧ wroteReg s t 31#5 (s.pc + 8#32) ∧
      unitWithNop s t (instrWord (.jal target)) ((s.pc + 4#32).extractLsb' 28 4 ++ target ++ 0#2 : BitVec 32)) ∧
    (∃ t, exec (.jr rs) s = .next t ∧ (∀ q, t.reg q = s.reg q) ∧
      unitWithNop s t (instrWord (.jr rs)) (s.reg rs)) ∧
    (∃ t, exec (.jalr rd rs) s = .next t ∧ wroteReg s t rd (s.pc + 8#32) ∧
      unitWithNop s t (instrWord (.jalr rd rs)) (s.reg rs))

/-- A conditional branch with a `NOP` in its slot, taken or not; `BLTZAL` and `BGEZAL` link either way
(R191, R316 to R323). -/
def Obligations.BranchesWithNop : Prop :=
  ∀ (s : State) (rs rt : RegIdx) (imm : Imm16), slotWord s = some 0#32 →
    (∃ t, exec (.beq rs rt imm) s = .next t ∧ (∀ q, t.reg q = s.reg q) ∧
      unitWithNop s t (instrWord (.beq rs rt imm))
        (if s.reg rs = s.reg rt then s.pc + 4#32 + imm.signExtend 32 * 4#32 else s.pc + 8#32)) ∧
    (∃ t, exec (.bne rs rt imm) s = .next t ∧ (∀ q, t.reg q = s.reg q) ∧
      unitWithNop s t (instrWord (.bne rs rt imm))
        (if s.reg rs = s.reg rt then s.pc + 8#32 else s.pc + 4#32 + imm.signExtend 32 * 4#32)) ∧
    (∃ t, exec (.blez rs imm) s = .next t ∧ (∀ q, t.reg q = s.reg q) ∧
      unitWithNop s t (instrWord (.blez rs imm))
        (if (s.reg rs).toInt ≤ 0 then s.pc + 4#32 + imm.signExtend 32 * 4#32 else s.pc + 8#32)) ∧
    (∃ t, exec (.bgtz rs imm) s = .next t ∧ (∀ q, t.reg q = s.reg q) ∧
      unitWithNop s t (instrWord (.bgtz rs imm))
        (if 0 < (s.reg rs).toInt then s.pc + 4#32 + imm.signExtend 32 * 4#32 else s.pc + 8#32)) ∧
    (∃ t, exec (.bltz rs imm) s = .next t ∧ (∀ q, t.reg q = s.reg q) ∧
      unitWithNop s t (instrWord (.bltz rs imm))
        (if (s.reg rs).toInt < 0 then s.pc + 4#32 + imm.signExtend 32 * 4#32 else s.pc + 8#32)) ∧
    (∃ t, exec (.bgez rs imm) s = .next t ∧ (∀ q, t.reg q = s.reg q) ∧
      unitWithNop s t (instrWord (.bgez rs imm))
        (if 0 ≤ (s.reg rs).toInt then s.pc + 4#32 + imm.signExtend 32 * 4#32 else s.pc + 8#32)) ∧
    (∃ t, exec (.bltzal rs imm) s = .next t ∧ wroteReg s t 31#5 (s.pc + 8#32) ∧
      unitWithNop s t (instrWord (.bltzal rs imm))
        (if (s.reg rs).toInt < 0 then s.pc + 4#32 + imm.signExtend 32 * 4#32 else s.pc + 8#32)) ∧
    (∃ t, exec (.bgezal rs imm) s = .next t ∧ wroteReg s t 31#5 (s.pc + 8#32) ∧
      unitWithNop s t (instrWord (.bgezal rs imm))
        (if 0 ≤ (s.reg rs).toInt then s.pc + 4#32 + imm.signExtend 32 * 4#32 else s.pc + 8#32))

/-- A control-flow unit executes its slot, after its own charge and link, exactly as Execute executes that
instruction; its target and condition were fixed before (R310, R311, R420). -/
def Obligations.UnitRunsSlot : Prop :=
  ∀ (i j : Instr) (s : State) (d : Word), i.isControlFlow = true → slotWord s = some d →
    decodeGuest d = .instr j → j.isControlFlow = false →
    (∀ v, exec j v = finish d v (slotWordBody d v)) ∧
    (∀ u, slotWordBody d (slotEntry i s) = .done u →
      exec i s = .next { u with pc := unitTarget s i, dstate := .yield }) ∧
    (∀ u, slotWordBody d (slotEntry i s) = .call u →
      exec i s = .next { u with resumePc := unitTarget s i, resumeYield := true })

/-- A branch or jump in a delay slot raises `BranchInDelay` at the outer branch, which has no effect (R311,
R389). -/
def Obligations.BranchInDelayStops : Prop :=
  ∀ (i j : Instr) (s : State) (d : Word), i.isControlFlow = true → slotWord s = some d →
    decodeGuest d = .instr j → j.isControlFlow = true →
    ∃ t, exec i s = .next t ∧ stoppedAt s t .branchInDelay (some d) none true

/-- Where the slot's word comes from: the block, or for a branch in its page's last slot the memory at
`b + 4` now, and `FetchUnmapped`, with no effect of the branch, where that is not RAM or ROM (R191, R192,
R381). -/
def Obligations.SlotFetch : Prop :=
  ∀ (i : Instr) (s : State), s.params.Legal → i.isControlFlow = true → s.pc.toNat % 4 = 0 →
    (slotIndex s.params s.pc ≠ s.params.pageInstrs - 1 →
      slotWord s = some (s.blkWord s.curPage (slotIndex s.params s.pc + 1))) ∧
    (slotIndex s.params s.pc = s.params.pageInstrs - 1 → ∀ p b0 b1 b2 b3, pageOf s.params (s.pc + 4#32) = some p →
      s.readAddr (s.pc + 4#32) = some b0 → s.readAddr (s.pc + 4#32 + 1#32) = some b1 →
      s.readAddr (s.pc + 4#32 + 2#32) = some b2 → s.readAddr (s.pc + 4#32 + 3#32) = some b3 →
      slotWord s = some (b3 ++ b2 ++ b1 ++ b0 : BitVec 32)) ∧
    (slotIndex s.params s.pc = s.params.pageInstrs - 1 → pageOf s.params (s.pc + 4#32) = none →
      ∃ t, exec i s = .next t ∧
        stoppedAt s t .fetchUnmapped (some (instrWord i)) (some (s.pc + 4#32)) true)

/-- A slot that faults stops at its branch, with the slot's word and `FAULT_BD` set; the branch's charge and
link stay (R311, R340, R355, R375). -/
def Obligations.SlotFaults : Prop :=
  ∀ (i : Instr) (s : State) (d : Word), i.isControlFlow = true → slotWord s = some d →
    (∀ c addr, isControlWord d = false → slotWordBody d (slotEntry i s) = .fault c addr →
      ∃ t, exec i s = .next t ∧ stoppedAt (slotEntry i s) t c (some d) addr true ∧ t.faultPc = s.pc) ∧
    (decodeGuest d = .reserved → ∃ t, exec i s = .next t ∧
      stoppedAt (slotEntry i s) t .reservedInstr (some d) none true ∧ t.faultPc = s.pc) ∧
    (∀ code, decodeGuest d = .instr (.syscall code) → ∃ t, exec i s = .next t ∧
      stoppedAt (slotEntry i s) t .syscall (some d) none true ∧ t.faultPc = s.pc) ∧
    (∀ code, decodeGuest d = .instr (.brk code) → ∃ t, exec i s = .next t ∧
      stoppedAt (slotEntry i s) t .brk (some d) none true ∧ t.faultPc = s.pc)

/-! ## System and coprocessor instructions -/

/-- `SYSCALL` and `BREAK` are the fault stops `Syscall` and `Break`, whatever their code (R341, R342). -/
def Obligations.SystemCallsStop : Prop :=
  ∀ (s : State) (code : Code20),
    (∃ t, exec (.syscall code) s = .next t ∧
      stoppedAt s t .syscall (some (instrWord (.syscall code))) none false) ∧
    (∃ t, exec (.brk code) s = .next t ∧ stoppedAt s t .brk (some (instrWord (.brk code))) none false)

/-- The coprocessor instructions are the fault stop `Coprocessor`: no memory is read or written, no callback
made (R343 to R354). -/
def Obligations.CoprocessorStops : Prop :=
  ∀ (s : State) (f : BitVec 26) (rt rs : RegIdx) (imm : Imm16),
    (∃ t, exec (.cop0 f) s = .next t ∧ stoppedAt s t .coprocessor (some (instrWord (.cop0 f))) none false) ∧
    (∃ t, exec (.cop1 f) s = .next t ∧ stoppedAt s t .coprocessor (some (instrWord (.cop1 f))) none false) ∧
    (∃ t, exec (.cop2 f) s = .next t ∧ stoppedAt s t .coprocessor (some (instrWord (.cop2 f))) none false) ∧
    (∃ t, exec (.cop3 f) s = .next t ∧ stoppedAt s t .coprocessor (some (instrWord (.cop3 f))) none false) ∧
    (∃ t, exec (.lwc0 rt rs imm) s = .next t ∧
      stoppedAt s t .coprocessor (some (instrWord (.lwc0 rt rs imm))) none false) ∧
    (∃ t, exec (.lwc1 rt rs imm) s = .next t ∧
      stoppedAt s t .coprocessor (some (instrWord (.lwc1 rt rs imm))) none false) ∧
    (∃ t, exec (.lwc2 rt rs imm) s = .next t ∧
      stoppedAt s t .coprocessor (some (instrWord (.lwc2 rt rs imm))) none false) ∧
    (∃ t, exec (.lwc3 rt rs imm) s = .next t ∧
      stoppedAt s t .coprocessor (some (instrWord (.lwc3 rt rs imm))) none false) ∧
    (∃ t, exec (.swc0 rt rs imm) s = .next t ∧
      stoppedAt s t .coprocessor (some (instrWord (.swc0 rt rs imm))) none false) ∧
    (∃ t, exec (.swc1 rt rs imm) s = .next t ∧
      stoppedAt s t .coprocessor (some (instrWord (.swc1 rt rs imm))) none false) ∧
    (∃ t, exec (.swc2 rt rs imm) s = .next t ∧
      stoppedAt s t .coprocessor (some (instrWord (.swc2 rt rs imm))) none false) ∧
    (∃ t, exec (.swc3 rt rs imm) s = .next t ∧
      stoppedAt s t .coprocessor (some (instrWord (.swc3 rt rs imm))) none false)

/-! ## The router -/

/-- The router under any parameters: the masked address, RAM first, then the scratchpad, then ROM (R60 to R66);
and R70, the address map under the defaults: nine ranges, every other address unmapped. -/
def Obligations.AddressMap : Prop :=
  (∀ (c : Params) (a : Word) (m : Nat), m = (a &&& c.regionMask[(a.extractLsb' 29 3).toNat]!).toNat →
    (m < 2097152 → resolve c a = .ram m (m / 2 ^ c.pageShift)) ∧
    (2097152 ≤ m → c.scratchBase.toNat ≤ m → m < c.scratchBase.toNat + 1024 →
      resolve c a = .scratch (m - c.scratchBase.toNat)) ∧
    (2097152 ≤ m → ¬(c.scratchBase.toNat ≤ m ∧ m < c.scratchBase.toNat + 1024) →
      (c.romBase.toNat ≤ m ∧ m < c.romBase.toNat + 524288 → resolve c a =
        .rom (m - c.romBase.toNat) (2097152 / 2 ^ c.pageShift + (m - c.romBase.toNat) / 2 ^ c.pageShift)) ∧
      (¬(c.romBase.toNat ≤ m ∧ m < c.romBase.toNat + 524288) → resolve c a = .unmapped))) ∧
  ∀ a : Word,
    (∀ k ∈ [0, 0x80000000, 0xA0000000],
      (k ≤ a.toNat ∧ a.toNat ≤ k + 0x1FFFFF →
        resolve Params.specDefault a = .ram (a.toNat - k) ((a.toNat - k) / 2048)) ∧
      (k + 0x1F800000 ≤ a.toNat ∧ a.toNat ≤ k + 0x1F8003FF →
        resolve Params.specDefault a = .scratch (a.toNat - (k + 0x1F800000))) ∧
      (k + 0x1FC00000 ≤ a.toNat ∧ a.toNat ≤ k + 0x1FC7FFFF →
        resolve Params.specDefault a =
          .rom (a.toNat - (k + 0x1FC00000)) (1024 + (a.toNat - (k + 0x1FC00000)) / 2048))) ∧
    ((∀ k ∈ [0, 0x80000000, 0xA0000000],
      ¬(k ≤ a.toNat ∧ a.toNat ≤ k + 0x1FFFFF) ∧ ¬(k + 0x1F800000 ≤ a.toNat ∧ a.toNat ≤ k + 0x1F8003FF) ∧
        ¬(k + 0x1FC00000 ≤ a.toNat ∧ a.toNat ≤ k + 0x1FC7FFFF)) → resolve Params.specDefault a = .unmapped)

/-- Mirroring: under any parameters equal masked addresses resolve alike, and under the default masks, below
`0x20000000`, so do an address and its two mirrors (R68). -/
def Obligations.Mirroring : Prop :=
  (∀ (c : Params) (a b : Word),
    a &&& c.regionMask[(a.extractLsb' 29 3).toNat]! = b &&& c.regionMask[(b.extractLsb' 29 3).toNat]! →
    resolve c a = resolve c b) ∧
  (∀ (c : Params) (a : Word), c.regionMask = Params.specDefault.regionMask → a.toNat < 0x20000000 →
    resolve c (a ||| 0x80000000#32) = resolve c a ∧ resolve c (a ||| 0xA0000000#32) = resolve c a)

/-! ## Commands -/

/-- `init` (R150). -/
def Obligations.InitCommand : Prop :=
  ∀ s : State, s.life = .uninitialized →
    ∃ t, exec .init s = .next t ∧ (∀ p, t.pageValid p = false) ∧
      t = { s with valid := t.valid, nePending := false, inCallback := false, faultCode := .none, life := .ready,
                   response := some .ack }

/-- `delete`: the block is Destroyed, its registers and tables may hold anything, and everything else, the
memories among it, is as it was (R151, R414). Nothing is said of what the model puts into them (log 16). -/
def Obligations.DeleteCommand : Prop :=
  ∀ s : State, s.life = .ready →
    ∃ t, exec .delete s = .next t ∧ sameMemory s t ∧
      t = { s with
            regs := t.regs, hi := t.hi, lo := t.lo, pc := t.pc, cnt := t.cnt, nextEvent := t.nextEvent,
            nePending := t.nePending, budget := t.budget, c0 := t.c0, dstate := t.dstate, curPage := t.curPage,
            inCallback := t.inCallback, valid := t.valid, blk := t.blk, faultCode := t.faultCode, faultPc := t.faultPc,
            faultInstr := t.faultInstr, faultAddr := t.faultAddr, faultBd := t.faultBd, draws := t.draws,
            life := .destroyed, response := some .ack }

/-- `set_pc`, `set_next_event` and `set_reg` (R152, R153, R163). -/
def Obligations.HostWrites : Prop :=
  ∀ (s : State) (v : Word) (sel : Selector), s.life = .ready →
    exec (.setPc v) s = .next { s with pc := v, response := some .ack } ∧
    exec (.setNextEvent v) s = .next { s with nextEvent := v, nePending := true, response := some .ack } ∧
    (sel.toNat < 32 → ∃ t, exec (.setReg sel v) s = .next t ∧ wroteReg s t (sel.setWidth 5) v ∧
      t = { s with regs := t.regs, response := some .ack }) ∧
    (sel = 32#6 → exec (.setReg sel v) s = .next { s with hi := v, response := some .ack }) ∧
    (sel = 33#6 → exec (.setReg sel v) s = .next { s with lo := v, response := some .ack })

/-- `run`: the counter starts at the smaller of the operand and a pending event, the machine in Yield, so that
a counter that starts spent returns at once; else it is refused and answers 0 (R166, R181 to R183). That an
accepted `run` clears the last response is the model's choice (log 12). -/
def Obligations.RunCommand : Prop :=
  ∀ (s : State) (n c : Word),
    (s.life = .ready →
      (s.nePending = false ∧ c = n) ∨ (s.nePending = true ∧ n.toInt ≤ s.nextEvent.toInt ∧ c = n) ∨
        (s.nePending = true ∧ s.nextEvent.toInt < n.toInt ∧ c = s.nextEvent) →
      exec (.run n) s = .next { s with life := .running, faultCode := .none, budget := n, c0 := c, cnt := c,
                                       nePending := false, dstate := .yield, response := none } ∧
      (c.toInt ≤ 0 → s.inCallback = false →
        step { s with life := .running, faultCode := .none, budget := n, c0 := c, cnt := c,
                      nePending := false, dstate := .yield, response := none } =
          .next { s with life := .ready, faultCode := .none, budget := n, c0 := c, cnt := c,
                         nePending := false, dstate := .yield, response := some (.value (c - c - n)) })) ∧
    (s.life ≠ .ready → exec (.run n) s = .next (refusedState s (.value 0#32)))

/-- `resolve`, `is_valid`, `get_state` and `invalidate` where they are accepted, with the codes of R31 and R371
(R84, R85, R126, R127, R154 to R156, R162); selector 41 also before `init` and after `delete` (R162, R165). -/
def Obligations.QueryCommands : Prop :=
  (∀ s : State, s.life = .uninitialized →
    exec (.getState 41#6) s = .next { s with response := some (.value 0#32) }) ∧
  (∀ s : State, s.life = .destroyed →
    exec (.getState 41#6) s = .next { s with response := some (.value 3#32) }) ∧
  ∀ (s : State) (a page : Word) (sel : Selector), s.life = .ready ∨ s.life = .running ∧ s.inCallback = true →
    exec (.resolve a) s = .next { s with response := some (match resolve s.params a with
      | .ram off p => .resolution 0#32 (BitVec.ofNat 32 off) (BitVec.ofNat 32 p)
      | .scratch off => .resolution 1#32 (BitVec.ofNat 32 off) 0#32
      | .rom off p => .resolution 2#32 (BitVec.ofNat 32 off) (BitVec.ofNat 32 p)
      | .unmapped => .resolution 3#32 0#32 0#32) } ∧
    (page.toNat < s.params.totalPages → exec (.isValid page) s =
      .next { s with response := some (.value (if s.pageValid page.toNat then 1#32 else 0#32)) }) ∧
    (page.toNat < s.params.totalPages → ∃ t, exec (.invalidate page) s = .next t ∧
      onlyInvalidated s t page.toNat ∧
      t = { s with valid := t.valid, response := some .ack }) ∧
    (sel.toNat < 32 → exec (.getState sel) s = .next { s with response := some (.value (s.reg (sel.setWidth 5))) }) ∧
    exec (.getState 32#6) s = .next { s with response := some (.value s.hi) } ∧
    exec (.getState 33#6) s = .next { s with response := some (.value s.lo) } ∧
    exec (.getState 34#6) s = .next { s with response := some (.value s.pc) } ∧
    exec (.getState 35#6) s = .next { s with response := some (.value s.cnt) } ∧
    exec (.getState 36#6) s = .next { s with response := some (.value (match s.faultCode with
      | .none => 0#32
      | .reservedInstr => 1#32
      | .coprocessor => 2#32
      | .syscall => 3#32
      | .brk => 4#32
      | .overflow => 5#32
      | .addrLoad => 6#32
      | .addrStore => 7#32
      | .fetchUnmapped => 8#32
      | .pcMisaligned => 9#32
      | .branchInDelay => 10#32
      | .invalidState => 11#32)) } ∧
    exec (.getState 37#6) s = .next { s with response := some (.value s.faultPc) } ∧
    exec (.getState 38#6) s = .next { s with response := some (.value s.faultInstr) } ∧
    exec (.getState 39#6) s = .next { s with response := some (.value s.faultAddr) } ∧
    exec (.getState 40#6) s = .next { s with response := some (.value (if s.faultBd then 1#32 else 0#32)) } ∧
    exec (.getState 41#6) s = .next { s with response := some (.value (match s.life with
      | .uninitialized => 0#32
      | .ready => 1#32
      | .running => 2#32
      | .destroyed => 3#32)) }

/-- `ext_write` writes the low `n` bytes to RAM, invalidating the page, or to the scratchpad (R98, R157). -/
def Obligations.ExtWriteCommand : Prop :=
  ∀ (s : State) (a n v : Word), s.params.Legal → s.life = .ready ∨ s.life = .running ∧ s.inCallback = true →
    n = 1#32 ∨ n = 2#32 ∨ n = 4#32 → a.toNat % n.toNat = 0 →
    (∀ off page, resolve s.params a = .ram off page →
      ∃ t, exec (.extWrite a n v) s = .next t ∧ storedBytes s t a n.toNat (regByte v) ∧ onlyInvalidated s t page ∧
        t = { s with ram := t.ram, valid := t.valid, response := some .ack }) ∧
    (∀ off, resolve s.params a = .scratch off →
      ∃ t, exec (.extWrite a n v) s = .next t ∧ storedBytes s t a n.toNat (regByte v) ∧
        t = { s with scratch := t.scratch, response := some .ack })

/-- A command the table of R165 does not take, with an operand R166 names, or with a reserved code, is refused,
and changes nothing but `FAULT_CODE`, and that only where a command could be taken at all (R165, R166, R390). That
the table, and not R162's sentence, decides `get_state(41)` in a busy block is the model's reading (log 14), that a
size other than 1, 2 and 4 does not save a misplaced `ext_write` from being refused too (log 13), and the answer
`refused` is the model's (log 12). -/
def Obligations.RefusedCommands : Prop :=
  ∀ s : State,
    (∀ i : Instr, i.isCommand = true → tableAccepts s i = false →
      exec i s = .next (refusedState s (match i with | .run _ => .value 0#32 | _ => .refused))) ∧
    (∀ page : Word, s.params.totalPages ≤ page.toNat →
      exec (.isValid page) s = .next (refusedState s .refused) ∧
      exec (.invalidate page) s = .next (refusedState s .refused)) ∧
    (∀ sel : Selector, 42 ≤ sel.toNat → exec (.getState sel) s = .next (refusedState s .refused)) ∧
    (∀ (sel : Selector) (v : Word), 34 ≤ sel.toNat → exec (.setReg sel v) s = .next (refusedState s .refused)) ∧
    (∀ a n v : Word, a.toNat % n.toNat ≠ 0 → exec (.extWrite a n v) s = .next (refusedState s .refused)) ∧
    (∀ a n v : Word, (resolve s.params a = .unmapped ∨ ∃ off page, resolve s.params a = .rom off page) →
      exec (.extWrite a n v) s = .next (refusedState s .refused)) ∧
    (∀ (p : Packet) rest, 0xB ≤ p.code.toNat → s.life ≠ .running → s.hostPort = p :: rest →
      step s = .next (refusedState { s with hostPort := rest } .refused)) ∧
    (∀ (p : Packet) rest, 0xB ≤ p.code.toNat → s.life = .running → s.inCallback = true →
      s.owner = .command p :: rest → step s = .next (refusedState { s with owner := rest } .refused))

/-! ## The dispatcher and the callback -/

/-- Yield returns to the host when `CNT <= 0` and goes to Dispatch otherwise (R184, R195). -/
def Obligations.YieldMoves : Prop :=
  ∀ s : State, s.life = .running → s.inCallback = false → s.dstate = .yield →
    (s.cnt.toInt ≤ 0 →
      step s = .next { s with life := .ready, response := some (.value (s.c0 - s.cnt - s.budget)) }) ∧
    (0 < s.cnt.toInt → step s = .next { s with dstate := .dispatch })

/-- Dispatch: the faults, the entry into a valid page, and the entry into an invalid one, which is translated
first; no cycle is charged and no guest register changes (R90, R158, R185, R380, R381). -/
def Obligations.DispatchMoves : Prop :=
  ∀ s : State, s.life = .running → s.inCallback = false → s.dstate = .dispatch →
    (s.pc.toNat % 4 ≠ 0 → ∃ t, step s = .next t ∧ stoppedAt s t .pcMisaligned none (some s.pc) false) ∧
    (s.pc.toNat % 4 = 0 → pageOf s.params s.pc = none →
      ∃ t, step s = .next t ∧ stoppedAt s t .fetchUnmapped none (some s.pc) false) ∧
    (∀ p, s.pc.toNat % 4 = 0 → pageOf s.params s.pc = some p → s.pageValid p = true →
      step s = .next { s with curPage := p, dstate := .execute }) ∧
    (∀ p, s.pc.toNat % 4 = 0 → pageOf s.params s.pc = some p → s.pageValid p = false →
      ∃ t, step s = .next t ∧
        t = { s with blk := t.blk, valid := t.valid, curPage := p, dstate := .execute } ∧
        (∀ k < s.params.pageInstrs, t.blkWord p k = s.pageWord p k) ∧
        (∀ q, q ≠ p → ∀ k < s.params.pageInstrs, t.blkWord q k = s.blkWord q k) ∧
        (∀ q, t.pageValid q = (s.pageValid q || q = p)))

/-- The end of a callback transaction: the returned counter is adopted, and the store completes where it would
have without the callback; with no reply queued the counter is any value (R160, log 10). -/
def Obligations.CallbackReply : Prop :=
  ∀ s : State, s.life = .running → s.inCallback = true →
    (∀ c rest, s.owner = .reply c :: rest →
      step s = .next { s with cnt := c, inCallback := false, pc := s.resumePc,
                              dstate := if s.resumeYield then .yield else s.dstate, owner := rest }) ∧
    (s.owner = [] → ∃ t, step s = .next t ∧
      t = { s with cnt := t.cnt, inCallback := false, pc := s.resumePc,
                   dstate := if s.resumeYield then .yield else s.dstate, draws := t.draws })

/-! ## Reset -/

/-- The values the spec gives after `init` (R40, R150), the configured ones at the defaults of R9
and R11. That the machine after reset is the one after `init` is the model's reading (log 1), that it is the one
so configured the model's choice (log 4). -/
def Obligations.ResetValues : Prop :=
  State.reset.life = .ready ∧ (∀ p, State.reset.pageValid p = false) ∧ State.reset.nePending = false ∧
  State.reset.inCallback = false ∧ State.reset.faultCode = .none ∧ State.reset.reg 0#5 = 0#32 ∧
  State.reset.params.pageShift = 11 ∧ State.reset.params.scratchBase = 0x1F800000#32 ∧
  State.reset.params.romBase = 0x1FC00000#32 ∧
  State.reset.params.regionMask = #v[0xFFFFFFFF#32, 0xFFFFFFFF#32, 0xFFFFFFFF#32, 0xFFFFFFFF#32, 0x7FFFFFFF#32,
    0x1FFFFFFF#32, 0xFFFFFFFF#32, 0xFFFFFFFF#32] ∧
  ∀ w : Word, State.reset.params.cycleCost w = 1

/-- The invariants hold at reset: the constraints of R13 on the parameters, the canonical forms, R89, R186. The
forms and the configuration are the model's choice (logs 3, 4). -/
def Obligations.InvariantsAtReset : Prop :=
  State.reset.params.Legal ∧ State.reset.memWf ∧ State.reset.validWf ∧ State.reset.blkWf ∧
  State.reset.blockCoherent ∧ State.reset.inPage ∧
  State.reset.resumeInPage ∧ State.reset.callbackInRun

/-! ## What every step keeps -/

/-- Every step keeps the canonical form of the three memories, of the validity table and of the block store (R39,
R83, R91). The form is the model's choice (log 3). -/
def Obligations.StepKeepsForm : Prop :=
  ∀ s t : State, stepsTo s t → s.params.Legal → s.memWf → s.validWf → s.blkWf →
    t.memWf ∧ t.validWf ∧ t.blkWf

/-- R89: `init` establishes, and every step keeps, that a valid page's block is the page's words now in
memory. -/
def Obligations.BlocksStayCoherent : Prop :=
  ∀ s t : State, stepsTo s t → s.params.Legal →
    s.blockCoherent ∨ s.life = .uninitialized ∧ t.life = .ready → t.blockCoherent

/-- R186: throughout a stay in Execute `PC` is aligned and inside the page Dispatch resolved, through callbacks
too. -/
def Obligations.ExecuteStaysInPage : Prop :=
  ∀ s t : State, stepsTo s t → s.params.Legal → s.inPage → s.resumeInPage → s.callbackInRun →
    t.inPage ∧ t.resumeInPage ∧ t.callbackInRun

/-- In a coherent block, the word Execute runs is the word in memory at `PC` (R89, R90, R186). -/
def Obligations.ExecuteRunsMemory : Prop :=
  ∀ (s : State) (b0 b1 b2 b3 : Byte), s.params.Legal → s.blockCoherent → s.inPage →
    s.life = .running → s.dstate = .execute →
    s.pageValid s.curPage = true →
    s.readAddr s.pc = some b0 → s.readAddr (s.pc + 1#32) = some b1 → s.readAddr (s.pc + 2#32) = some b2 →
    s.readAddr (s.pc + 3#32) = some b3 → fetchWord s = (b3 ++ b2 ++ b1 ++ b0 : BitVec 32)

/-! ## What holds of every step -/

/-- No instruction and no step is without a next state: the block's faults and refusals are states of it
(R166, R372, R398; logs 5, 6). -/
def Obligations.StepAlwaysAnswers : Prop :=
  (∀ (i : Instr) (s : State), ∃ t, exec i s = .next t) ∧ ∀ s : State, ∃ t, step s = .next t

/-- No step changes ROM or the configuration, and the block store changes in Dispatch only (R34, R36, R39, R79,
R158). -/
def Obligations.RomAndBlocksUntouched : Prop :=
  ∀ s t : State, stepsTo s t →
    t.rom = s.rom ∧ t.params = s.params ∧
    (¬(s.life = .running ∧ s.inCallback = false ∧ s.dstate = .dispatch) → t.blk = s.blk)

/-- A page becomes valid only when Dispatch enters it and has translated it (R86, R158, R159). -/
def Obligations.ValidOnlyByTranslation : Prop :=
  ∀ (s t : State) (p : Nat), stepsTo s t → t.pageValid p = true → s.pageValid p = false →
    s.life = .running ∧ s.inCallback = false ∧ s.dstate = .dispatch ∧ s.pc.toNat % 4 = 0 ∧
      pageOf s.params s.pc = some p ∧ t.curPage = p ∧ t.dstate = .execute ∧
      ∀ k < s.params.pageInstrs, t.blkWord p k = t.pageWord p k

/-- The lifecycle moves by the table of R165 only, and is left or entered only by `init`, `run`, `delete` and
the return from `run` (R31, R165). -/
def Obligations.LifecycleMoves : Prop :=
  ∀ s t : State, stepsTo s t →
    lifeMove s.life t.life = true ∧
    (s.life ≠ .running → t.life ≠ s.life → ∃ p rest, s.hostPort = p :: rest ∧
      ((s.life = .uninitialized ∧ t.life = .ready ∧ decodeCommand p = .instr .init) ∨
       (s.life = .ready ∧ t.life = .destroyed ∧ decodeCommand p = .instr .delete) ∨
       (s.life = .ready ∧ t.life = .running ∧ ∃ n, decodeCommand p = .instr (.run n))))

/-- When `run` ends, by Yield or by a fault, it answers `(C0 - CNT) - BUDGET`, `CNT` as it is left (R195,
R197). -/
def Obligations.RunAnswer : Prop :=
  ∀ s t : State, stepsTo s t → s.life = .running → t.life = .ready →
    t.response = some (.value (t.c0 - t.cnt - t.budget)) ∧ t.c0 = s.c0 ∧ t.budget = s.budget ∧
      s.inCallback = false

end ObligationsOfSlice0
end

