-- ==== Sys2Proof/Laws/Encoding.lean ====
section
/-! SUPPORT. The fields of an assembled word, and the word assembled from its fields (R111): what the decoder's
and the encoder's agreement rests on. -/
namespace Sys2Proof

variable (op : BitVec 6) (rs rt rd : RegIdx) (sh : BitVec 5) (fn : BitVec 6) (imm : Imm16) (tgt : Target26)
  (code : Code20) (w : Word)

@[simp] theorem opField_rWord : opField (rWord op rs rt rd sh fn) = op := by
  unfold opField rWord placeField
  ext i hi
  simp
  grind

@[simp] theorem rsField_rWord : rsField (rWord op rs rt rd sh fn) = rs := by
  unfold rsField rWord placeField
  ext i hi
  simp
  grind

@[simp] theorem rtField_rWord : rtField (rWord op rs rt rd sh fn) = rt := by
  unfold rtField rWord placeField
  ext i hi
  simp
  grind

@[simp] theorem rdField_rWord : rdField (rWord op rs rt rd sh fn) = rd := by
  unfold rdField rWord placeField
  ext i hi
  simp
  grind

@[simp] theorem shamtField_rWord : shamtField (rWord op rs rt rd sh fn) = sh := by
  unfold shamtField rWord placeField
  ext i hi
  simp
  grind

@[simp] theorem functField_rWord : functField (rWord op rs rt rd sh fn) = fn := by
  unfold functField rWord placeField
  ext i hi
  simp
  grind

@[simp] theorem opField_iWord : opField (iWord op rs rt imm) = op := by
  unfold opField iWord placeField
  ext i hi
  simp
  grind

@[simp] theorem rsField_iWord : rsField (iWord op rs rt imm) = rs := by
  unfold rsField iWord placeField
  ext i hi
  simp
  grind

@[simp] theorem rtField_iWord : rtField (iWord op rs rt imm) = rt := by
  unfold rtField iWord placeField
  ext i hi
  simp
  grind

@[simp] theorem immField_iWord : immField (iWord op rs rt imm) = imm := by
  unfold immField iWord placeField
  ext i hi
  simp
  grind

@[simp] theorem opField_jWord : opField (jWord op tgt) = op := by
  unfold opField jWord placeField
  ext i hi
  simp
  grind

@[simp] theorem targetField_jWord : targetField (jWord op tgt) = tgt := by
  unfold targetField jWord placeField
  ext i hi
  simp
  grind

@[simp] theorem opField_codeWord : opField (codeWord code fn) = 0#6 := by
  unfold opField codeWord placeField
  ext i hi
  simp
  grind

@[simp] theorem functField_codeWord : functField (codeWord code fn) = fn := by
  unfold functField codeWord placeField
  ext i hi
  simp
  grind

@[simp] theorem codeField_codeWord : codeField (codeWord code fn) = code := by
  unfold codeField codeWord placeField
  ext i hi
  simp
  grind

theorem rWord_fields : rWord (opField w) (rsField w) (rtField w) (rdField w) (shamtField w) (functField w) = w := by
  unfold rWord opField rsField rtField rdField shamtField functField placeField
  ext i hi
  simp
  grind

theorem iWord_fields : iWord (opField w) (rsField w) (rtField w) (immField w) = w := by
  unfold iWord opField rsField rtField immField placeField
  ext i hi
  simp
  grind

theorem jWord_fields : jWord (opField w) (targetField w) = w := by
  unfold jWord opField targetField placeField
  ext i hi
  simp
  grind

/-- A word of the SPECIAL map is its `code` field and its `funct` field. -/
theorem codeWord_fields (h : opField w = 0#6) : codeWord (codeField w) (functField w) = w := by
  have h' : ∀ i : Nat, 26 ≤ i → w.getLsbD i = false := by
    intro i hi
    by_cases h6 : i - 26 < 6
    · have := congrArg (fun v => v.getLsbD (i - 26)) h
      simpa [opField, h6, Nat.add_sub_cancel' hi] using this
    · exact BitVec.getLsbD_of_ge w i (by omega)
  unfold codeWord codeField functField placeField
  ext i hi
  simp
  grind

/-- The byte order's two directions (R72). -/
theorem wordOfBytes_byteOf : wordOfBytes (byteOf w 0) (byteOf w 1) (byteOf w 2) (byteOf w 3) = w := by
  unfold wordOfBytes byteOf placeField
  ext i hi
  simp
  grind

@[simp] theorem byteOf_wordOfBytes_0 (b0 b1 b2 b3 : Byte) : byteOf (wordOfBytes b0 b1 b2 b3) 0 = b0 := by
  unfold wordOfBytes byteOf placeField
  ext i hi
  simp
  grind

@[simp] theorem byteOf_wordOfBytes_1 (b0 b1 b2 b3 : Byte) : byteOf (wordOfBytes b0 b1 b2 b3) 1 = b1 := by
  unfold wordOfBytes byteOf placeField
  ext i hi
  simp
  grind

@[simp] theorem byteOf_wordOfBytes_2 (b0 b1 b2 b3 : Byte) : byteOf (wordOfBytes b0 b1 b2 b3) 2 = b2 := by
  unfold wordOfBytes byteOf placeField
  ext i hi
  simp
  grind

@[simp] theorem byteOf_wordOfBytes_3 (b0 b1 b2 b3 : Byte) : byteOf (wordOfBytes b0 b1 b2 b3) 3 = b3 := by
  unfold wordOfBytes byteOf placeField
  ext i hi
  simp
  grind

end Sys2Proof
end

