-- ==== Sys2Proof/Laws/State.lean ====
section
/-! SUPPORT. One lemma per field per update of the state, each true by unfolding: no proof unfolds a record
update. -/
namespace Sys2Proof.Machine

variable (s : State)

/-! ## `State.setReg` -/

@[simp] theorem setReg_params (r : RegIdx) (v : Word) : (s.setReg r v).params = s.params := rfl
@[simp] theorem setReg_regs (r : RegIdx) (v : Word) : (s.setReg r v).regs = writeRegs s.regs r v := rfl
@[simp] theorem setReg_hi (r : RegIdx) (v : Word) : (s.setReg r v).hi = s.hi := rfl
@[simp] theorem setReg_lo (r : RegIdx) (v : Word) : (s.setReg r v).lo = s.lo := rfl
@[simp] theorem setReg_pc (r : RegIdx) (v : Word) : (s.setReg r v).pc = s.pc := rfl
@[simp] theorem setReg_cnt (r : RegIdx) (v : Word) : (s.setReg r v).cnt = s.cnt := rfl
@[simp] theorem setReg_nextEvent (r : RegIdx) (v : Word) : (s.setReg r v).nextEvent = s.nextEvent := rfl
@[simp] theorem setReg_nePending (r : RegIdx) (v : Word) : (s.setReg r v).nePending = s.nePending := rfl
@[simp] theorem setReg_budget (r : RegIdx) (v : Word) : (s.setReg r v).budget = s.budget := rfl
@[simp] theorem setReg_c0 (r : RegIdx) (v : Word) : (s.setReg r v).c0 = s.c0 := rfl
@[simp] theorem setReg_life (r : RegIdx) (v : Word) : (s.setReg r v).life = s.life := rfl
@[simp] theorem setReg_dstate (r : RegIdx) (v : Word) : (s.setReg r v).dstate = s.dstate := rfl
@[simp] theorem setReg_curPage (r : RegIdx) (v : Word) : (s.setReg r v).curPage = s.curPage := rfl
@[simp] theorem setReg_inCallback (r : RegIdx) (v : Word) : (s.setReg r v).inCallback = s.inCallback := rfl
@[simp] theorem setReg_valid (r : RegIdx) (v : Word) : (s.setReg r v).valid = s.valid := rfl
@[simp] theorem setReg_blk (r : RegIdx) (v : Word) : (s.setReg r v).blk = s.blk := rfl
@[simp] theorem setReg_faultCode (r : RegIdx) (v : Word) : (s.setReg r v).faultCode = s.faultCode := rfl
@[simp] theorem setReg_faultPc (r : RegIdx) (v : Word) : (s.setReg r v).faultPc = s.faultPc := rfl
@[simp] theorem setReg_faultInstr (r : RegIdx) (v : Word) : (s.setReg r v).faultInstr = s.faultInstr := rfl
@[simp] theorem setReg_faultAddr (r : RegIdx) (v : Word) : (s.setReg r v).faultAddr = s.faultAddr := rfl
@[simp] theorem setReg_faultBd (r : RegIdx) (v : Word) : (s.setReg r v).faultBd = s.faultBd := rfl
@[simp] theorem setReg_ram (r : RegIdx) (v : Word) : (s.setReg r v).ram = s.ram := rfl
@[simp] theorem setReg_scratch (r : RegIdx) (v : Word) : (s.setReg r v).scratch = s.scratch := rfl
@[simp] theorem setReg_rom (r : RegIdx) (v : Word) : (s.setReg r v).rom = s.rom := rfl
@[simp] theorem setReg_reqValue (r : RegIdx) (v : Word) : (s.setReg r v).reqValue = s.reqValue := rfl
@[simp] theorem setReg_reqAddress (r : RegIdx) (v : Word) : (s.setReg r v).reqAddress = s.reqAddress := rfl
@[simp] theorem setReg_reqCounter (r : RegIdx) (v : Word) : (s.setReg r v).reqCounter = s.reqCounter := rfl
@[simp] theorem setReg_reqKind (r : RegIdx) (v : Word) : (s.setReg r v).reqKind = s.reqKind := rfl
@[simp] theorem setReg_resumePc (r : RegIdx) (v : Word) : (s.setReg r v).resumePc = s.resumePc := rfl
@[simp] theorem setReg_resumeYield (r : RegIdx) (v : Word) : (s.setReg r v).resumeYield = s.resumeYield := rfl
@[simp] theorem setReg_response (r : RegIdx) (v : Word) : (s.setReg r v).response = s.response := rfl
@[simp] theorem setReg_hostPort (r : RegIdx) (v : Word) : (s.setReg r v).hostPort = s.hostPort := rfl
@[simp] theorem setReg_owner (r : RegIdx) (v : Word) : (s.setReg r v).owner = s.owner := rfl
@[simp] theorem setReg_draws (r : RegIdx) (v : Word) : (s.setReg r v).draws = s.draws := rfl

/-! ## `State.invalidatePage` -/

@[simp] theorem invalidatePage_params (p : Nat) : (s.invalidatePage p).params = s.params := rfl
@[simp] theorem invalidatePage_regs (p : Nat) : (s.invalidatePage p).regs = s.regs := rfl
@[simp] theorem invalidatePage_hi (p : Nat) : (s.invalidatePage p).hi = s.hi := rfl
@[simp] theorem invalidatePage_lo (p : Nat) : (s.invalidatePage p).lo = s.lo := rfl
@[simp] theorem invalidatePage_pc (p : Nat) : (s.invalidatePage p).pc = s.pc := rfl
@[simp] theorem invalidatePage_cnt (p : Nat) : (s.invalidatePage p).cnt = s.cnt := rfl
@[simp] theorem invalidatePage_nextEvent (p : Nat) : (s.invalidatePage p).nextEvent = s.nextEvent := rfl
@[simp] theorem invalidatePage_nePending (p : Nat) : (s.invalidatePage p).nePending = s.nePending := rfl
@[simp] theorem invalidatePage_budget (p : Nat) : (s.invalidatePage p).budget = s.budget := rfl
@[simp] theorem invalidatePage_c0 (p : Nat) : (s.invalidatePage p).c0 = s.c0 := rfl
@[simp] theorem invalidatePage_life (p : Nat) : (s.invalidatePage p).life = s.life := rfl
@[simp] theorem invalidatePage_dstate (p : Nat) : (s.invalidatePage p).dstate = s.dstate := rfl
@[simp] theorem invalidatePage_curPage (p : Nat) : (s.invalidatePage p).curPage = s.curPage := rfl
@[simp] theorem invalidatePage_inCallback (p : Nat) : (s.invalidatePage p).inCallback = s.inCallback := rfl
@[simp] theorem invalidatePage_valid (p : Nat) :
    (s.invalidatePage p).valid = sparsePut false s.valid p false := rfl
@[simp] theorem invalidatePage_blk (p : Nat) : (s.invalidatePage p).blk = s.blk := rfl
@[simp] theorem invalidatePage_faultCode (p : Nat) : (s.invalidatePage p).faultCode = s.faultCode := rfl
@[simp] theorem invalidatePage_faultPc (p : Nat) : (s.invalidatePage p).faultPc = s.faultPc := rfl
@[simp] theorem invalidatePage_faultInstr (p : Nat) : (s.invalidatePage p).faultInstr = s.faultInstr := rfl
@[simp] theorem invalidatePage_faultAddr (p : Nat) : (s.invalidatePage p).faultAddr = s.faultAddr := rfl
@[simp] theorem invalidatePage_faultBd (p : Nat) : (s.invalidatePage p).faultBd = s.faultBd := rfl
@[simp] theorem invalidatePage_ram (p : Nat) : (s.invalidatePage p).ram = s.ram := rfl
@[simp] theorem invalidatePage_scratch (p : Nat) : (s.invalidatePage p).scratch = s.scratch := rfl
@[simp] theorem invalidatePage_rom (p : Nat) : (s.invalidatePage p).rom = s.rom := rfl
@[simp] theorem invalidatePage_reqValue (p : Nat) : (s.invalidatePage p).reqValue = s.reqValue := rfl
@[simp] theorem invalidatePage_reqAddress (p : Nat) : (s.invalidatePage p).reqAddress = s.reqAddress := rfl
@[simp] theorem invalidatePage_reqCounter (p : Nat) : (s.invalidatePage p).reqCounter = s.reqCounter := rfl
@[simp] theorem invalidatePage_reqKind (p : Nat) : (s.invalidatePage p).reqKind = s.reqKind := rfl
@[simp] theorem invalidatePage_resumePc (p : Nat) : (s.invalidatePage p).resumePc = s.resumePc := rfl
@[simp] theorem invalidatePage_resumeYield (p : Nat) : (s.invalidatePage p).resumeYield = s.resumeYield := rfl
@[simp] theorem invalidatePage_response (p : Nat) : (s.invalidatePage p).response = s.response := rfl
@[simp] theorem invalidatePage_hostPort (p : Nat) : (s.invalidatePage p).hostPort = s.hostPort := rfl
@[simp] theorem invalidatePage_owner (p : Nat) : (s.invalidatePage p).owner = s.owner := rfl
@[simp] theorem invalidatePage_draws (p : Nat) : (s.invalidatePage p).draws = s.draws := rfl

/-! ## `State.markValid` -/

@[simp] theorem markValid_params (p : Nat) : (s.markValid p).params = s.params := rfl
@[simp] theorem markValid_regs (p : Nat) : (s.markValid p).regs = s.regs := rfl
@[simp] theorem markValid_hi (p : Nat) : (s.markValid p).hi = s.hi := rfl
@[simp] theorem markValid_lo (p : Nat) : (s.markValid p).lo = s.lo := rfl
@[simp] theorem markValid_pc (p : Nat) : (s.markValid p).pc = s.pc := rfl
@[simp] theorem markValid_cnt (p : Nat) : (s.markValid p).cnt = s.cnt := rfl
@[simp] theorem markValid_nextEvent (p : Nat) : (s.markValid p).nextEvent = s.nextEvent := rfl
@[simp] theorem markValid_nePending (p : Nat) : (s.markValid p).nePending = s.nePending := rfl
@[simp] theorem markValid_budget (p : Nat) : (s.markValid p).budget = s.budget := rfl
@[simp] theorem markValid_c0 (p : Nat) : (s.markValid p).c0 = s.c0 := rfl
@[simp] theorem markValid_life (p : Nat) : (s.markValid p).life = s.life := rfl
@[simp] theorem markValid_dstate (p : Nat) : (s.markValid p).dstate = s.dstate := rfl
@[simp] theorem markValid_curPage (p : Nat) : (s.markValid p).curPage = s.curPage := rfl
@[simp] theorem markValid_inCallback (p : Nat) : (s.markValid p).inCallback = s.inCallback := rfl
@[simp] theorem markValid_valid (p : Nat) : (s.markValid p).valid = sparsePut false s.valid p true := rfl
@[simp] theorem markValid_blk (p : Nat) : (s.markValid p).blk = s.blk := rfl
@[simp] theorem markValid_faultCode (p : Nat) : (s.markValid p).faultCode = s.faultCode := rfl
@[simp] theorem markValid_faultPc (p : Nat) : (s.markValid p).faultPc = s.faultPc := rfl
@[simp] theorem markValid_faultInstr (p : Nat) : (s.markValid p).faultInstr = s.faultInstr := rfl
@[simp] theorem markValid_faultAddr (p : Nat) : (s.markValid p).faultAddr = s.faultAddr := rfl
@[simp] theorem markValid_faultBd (p : Nat) : (s.markValid p).faultBd = s.faultBd := rfl
@[simp] theorem markValid_ram (p : Nat) : (s.markValid p).ram = s.ram := rfl
@[simp] theorem markValid_scratch (p : Nat) : (s.markValid p).scratch = s.scratch := rfl
@[simp] theorem markValid_rom (p : Nat) : (s.markValid p).rom = s.rom := rfl
@[simp] theorem markValid_reqValue (p : Nat) : (s.markValid p).reqValue = s.reqValue := rfl
@[simp] theorem markValid_reqAddress (p : Nat) : (s.markValid p).reqAddress = s.reqAddress := rfl
@[simp] theorem markValid_reqCounter (p : Nat) : (s.markValid p).reqCounter = s.reqCounter := rfl
@[simp] theorem markValid_reqKind (p : Nat) : (s.markValid p).reqKind = s.reqKind := rfl
@[simp] theorem markValid_resumePc (p : Nat) : (s.markValid p).resumePc = s.resumePc := rfl
@[simp] theorem markValid_resumeYield (p : Nat) : (s.markValid p).resumeYield = s.resumeYield := rfl
@[simp] theorem markValid_response (p : Nat) : (s.markValid p).response = s.response := rfl
@[simp] theorem markValid_hostPort (p : Nat) : (s.markValid p).hostPort = s.hostPort := rfl
@[simp] theorem markValid_owner (p : Nat) : (s.markValid p).owner = s.owner := rfl
@[simp] theorem markValid_draws (p : Nat) : (s.markValid p).draws = s.draws := rfl

/-! ## `State.charge` -/

@[simp] theorem charge_params (w : Word) : (s.charge w).params = s.params := rfl
@[simp] theorem charge_regs (w : Word) : (s.charge w).regs = s.regs := rfl
@[simp] theorem charge_hi (w : Word) : (s.charge w).hi = s.hi := rfl
@[simp] theorem charge_lo (w : Word) : (s.charge w).lo = s.lo := rfl
@[simp] theorem charge_pc (w : Word) : (s.charge w).pc = s.pc := rfl
@[simp] theorem charge_cnt (w : Word) :
    (s.charge w).cnt = s.cnt - BitVec.ofNat 32 (s.params.cycleCost w) := rfl
@[simp] theorem charge_nextEvent (w : Word) : (s.charge w).nextEvent = s.nextEvent := rfl
@[simp] theorem charge_nePending (w : Word) : (s.charge w).nePending = s.nePending := rfl
@[simp] theorem charge_budget (w : Word) : (s.charge w).budget = s.budget := rfl
@[simp] theorem charge_c0 (w : Word) : (s.charge w).c0 = s.c0 := rfl
@[simp] theorem charge_life (w : Word) : (s.charge w).life = s.life := rfl
@[simp] theorem charge_dstate (w : Word) : (s.charge w).dstate = s.dstate := rfl
@[simp] theorem charge_curPage (w : Word) : (s.charge w).curPage = s.curPage := rfl
@[simp] theorem charge_inCallback (w : Word) : (s.charge w).inCallback = s.inCallback := rfl
@[simp] theorem charge_valid (w : Word) : (s.charge w).valid = s.valid := rfl
@[simp] theorem charge_blk (w : Word) : (s.charge w).blk = s.blk := rfl
@[simp] theorem charge_faultCode (w : Word) : (s.charge w).faultCode = s.faultCode := rfl
@[simp] theorem charge_faultPc (w : Word) : (s.charge w).faultPc = s.faultPc := rfl
@[simp] theorem charge_faultInstr (w : Word) : (s.charge w).faultInstr = s.faultInstr := rfl
@[simp] theorem charge_faultAddr (w : Word) : (s.charge w).faultAddr = s.faultAddr := rfl
@[simp] theorem charge_faultBd (w : Word) : (s.charge w).faultBd = s.faultBd := rfl
@[simp] theorem charge_ram (w : Word) : (s.charge w).ram = s.ram := rfl
@[simp] theorem charge_scratch (w : Word) : (s.charge w).scratch = s.scratch := rfl
@[simp] theorem charge_rom (w : Word) : (s.charge w).rom = s.rom := rfl
@[simp] theorem charge_reqValue (w : Word) : (s.charge w).reqValue = s.reqValue := rfl
@[simp] theorem charge_reqAddress (w : Word) : (s.charge w).reqAddress = s.reqAddress := rfl
@[simp] theorem charge_reqCounter (w : Word) : (s.charge w).reqCounter = s.reqCounter := rfl
@[simp] theorem charge_reqKind (w : Word) : (s.charge w).reqKind = s.reqKind := rfl
@[simp] theorem charge_resumePc (w : Word) : (s.charge w).resumePc = s.resumePc := rfl
@[simp] theorem charge_resumeYield (w : Word) : (s.charge w).resumeYield = s.resumeYield := rfl
@[simp] theorem charge_response (w : Word) : (s.charge w).response = s.response := rfl
@[simp] theorem charge_hostPort (w : Word) : (s.charge w).hostPort = s.hostPort := rfl
@[simp] theorem charge_owner (w : Word) : (s.charge w).owner = s.owner := rfl
@[simp] theorem charge_draws (w : Word) : (s.charge w).draws = s.draws := rfl

/-! ## `State.requestCallback` -/

@[simp] theorem requestCallback_params (v a : Word) (k : StoreKind) :
    (s.requestCallback v a k).params = s.params := rfl
@[simp] theorem requestCallback_regs (v a : Word) (k : StoreKind) :
    (s.requestCallback v a k).regs = s.regs := rfl
@[simp] theorem requestCallback_hi (v a : Word) (k : StoreKind) : (s.requestCallback v a k).hi = s.hi := rfl
@[simp] theorem requestCallback_lo (v a : Word) (k : StoreKind) : (s.requestCallback v a k).lo = s.lo := rfl
@[simp] theorem requestCallback_pc (v a : Word) (k : StoreKind) : (s.requestCallback v a k).pc = s.pc := rfl
@[simp] theorem requestCallback_cnt (v a : Word) (k : StoreKind) :
    (s.requestCallback v a k).cnt = s.cnt := rfl
@[simp] theorem requestCallback_nextEvent (v a : Word) (k : StoreKind) :
    (s.requestCallback v a k).nextEvent = s.nextEvent := rfl
@[simp] theorem requestCallback_nePending (v a : Word) (k : StoreKind) :
    (s.requestCallback v a k).nePending = s.nePending := rfl
@[simp] theorem requestCallback_budget (v a : Word) (k : StoreKind) :
    (s.requestCallback v a k).budget = s.budget := rfl
@[simp] theorem requestCallback_c0 (v a : Word) (k : StoreKind) : (s.requestCallback v a k).c0 = s.c0 := rfl
@[simp] theorem requestCallback_life (v a : Word) (k : StoreKind) :
    (s.requestCallback v a k).life = s.life := rfl
@[simp] theorem requestCallback_dstate (v a : Word) (k : StoreKind) :
    (s.requestCallback v a k).dstate = s.dstate := rfl
@[simp] theorem requestCallback_curPage (v a : Word) (k : StoreKind) :
    (s.requestCallback v a k).curPage = s.curPage := rfl
@[simp] theorem requestCallback_inCallback (v a : Word) (k : StoreKind) :
    (s.requestCallback v a k).inCallback = true := rfl
@[simp] theorem requestCallback_valid (v a : Word) (k : StoreKind) :
    (s.requestCallback v a k).valid = s.valid := rfl
@[simp] theorem requestCallback_blk (v a : Word) (k : StoreKind) :
    (s.requestCallback v a k).blk = s.blk := rfl
@[simp] theorem requestCallback_faultCode (v a : Word) (k : StoreKind) :
    (s.requestCallback v a k).faultCode = s.faultCode := rfl
@[simp] theorem requestCallback_faultPc (v a : Word) (k : StoreKind) :
    (s.requestCallback v a k).faultPc = s.faultPc := rfl
@[simp] theorem requestCallback_faultInstr (v a : Word) (k : StoreKind) :
    (s.requestCallback v a k).faultInstr = s.faultInstr := rfl
@[simp] theorem requestCallback_faultAddr (v a : Word) (k : StoreKind) :
    (s.requestCallback v a k).faultAddr = s.faultAddr := rfl
@[simp] theorem requestCallback_faultBd (v a : Word) (k : StoreKind) :
    (s.requestCallback v a k).faultBd = s.faultBd := rfl
@[simp] theorem requestCallback_ram (v a : Word) (k : StoreKind) :
    (s.requestCallback v a k).ram = s.ram := rfl
@[simp] theorem requestCallback_scratch (v a : Word) (k : StoreKind) :
    (s.requestCallback v a k).scratch = s.scratch := rfl
@[simp] theorem requestCallback_rom (v a : Word) (k : StoreKind) :
    (s.requestCallback v a k).rom = s.rom := rfl
@[simp] theorem requestCallback_reqValue (v a : Word) (k : StoreKind) :
    (s.requestCallback v a k).reqValue = v := rfl
@[simp] theorem requestCallback_reqAddress (v a : Word) (k : StoreKind) :
    (s.requestCallback v a k).reqAddress = a := rfl
@[simp] theorem requestCallback_reqCounter (v a : Word) (k : StoreKind) :
    (s.requestCallback v a k).reqCounter = s.cnt := rfl
@[simp] theorem requestCallback_reqKind (v a : Word) (k : StoreKind) :
    (s.requestCallback v a k).reqKind = storeKindCode k := rfl
@[simp] theorem requestCallback_resumePc (v a : Word) (k : StoreKind) :
    (s.requestCallback v a k).resumePc = s.resumePc := rfl
@[simp] theorem requestCallback_resumeYield (v a : Word) (k : StoreKind) :
    (s.requestCallback v a k).resumeYield = s.resumeYield := rfl
@[simp] theorem requestCallback_response (v a : Word) (k : StoreKind) :
    (s.requestCallback v a k).response = s.response := rfl
@[simp] theorem requestCallback_hostPort (v a : Word) (k : StoreKind) :
    (s.requestCallback v a k).hostPort = s.hostPort := rfl
@[simp] theorem requestCallback_owner (v a : Word) (k : StoreKind) :
    (s.requestCallback v a k).owner = s.owner := rfl
@[simp] theorem requestCallback_draws (v a : Word) (k : StoreKind) :
    (s.requestCallback v a k).draws = s.draws := rfl

/-! ## `State.faultStop` -/

@[simp] theorem faultStop_params (c : FaultCode) (p : Word) (i a : Option Word) (b : Bool) :
    (s.faultStop c p i a b).params = s.params := rfl
@[simp] theorem faultStop_regs (c : FaultCode) (p : Word) (i a : Option Word) (b : Bool) :
    (s.faultStop c p i a b).regs = s.regs := rfl
@[simp] theorem faultStop_hi (c : FaultCode) (p : Word) (i a : Option Word) (b : Bool) :
    (s.faultStop c p i a b).hi = s.hi := rfl
@[simp] theorem faultStop_lo (c : FaultCode) (p : Word) (i a : Option Word) (b : Bool) :
    (s.faultStop c p i a b).lo = s.lo := rfl
@[simp] theorem faultStop_pc (c : FaultCode) (p : Word) (i a : Option Word) (b : Bool) :
    (s.faultStop c p i a b).pc = p := rfl
@[simp] theorem faultStop_cnt (c : FaultCode) (p : Word) (i a : Option Word) (b : Bool) :
    (s.faultStop c p i a b).cnt = s.cnt := rfl
@[simp] theorem faultStop_nextEvent (c : FaultCode) (p : Word) (i a : Option Word) (b : Bool) :
    (s.faultStop c p i a b).nextEvent = s.nextEvent := rfl
@[simp] theorem faultStop_nePending (c : FaultCode) (p : Word) (i a : Option Word) (b : Bool) :
    (s.faultStop c p i a b).nePending = s.nePending := rfl
@[simp] theorem faultStop_budget (c : FaultCode) (p : Word) (i a : Option Word) (b : Bool) :
    (s.faultStop c p i a b).budget = s.budget := rfl
@[simp] theorem faultStop_c0 (c : FaultCode) (p : Word) (i a : Option Word) (b : Bool) :
    (s.faultStop c p i a b).c0 = s.c0 := rfl
@[simp] theorem faultStop_life (c : FaultCode) (p : Word) (i a : Option Word) (b : Bool) :
    (s.faultStop c p i a b).life = .ready := rfl
@[simp] theorem faultStop_dstate (c : FaultCode) (p : Word) (i a : Option Word) (b : Bool) :
    (s.faultStop c p i a b).dstate = s.dstate := rfl
@[simp] theorem faultStop_curPage (c : FaultCode) (p : Word) (i a : Option Word) (b : Bool) :
    (s.faultStop c p i a b).curPage = s.curPage := rfl
@[simp] theorem faultStop_inCallback (c : FaultCode) (p : Word) (i a : Option Word) (b : Bool) :
    (s.faultStop c p i a b).inCallback = s.inCallback := rfl
@[simp] theorem faultStop_valid (c : FaultCode) (p : Word) (i a : Option Word) (b : Bool) :
    (s.faultStop c p i a b).valid = s.valid := rfl
@[simp] theorem faultStop_blk (c : FaultCode) (p : Word) (i a : Option Word) (b : Bool) :
    (s.faultStop c p i a b).blk = s.blk := rfl
@[simp] theorem faultStop_faultCode (c : FaultCode) (p : Word) (i a : Option Word) (b : Bool) :
    (s.faultStop c p i a b).faultCode = c := rfl
@[simp] theorem faultStop_faultPc (c : FaultCode) (p : Word) (i a : Option Word) (b : Bool) :
    (s.faultStop c p i a b).faultPc = p := rfl
@[simp] theorem faultStop_faultInstr (c : FaultCode) (p : Word) (i a : Option Word) (b : Bool) :
    (s.faultStop c p i a b).faultInstr = i.getD (Config.unspecifiedInstr s.draws) := rfl
@[simp] theorem faultStop_faultAddr (c : FaultCode) (p : Word) (i a : Option Word) (b : Bool) :
    (s.faultStop c p i a b).faultAddr = a.getD (Config.unspecifiedAddr s.draws) := rfl
@[simp] theorem faultStop_faultBd (c : FaultCode) (p : Word) (i a : Option Word) (b : Bool) :
    (s.faultStop c p i a b).faultBd = b := rfl
@[simp] theorem faultStop_ram (c : FaultCode) (p : Word) (i a : Option Word) (b : Bool) :
    (s.faultStop c p i a b).ram = s.ram := rfl
@[simp] theorem faultStop_scratch (c : FaultCode) (p : Word) (i a : Option Word) (b : Bool) :
    (s.faultStop c p i a b).scratch = s.scratch := rfl
@[simp] theorem faultStop_rom (c : FaultCode) (p : Word) (i a : Option Word) (b : Bool) :
    (s.faultStop c p i a b).rom = s.rom := rfl
@[simp] theorem faultStop_reqValue (c : FaultCode) (p : Word) (i a : Option Word) (b : Bool) :
    (s.faultStop c p i a b).reqValue = s.reqValue := rfl
@[simp] theorem faultStop_reqAddress (c : FaultCode) (p : Word) (i a : Option Word) (b : Bool) :
    (s.faultStop c p i a b).reqAddress = s.reqAddress := rfl
@[simp] theorem faultStop_reqCounter (c : FaultCode) (p : Word) (i a : Option Word) (b : Bool) :
    (s.faultStop c p i a b).reqCounter = s.reqCounter := rfl
@[simp] theorem faultStop_reqKind (c : FaultCode) (p : Word) (i a : Option Word) (b : Bool) :
    (s.faultStop c p i a b).reqKind = s.reqKind := rfl
@[simp] theorem faultStop_resumePc (c : FaultCode) (p : Word) (i a : Option Word) (b : Bool) :
    (s.faultStop c p i a b).resumePc = s.resumePc := rfl
@[simp] theorem faultStop_resumeYield (c : FaultCode) (p : Word) (i a : Option Word) (b : Bool) :
    (s.faultStop c p i a b).resumeYield = s.resumeYield := rfl
@[simp] theorem faultStop_response (c : FaultCode) (p : Word) (i a : Option Word) (b : Bool) :
    (s.faultStop c p i a b).response = some (.value s.runResult) := rfl
@[simp] theorem faultStop_hostPort (c : FaultCode) (p : Word) (i a : Option Word) (b : Bool) :
    (s.faultStop c p i a b).hostPort = s.hostPort := rfl
@[simp] theorem faultStop_owner (c : FaultCode) (p : Word) (i a : Option Word) (b : Bool) :
    (s.faultStop c p i a b).owner = s.owner := rfl
@[simp] theorem faultStop_draws (c : FaultCode) (p : Word) (i a : Option Word) (b : Bool) :
    (s.faultStop c p i a b).draws = s.draws + 1 := rfl

/-! ## `State.advance` -/

@[simp] theorem advance_params : s.advance.params = s.params := rfl
@[simp] theorem advance_regs : s.advance.regs = s.regs := rfl
@[simp] theorem advance_hi : s.advance.hi = s.hi := rfl
@[simp] theorem advance_lo : s.advance.lo = s.lo := rfl
@[simp] theorem advance_pc : s.advance.pc = s.pc + 4#32 := rfl
@[simp] theorem advance_cnt : s.advance.cnt = s.cnt := rfl
@[simp] theorem advance_nextEvent : s.advance.nextEvent = s.nextEvent := rfl
@[simp] theorem advance_nePending : s.advance.nePending = s.nePending := rfl
@[simp] theorem advance_budget : s.advance.budget = s.budget := rfl
@[simp] theorem advance_c0 : s.advance.c0 = s.c0 := rfl
@[simp] theorem advance_life : s.advance.life = s.life := rfl
@[simp] theorem advance_dstate :
    s.advance.dstate = if slotIndex s.params (s.pc + 4#32) = 0 then .yield else s.dstate := rfl
@[simp] theorem advance_curPage : s.advance.curPage = s.curPage := rfl
@[simp] theorem advance_inCallback : s.advance.inCallback = s.inCallback := rfl
@[simp] theorem advance_valid : s.advance.valid = s.valid := rfl
@[simp] theorem advance_blk : s.advance.blk = s.blk := rfl
@[simp] theorem advance_faultCode : s.advance.faultCode = s.faultCode := rfl
@[simp] theorem advance_faultPc : s.advance.faultPc = s.faultPc := rfl
@[simp] theorem advance_faultInstr : s.advance.faultInstr = s.faultInstr := rfl
@[simp] theorem advance_faultAddr : s.advance.faultAddr = s.faultAddr := rfl
@[simp] theorem advance_faultBd : s.advance.faultBd = s.faultBd := rfl
@[simp] theorem advance_ram : s.advance.ram = s.ram := rfl
@[simp] theorem advance_scratch : s.advance.scratch = s.scratch := rfl
@[simp] theorem advance_rom : s.advance.rom = s.rom := rfl
@[simp] theorem advance_reqValue : s.advance.reqValue = s.reqValue := rfl
@[simp] theorem advance_reqAddress : s.advance.reqAddress = s.reqAddress := rfl
@[simp] theorem advance_reqCounter : s.advance.reqCounter = s.reqCounter := rfl
@[simp] theorem advance_reqKind : s.advance.reqKind = s.reqKind := rfl
@[simp] theorem advance_resumePc : s.advance.resumePc = s.resumePc := rfl
@[simp] theorem advance_resumeYield : s.advance.resumeYield = s.resumeYield := rfl
@[simp] theorem advance_response : s.advance.response = s.response := rfl
@[simp] theorem advance_hostPort : s.advance.hostPort = s.hostPort := rfl
@[simp] theorem advance_owner : s.advance.owner = s.owner := rfl
@[simp] theorem advance_draws : s.advance.draws = s.draws := rfl

/-! ## `State.suspend` -/

@[simp] theorem suspend_params (n : Word) (b : Bool) : (s.suspend n b).params = s.params := rfl
@[simp] theorem suspend_regs (n : Word) (b : Bool) : (s.suspend n b).regs = s.regs := rfl
@[simp] theorem suspend_hi (n : Word) (b : Bool) : (s.suspend n b).hi = s.hi := rfl
@[simp] theorem suspend_lo (n : Word) (b : Bool) : (s.suspend n b).lo = s.lo := rfl
@[simp] theorem suspend_pc (n : Word) (b : Bool) : (s.suspend n b).pc = s.pc := rfl
@[simp] theorem suspend_cnt (n : Word) (b : Bool) : (s.suspend n b).cnt = s.cnt := rfl
@[simp] theorem suspend_nextEvent (n : Word) (b : Bool) : (s.suspend n b).nextEvent = s.nextEvent := rfl
@[simp] theorem suspend_nePending (n : Word) (b : Bool) : (s.suspend n b).nePending = s.nePending := rfl
@[simp] theorem suspend_budget (n : Word) (b : Bool) : (s.suspend n b).budget = s.budget := rfl
@[simp] theorem suspend_c0 (n : Word) (b : Bool) : (s.suspend n b).c0 = s.c0 := rfl
@[simp] theorem suspend_life (n : Word) (b : Bool) : (s.suspend n b).life = s.life := rfl
@[simp] theorem suspend_dstate (n : Word) (b : Bool) : (s.suspend n b).dstate = s.dstate := rfl
@[simp] theorem suspend_curPage (n : Word) (b : Bool) : (s.suspend n b).curPage = s.curPage := rfl
@[simp] theorem suspend_inCallback (n : Word) (b : Bool) : (s.suspend n b).inCallback = s.inCallback := rfl
@[simp] theorem suspend_valid (n : Word) (b : Bool) : (s.suspend n b).valid = s.valid := rfl
@[simp] theorem suspend_blk (n : Word) (b : Bool) : (s.suspend n b).blk = s.blk := rfl
@[simp] theorem suspend_faultCode (n : Word) (b : Bool) : (s.suspend n b).faultCode = s.faultCode := rfl
@[simp] theorem suspend_faultPc (n : Word) (b : Bool) : (s.suspend n b).faultPc = s.faultPc := rfl
@[simp] theorem suspend_faultInstr (n : Word) (b : Bool) : (s.suspend n b).faultInstr = s.faultInstr := rfl
@[simp] theorem suspend_faultAddr (n : Word) (b : Bool) : (s.suspend n b).faultAddr = s.faultAddr := rfl
@[simp] theorem suspend_faultBd (n : Word) (b : Bool) : (s.suspend n b).faultBd = s.faultBd := rfl
@[simp] theorem suspend_ram (n : Word) (b : Bool) : (s.suspend n b).ram = s.ram := rfl
@[simp] theorem suspend_scratch (n : Word) (b : Bool) : (s.suspend n b).scratch = s.scratch := rfl
@[simp] theorem suspend_rom (n : Word) (b : Bool) : (s.suspend n b).rom = s.rom := rfl
@[simp] theorem suspend_reqValue (n : Word) (b : Bool) : (s.suspend n b).reqValue = s.reqValue := rfl
@[simp] theorem suspend_reqAddress (n : Word) (b : Bool) : (s.suspend n b).reqAddress = s.reqAddress := rfl
@[simp] theorem suspend_reqCounter (n : Word) (b : Bool) : (s.suspend n b).reqCounter = s.reqCounter := rfl
@[simp] theorem suspend_reqKind (n : Word) (b : Bool) : (s.suspend n b).reqKind = s.reqKind := rfl
@[simp] theorem suspend_resumePc (n : Word) (b : Bool) : (s.suspend n b).resumePc = n := rfl
@[simp] theorem suspend_resumeYield (n : Word) (b : Bool) : (s.suspend n b).resumeYield = b := rfl
@[simp] theorem suspend_response (n : Word) (b : Bool) : (s.suspend n b).response = s.response := rfl
@[simp] theorem suspend_hostPort (n : Word) (b : Bool) : (s.suspend n b).hostPort = s.hostPort := rfl
@[simp] theorem suspend_owner (n : Word) (b : Bool) : (s.suspend n b).owner = s.owner := rfl
@[simp] theorem suspend_draws (n : Word) (b : Bool) : (s.suspend n b).draws = s.draws := rfl

/-! ## `State.refuse` -/

@[simp] theorem refuse_params (r : Response) : (s.refuse r).params = s.params := rfl
@[simp] theorem refuse_regs (r : Response) : (s.refuse r).regs = s.regs := rfl
@[simp] theorem refuse_hi (r : Response) : (s.refuse r).hi = s.hi := rfl
@[simp] theorem refuse_lo (r : Response) : (s.refuse r).lo = s.lo := rfl
@[simp] theorem refuse_pc (r : Response) : (s.refuse r).pc = s.pc := rfl
@[simp] theorem refuse_cnt (r : Response) : (s.refuse r).cnt = s.cnt := rfl
@[simp] theorem refuse_nextEvent (r : Response) : (s.refuse r).nextEvent = s.nextEvent := rfl
@[simp] theorem refuse_nePending (r : Response) : (s.refuse r).nePending = s.nePending := rfl
@[simp] theorem refuse_budget (r : Response) : (s.refuse r).budget = s.budget := rfl
@[simp] theorem refuse_c0 (r : Response) : (s.refuse r).c0 = s.c0 := rfl
@[simp] theorem refuse_life (r : Response) : (s.refuse r).life = s.life := rfl
@[simp] theorem refuse_dstate (r : Response) : (s.refuse r).dstate = s.dstate := rfl
@[simp] theorem refuse_curPage (r : Response) : (s.refuse r).curPage = s.curPage := rfl
@[simp] theorem refuse_inCallback (r : Response) : (s.refuse r).inCallback = s.inCallback := rfl
@[simp] theorem refuse_valid (r : Response) : (s.refuse r).valid = s.valid := rfl
@[simp] theorem refuse_blk (r : Response) : (s.refuse r).blk = s.blk := rfl
@[simp] theorem refuse_faultCode (r : Response) :
    (s.refuse r).faultCode = if s.openToCommands then .invalidState else s.faultCode := rfl
@[simp] theorem refuse_faultPc (r : Response) : (s.refuse r).faultPc = s.faultPc := rfl
@[simp] theorem refuse_faultInstr (r : Response) : (s.refuse r).faultInstr = s.faultInstr := rfl
@[simp] theorem refuse_faultAddr (r : Response) : (s.refuse r).faultAddr = s.faultAddr := rfl
@[simp] theorem refuse_faultBd (r : Response) : (s.refuse r).faultBd = s.faultBd := rfl
@[simp] theorem refuse_ram (r : Response) : (s.refuse r).ram = s.ram := rfl
@[simp] theorem refuse_scratch (r : Response) : (s.refuse r).scratch = s.scratch := rfl
@[simp] theorem refuse_rom (r : Response) : (s.refuse r).rom = s.rom := rfl
@[simp] theorem refuse_reqValue (r : Response) : (s.refuse r).reqValue = s.reqValue := rfl
@[simp] theorem refuse_reqAddress (r : Response) : (s.refuse r).reqAddress = s.reqAddress := rfl
@[simp] theorem refuse_reqCounter (r : Response) : (s.refuse r).reqCounter = s.reqCounter := rfl
@[simp] theorem refuse_reqKind (r : Response) : (s.refuse r).reqKind = s.reqKind := rfl
@[simp] theorem refuse_resumePc (r : Response) : (s.refuse r).resumePc = s.resumePc := rfl
@[simp] theorem refuse_resumeYield (r : Response) : (s.refuse r).resumeYield = s.resumeYield := rfl
@[simp] theorem refuse_response (r : Response) : (s.refuse r).response = some r := rfl
@[simp] theorem refuse_hostPort (r : Response) : (s.refuse r).hostPort = s.hostPort := rfl
@[simp] theorem refuse_owner (r : Response) : (s.refuse r).owner = s.owner := rfl
@[simp] theorem refuse_draws (r : Response) : (s.refuse r).draws = s.draws := rfl

/-! ## `State.answer` -/

@[simp] theorem answer_params (r : Response) : (s.answer r).params = s.params := rfl
@[simp] theorem answer_regs (r : Response) : (s.answer r).regs = s.regs := rfl
@[simp] theorem answer_hi (r : Response) : (s.answer r).hi = s.hi := rfl
@[simp] theorem answer_lo (r : Response) : (s.answer r).lo = s.lo := rfl
@[simp] theorem answer_pc (r : Response) : (s.answer r).pc = s.pc := rfl
@[simp] theorem answer_cnt (r : Response) : (s.answer r).cnt = s.cnt := rfl
@[simp] theorem answer_nextEvent (r : Response) : (s.answer r).nextEvent = s.nextEvent := rfl
@[simp] theorem answer_nePending (r : Response) : (s.answer r).nePending = s.nePending := rfl
@[simp] theorem answer_budget (r : Response) : (s.answer r).budget = s.budget := rfl
@[simp] theorem answer_c0 (r : Response) : (s.answer r).c0 = s.c0 := rfl
@[simp] theorem answer_life (r : Response) : (s.answer r).life = s.life := rfl
@[simp] theorem answer_dstate (r : Response) : (s.answer r).dstate = s.dstate := rfl
@[simp] theorem answer_curPage (r : Response) : (s.answer r).curPage = s.curPage := rfl
@[simp] theorem answer_inCallback (r : Response) : (s.answer r).inCallback = s.inCallback := rfl
@[simp] theorem answer_valid (r : Response) : (s.answer r).valid = s.valid := rfl
@[simp] theorem answer_blk (r : Response) : (s.answer r).blk = s.blk := rfl
@[simp] theorem answer_faultCode (r : Response) : (s.answer r).faultCode = s.faultCode := rfl
@[simp] theorem answer_faultPc (r : Response) : (s.answer r).faultPc = s.faultPc := rfl
@[simp] theorem answer_faultInstr (r : Response) : (s.answer r).faultInstr = s.faultInstr := rfl
@[simp] theorem answer_faultAddr (r : Response) : (s.answer r).faultAddr = s.faultAddr := rfl
@[simp] theorem answer_faultBd (r : Response) : (s.answer r).faultBd = s.faultBd := rfl
@[simp] theorem answer_ram (r : Response) : (s.answer r).ram = s.ram := rfl
@[simp] theorem answer_scratch (r : Response) : (s.answer r).scratch = s.scratch := rfl
@[simp] theorem answer_rom (r : Response) : (s.answer r).rom = s.rom := rfl
@[simp] theorem answer_reqValue (r : Response) : (s.answer r).reqValue = s.reqValue := rfl
@[simp] theorem answer_reqAddress (r : Response) : (s.answer r).reqAddress = s.reqAddress := rfl
@[simp] theorem answer_reqCounter (r : Response) : (s.answer r).reqCounter = s.reqCounter := rfl
@[simp] theorem answer_reqKind (r : Response) : (s.answer r).reqKind = s.reqKind := rfl
@[simp] theorem answer_resumePc (r : Response) : (s.answer r).resumePc = s.resumePc := rfl
@[simp] theorem answer_resumeYield (r : Response) : (s.answer r).resumeYield = s.resumeYield := rfl
@[simp] theorem answer_response (r : Response) : (s.answer r).response = some r := rfl
@[simp] theorem answer_hostPort (r : Response) : (s.answer r).hostPort = s.hostPort := rfl
@[simp] theorem answer_owner (r : Response) : (s.answer r).owner = s.owner := rfl
@[simp] theorem answer_draws (r : Response) : (s.answer r).draws = s.draws := rfl

/-! ## `State.translate` -/

@[simp] theorem translate_params (p : Nat) : (s.translate p).params = s.params := rfl
@[simp] theorem translate_regs (p : Nat) : (s.translate p).regs = s.regs := rfl
@[simp] theorem translate_hi (p : Nat) : (s.translate p).hi = s.hi := rfl
@[simp] theorem translate_lo (p : Nat) : (s.translate p).lo = s.lo := rfl
@[simp] theorem translate_pc (p : Nat) : (s.translate p).pc = s.pc := rfl
@[simp] theorem translate_cnt (p : Nat) : (s.translate p).cnt = s.cnt := rfl
@[simp] theorem translate_nextEvent (p : Nat) : (s.translate p).nextEvent = s.nextEvent := rfl
@[simp] theorem translate_nePending (p : Nat) : (s.translate p).nePending = s.nePending := rfl
@[simp] theorem translate_budget (p : Nat) : (s.translate p).budget = s.budget := rfl
@[simp] theorem translate_c0 (p : Nat) : (s.translate p).c0 = s.c0 := rfl
@[simp] theorem translate_life (p : Nat) : (s.translate p).life = s.life := rfl
@[simp] theorem translate_dstate (p : Nat) : (s.translate p).dstate = s.dstate := rfl
@[simp] theorem translate_curPage (p : Nat) : (s.translate p).curPage = s.curPage := rfl
@[simp] theorem translate_inCallback (p : Nat) : (s.translate p).inCallback = s.inCallback := rfl
@[simp] theorem translate_valid (p : Nat) : (s.translate p).valid = sparsePut false s.valid p true := rfl
@[simp] theorem translate_blk (p : Nat) : (s.translate p).blk = copyWords s p s.params.pageInstrs := rfl
@[simp] theorem translate_faultCode (p : Nat) : (s.translate p).faultCode = s.faultCode := rfl
@[simp] theorem translate_faultPc (p : Nat) : (s.translate p).faultPc = s.faultPc := rfl
@[simp] theorem translate_faultInstr (p : Nat) : (s.translate p).faultInstr = s.faultInstr := rfl
@[simp] theorem translate_faultAddr (p : Nat) : (s.translate p).faultAddr = s.faultAddr := rfl
@[simp] theorem translate_faultBd (p : Nat) : (s.translate p).faultBd = s.faultBd := rfl
@[simp] theorem translate_ram (p : Nat) : (s.translate p).ram = s.ram := rfl
@[simp] theorem translate_scratch (p : Nat) : (s.translate p).scratch = s.scratch := rfl
@[simp] theorem translate_rom (p : Nat) : (s.translate p).rom = s.rom := rfl
@[simp] theorem translate_reqValue (p : Nat) : (s.translate p).reqValue = s.reqValue := rfl
@[simp] theorem translate_reqAddress (p : Nat) : (s.translate p).reqAddress = s.reqAddress := rfl
@[simp] theorem translate_reqCounter (p : Nat) : (s.translate p).reqCounter = s.reqCounter := rfl
@[simp] theorem translate_reqKind (p : Nat) : (s.translate p).reqKind = s.reqKind := rfl
@[simp] theorem translate_resumePc (p : Nat) : (s.translate p).resumePc = s.resumePc := rfl
@[simp] theorem translate_resumeYield (p : Nat) : (s.translate p).resumeYield = s.resumeYield := rfl
@[simp] theorem translate_response (p : Nat) : (s.translate p).response = s.response := rfl
@[simp] theorem translate_hostPort (p : Nat) : (s.translate p).hostPort = s.hostPort := rfl
@[simp] theorem translate_owner (p : Nat) : (s.translate p).owner = s.owner := rfl
@[simp] theorem translate_draws (p : Nat) : (s.translate p).draws = s.draws := rfl

/-! ## `State.startRun` -/

@[simp] theorem startRun_params (n : Word) : (s.startRun n).params = s.params := rfl
@[simp] theorem startRun_regs (n : Word) : (s.startRun n).regs = s.regs := rfl
@[simp] theorem startRun_hi (n : Word) : (s.startRun n).hi = s.hi := rfl
@[simp] theorem startRun_lo (n : Word) : (s.startRun n).lo = s.lo := rfl
@[simp] theorem startRun_pc (n : Word) : (s.startRun n).pc = s.pc := rfl
@[simp] theorem startRun_cnt (n : Word) : (s.startRun n).cnt = s.startCount n := rfl
@[simp] theorem startRun_nextEvent (n : Word) : (s.startRun n).nextEvent = s.nextEvent := rfl
@[simp] theorem startRun_nePending (n : Word) : (s.startRun n).nePending = false := rfl
@[simp] theorem startRun_budget (n : Word) : (s.startRun n).budget = n := rfl
@[simp] theorem startRun_c0 (n : Word) : (s.startRun n).c0 = s.startCount n := rfl
@[simp] theorem startRun_life (n : Word) : (s.startRun n).life = .running := rfl
@[simp] theorem startRun_dstate (n : Word) : (s.startRun n).dstate = .yield := rfl
@[simp] theorem startRun_curPage (n : Word) : (s.startRun n).curPage = s.curPage := rfl
@[simp] theorem startRun_inCallback (n : Word) : (s.startRun n).inCallback = s.inCallback := rfl
@[simp] theorem startRun_valid (n : Word) : (s.startRun n).valid = s.valid := rfl
@[simp] theorem startRun_blk (n : Word) : (s.startRun n).blk = s.blk := rfl
@[simp] theorem startRun_faultCode (n : Word) : (s.startRun n).faultCode = .none := rfl
@[simp] theorem startRun_faultPc (n : Word) : (s.startRun n).faultPc = s.faultPc := rfl
@[simp] theorem startRun_faultInstr (n : Word) : (s.startRun n).faultInstr = s.faultInstr := rfl
@[simp] theorem startRun_faultAddr (n : Word) : (s.startRun n).faultAddr = s.faultAddr := rfl
@[simp] theorem startRun_faultBd (n : Word) : (s.startRun n).faultBd = s.faultBd := rfl
@[simp] theorem startRun_ram (n : Word) : (s.startRun n).ram = s.ram := rfl
@[simp] theorem startRun_scratch (n : Word) : (s.startRun n).scratch = s.scratch := rfl
@[simp] theorem startRun_rom (n : Word) : (s.startRun n).rom = s.rom := rfl
@[simp] theorem startRun_reqValue (n : Word) : (s.startRun n).reqValue = s.reqValue := rfl
@[simp] theorem startRun_reqAddress (n : Word) : (s.startRun n).reqAddress = s.reqAddress := rfl
@[simp] theorem startRun_reqCounter (n : Word) : (s.startRun n).reqCounter = s.reqCounter := rfl
@[simp] theorem startRun_reqKind (n : Word) : (s.startRun n).reqKind = s.reqKind := rfl
@[simp] theorem startRun_resumePc (n : Word) : (s.startRun n).resumePc = s.resumePc := rfl
@[simp] theorem startRun_resumeYield (n : Word) : (s.startRun n).resumeYield = s.resumeYield := rfl
@[simp] theorem startRun_response (n : Word) : (s.startRun n).response = none := rfl
@[simp] theorem startRun_hostPort (n : Word) : (s.startRun n).hostPort = s.hostPort := rfl
@[simp] theorem startRun_owner (n : Word) : (s.startRun n).owner = s.owner := rfl
@[simp] theorem startRun_draws (n : Word) : (s.startRun n).draws = s.draws := rfl

/-! ## `State.endRun` -/

@[simp] theorem endRun_params : s.endRun.params = s.params := rfl
@[simp] theorem endRun_regs : s.endRun.regs = s.regs := rfl
@[simp] theorem endRun_hi : s.endRun.hi = s.hi := rfl
@[simp] theorem endRun_lo : s.endRun.lo = s.lo := rfl
@[simp] theorem endRun_pc : s.endRun.pc = s.pc := rfl
@[simp] theorem endRun_cnt : s.endRun.cnt = s.cnt := rfl
@[simp] theorem endRun_nextEvent : s.endRun.nextEvent = s.nextEvent := rfl
@[simp] theorem endRun_nePending : s.endRun.nePending = s.nePending := rfl
@[simp] theorem endRun_budget : s.endRun.budget = s.budget := rfl
@[simp] theorem endRun_c0 : s.endRun.c0 = s.c0 := rfl
@[simp] theorem endRun_life : s.endRun.life = .ready := rfl
@[simp] theorem endRun_dstate : s.endRun.dstate = s.dstate := rfl
@[simp] theorem endRun_curPage : s.endRun.curPage = s.curPage := rfl
@[simp] theorem endRun_inCallback : s.endRun.inCallback = s.inCallback := rfl
@[simp] theorem endRun_valid : s.endRun.valid = s.valid := rfl
@[simp] theorem endRun_blk : s.endRun.blk = s.blk := rfl
@[simp] theorem endRun_faultCode : s.endRun.faultCode = s.faultCode := rfl
@[simp] theorem endRun_faultPc : s.endRun.faultPc = s.faultPc := rfl
@[simp] theorem endRun_faultInstr : s.endRun.faultInstr = s.faultInstr := rfl
@[simp] theorem endRun_faultAddr : s.endRun.faultAddr = s.faultAddr := rfl
@[simp] theorem endRun_faultBd : s.endRun.faultBd = s.faultBd := rfl
@[simp] theorem endRun_ram : s.endRun.ram = s.ram := rfl
@[simp] theorem endRun_scratch : s.endRun.scratch = s.scratch := rfl
@[simp] theorem endRun_rom : s.endRun.rom = s.rom := rfl
@[simp] theorem endRun_reqValue : s.endRun.reqValue = s.reqValue := rfl
@[simp] theorem endRun_reqAddress : s.endRun.reqAddress = s.reqAddress := rfl
@[simp] theorem endRun_reqCounter : s.endRun.reqCounter = s.reqCounter := rfl
@[simp] theorem endRun_reqKind : s.endRun.reqKind = s.reqKind := rfl
@[simp] theorem endRun_resumePc : s.endRun.resumePc = s.resumePc := rfl
@[simp] theorem endRun_resumeYield : s.endRun.resumeYield = s.resumeYield := rfl
@[simp] theorem endRun_response : s.endRun.response = some (.value s.runResult) := rfl
@[simp] theorem endRun_hostPort : s.endRun.hostPort = s.hostPort := rfl
@[simp] theorem endRun_owner : s.endRun.owner = s.owner := rfl
@[simp] theorem endRun_draws : s.endRun.draws = s.draws := rfl

/-! ## `State.adoptReply` -/

@[simp] theorem adoptReply_params (c : Word) : (s.adoptReply c).params = s.params := rfl
@[simp] theorem adoptReply_regs (c : Word) : (s.adoptReply c).regs = s.regs := rfl
@[simp] theorem adoptReply_hi (c : Word) : (s.adoptReply c).hi = s.hi := rfl
@[simp] theorem adoptReply_lo (c : Word) : (s.adoptReply c).lo = s.lo := rfl
@[simp] theorem adoptReply_pc (c : Word) : (s.adoptReply c).pc = s.resumePc := rfl
@[simp] theorem adoptReply_cnt (c : Word) : (s.adoptReply c).cnt = c := rfl
@[simp] theorem adoptReply_nextEvent (c : Word) : (s.adoptReply c).nextEvent = s.nextEvent := rfl
@[simp] theorem adoptReply_nePending (c : Word) : (s.adoptReply c).nePending = s.nePending := rfl
@[simp] theorem adoptReply_budget (c : Word) : (s.adoptReply c).budget = s.budget := rfl
@[simp] theorem adoptReply_c0 (c : Word) : (s.adoptReply c).c0 = s.c0 := rfl
@[simp] theorem adoptReply_life (c : Word) : (s.adoptReply c).life = s.life := rfl
@[simp] theorem adoptReply_dstate (c : Word) :
    (s.adoptReply c).dstate = if s.resumeYield then .yield else s.dstate := rfl
@[simp] theorem adoptReply_curPage (c : Word) : (s.adoptReply c).curPage = s.curPage := rfl
@[simp] theorem adoptReply_inCallback (c : Word) : (s.adoptReply c).inCallback = false := rfl
@[simp] theorem adoptReply_valid (c : Word) : (s.adoptReply c).valid = s.valid := rfl
@[simp] theorem adoptReply_blk (c : Word) : (s.adoptReply c).blk = s.blk := rfl
@[simp] theorem adoptReply_faultCode (c : Word) : (s.adoptReply c).faultCode = s.faultCode := rfl
@[simp] theorem adoptReply_faultPc (c : Word) : (s.adoptReply c).faultPc = s.faultPc := rfl
@[simp] theorem adoptReply_faultInstr (c : Word) : (s.adoptReply c).faultInstr = s.faultInstr := rfl
@[simp] theorem adoptReply_faultAddr (c : Word) : (s.adoptReply c).faultAddr = s.faultAddr := rfl
@[simp] theorem adoptReply_faultBd (c : Word) : (s.adoptReply c).faultBd = s.faultBd := rfl
@[simp] theorem adoptReply_ram (c : Word) : (s.adoptReply c).ram = s.ram := rfl
@[simp] theorem adoptReply_scratch (c : Word) : (s.adoptReply c).scratch = s.scratch := rfl
@[simp] theorem adoptReply_rom (c : Word) : (s.adoptReply c).rom = s.rom := rfl
@[simp] theorem adoptReply_reqValue (c : Word) : (s.adoptReply c).reqValue = s.reqValue := rfl
@[simp] theorem adoptReply_reqAddress (c : Word) : (s.adoptReply c).reqAddress = s.reqAddress := rfl
@[simp] theorem adoptReply_reqCounter (c : Word) : (s.adoptReply c).reqCounter = s.reqCounter := rfl
@[simp] theorem adoptReply_reqKind (c : Word) : (s.adoptReply c).reqKind = s.reqKind := rfl
@[simp] theorem adoptReply_resumePc (c : Word) : (s.adoptReply c).resumePc = s.resumePc := rfl
@[simp] theorem adoptReply_resumeYield (c : Word) : (s.adoptReply c).resumeYield = s.resumeYield := rfl
@[simp] theorem adoptReply_response (c : Word) : (s.adoptReply c).response = s.response := rfl
@[simp] theorem adoptReply_hostPort (c : Word) : (s.adoptReply c).hostPort = s.hostPort := rfl
@[simp] theorem adoptReply_owner (c : Word) : (s.adoptReply c).owner = s.owner := rfl
@[simp] theorem adoptReply_draws (c : Word) : (s.adoptReply c).draws = s.draws := rfl

/-! ## `State.unspecifyRegisters` -/

@[simp] theorem unspecifyRegisters_params : s.unspecifyRegisters.params = s.params := rfl
@[simp] theorem unspecifyRegisters_regs : s.unspecifyRegisters.regs = Config.deletedRegs s.draws := rfl
@[simp] theorem unspecifyRegisters_hi : s.unspecifyRegisters.hi = Config.deletedWord s.draws 31 := rfl
@[simp] theorem unspecifyRegisters_lo : s.unspecifyRegisters.lo = Config.deletedWord s.draws 32 := rfl
@[simp] theorem unspecifyRegisters_pc : s.unspecifyRegisters.pc = Config.deletedWord s.draws 33 := rfl
@[simp] theorem unspecifyRegisters_cnt : s.unspecifyRegisters.cnt = Config.deletedWord s.draws 34 := rfl
@[simp] theorem unspecifyRegisters_nextEvent :
    s.unspecifyRegisters.nextEvent = Config.deletedWord s.draws 35 := rfl
@[simp] theorem unspecifyRegisters_nePending :
    s.unspecifyRegisters.nePending = Config.deletedBit s.draws 0 := rfl
@[simp] theorem unspecifyRegisters_budget : s.unspecifyRegisters.budget = Config.deletedWord s.draws 36 := rfl
@[simp] theorem unspecifyRegisters_c0 : s.unspecifyRegisters.c0 = Config.deletedWord s.draws 37 := rfl
@[simp] theorem unspecifyRegisters_life : s.unspecifyRegisters.life = s.life := rfl
@[simp] theorem unspecifyRegisters_dstate :
    s.unspecifyRegisters.dstate = dstateOf (Config.deletedIndex s.draws 1) := rfl
@[simp] theorem unspecifyRegisters_curPage :
    s.unspecifyRegisters.curPage = Config.deletedIndex s.draws 2 % s.params.totalPages := rfl
@[simp] theorem unspecifyRegisters_inCallback :
    s.unspecifyRegisters.inCallback = Config.deletedBit s.draws 2 := rfl
@[simp] theorem unspecifyRegisters_valid : s.unspecifyRegisters.valid = s.valid := rfl
@[simp] theorem unspecifyRegisters_blk : s.unspecifyRegisters.blk = s.blk := rfl
@[simp] theorem unspecifyRegisters_faultCode :
    s.unspecifyRegisters.faultCode = faultCodeOf (Config.deletedIndex s.draws 0) := rfl
@[simp] theorem unspecifyRegisters_faultPc :
    s.unspecifyRegisters.faultPc = Config.deletedWord s.draws 38 := rfl
@[simp] theorem unspecifyRegisters_faultInstr :
    s.unspecifyRegisters.faultInstr = Config.deletedWord s.draws 39 := rfl
@[simp] theorem unspecifyRegisters_faultAddr :
    s.unspecifyRegisters.faultAddr = Config.deletedWord s.draws 40 := rfl
@[simp] theorem unspecifyRegisters_faultBd : s.unspecifyRegisters.faultBd = Config.deletedBit s.draws 1 := rfl
@[simp] theorem unspecifyRegisters_ram : s.unspecifyRegisters.ram = s.ram := rfl
@[simp] theorem unspecifyRegisters_scratch : s.unspecifyRegisters.scratch = s.scratch := rfl
@[simp] theorem unspecifyRegisters_rom : s.unspecifyRegisters.rom = s.rom := rfl
@[simp] theorem unspecifyRegisters_reqValue : s.unspecifyRegisters.reqValue = s.reqValue := rfl
@[simp] theorem unspecifyRegisters_reqAddress : s.unspecifyRegisters.reqAddress = s.reqAddress := rfl
@[simp] theorem unspecifyRegisters_reqCounter : s.unspecifyRegisters.reqCounter = s.reqCounter := rfl
@[simp] theorem unspecifyRegisters_reqKind : s.unspecifyRegisters.reqKind = s.reqKind := rfl
@[simp] theorem unspecifyRegisters_resumePc : s.unspecifyRegisters.resumePc = s.resumePc := rfl
@[simp] theorem unspecifyRegisters_resumeYield : s.unspecifyRegisters.resumeYield = s.resumeYield := rfl
@[simp] theorem unspecifyRegisters_response : s.unspecifyRegisters.response = s.response := rfl
@[simp] theorem unspecifyRegisters_hostPort : s.unspecifyRegisters.hostPort = s.hostPort := rfl
@[simp] theorem unspecifyRegisters_owner : s.unspecifyRegisters.owner = s.owner := rfl
@[simp] theorem unspecifyRegisters_draws : s.unspecifyRegisters.draws = s.draws + 1 := rfl

/-! ## Readers an update does not touch -/

@[simp] theorem setReg_pageValid (r : RegIdx) (v : Word) (q : Nat) :
    (s.setReg r v).pageValid q = s.pageValid q := rfl
@[simp] theorem setReg_blkWord (r : RegIdx) (v : Word) (q j : Nat) :
    (s.setReg r v).blkWord q j = s.blkWord q j := rfl
@[simp] theorem setReg_byteAt (r : RegIdx) (v : Word) (x : Resolution) :
    (s.setReg r v).byteAt x = s.byteAt x := rfl
@[simp] theorem setReg_readAddr (r : RegIdx) (v : Word) (x : Word) :
    (s.setReg r v).readAddr x = s.readAddr x := rfl
@[simp] theorem setReg_pageWord (r : RegIdx) (v : Word) (q j : Nat) :
    (s.setReg r v).pageWord q j = s.pageWord q j := rfl
@[simp] theorem setReg_openToCommands (r : RegIdx) (v : Word) :
    (s.setReg r v).openToCommands = s.openToCommands := rfl
@[simp] theorem setReg_runResult (r : RegIdx) (v : Word) : (s.setReg r v).runResult = s.runResult := rfl
@[simp] theorem invalidatePage_reg (p : Nat) (q : RegIdx) : (s.invalidatePage p).reg q = s.reg q := rfl
@[simp] theorem invalidatePage_blkWord (p : Nat) (q j : Nat) :
    (s.invalidatePage p).blkWord q j = s.blkWord q j := rfl
@[simp] theorem invalidatePage_byteAt (p : Nat) (x : Resolution) :
    (s.invalidatePage p).byteAt x = s.byteAt x := rfl
@[simp] theorem invalidatePage_readAddr (p : Nat) (x : Word) :
    (s.invalidatePage p).readAddr x = s.readAddr x := rfl
@[simp] theorem invalidatePage_pageWord (p : Nat) (q j : Nat) :
    (s.invalidatePage p).pageWord q j = s.pageWord q j := rfl
@[simp] theorem invalidatePage_openToCommands (p : Nat) :
    (s.invalidatePage p).openToCommands = s.openToCommands := rfl
@[simp] theorem invalidatePage_runResult (p : Nat) : (s.invalidatePage p).runResult = s.runResult := rfl
@[simp] theorem markValid_reg (p : Nat) (q : RegIdx) : (s.markValid p).reg q = s.reg q := rfl
@[simp] theorem markValid_blkWord (p : Nat) (q j : Nat) : (s.markValid p).blkWord q j = s.blkWord q j := rfl
@[simp] theorem markValid_byteAt (p : Nat) (x : Resolution) : (s.markValid p).byteAt x = s.byteAt x := rfl
@[simp] theorem markValid_readAddr (p : Nat) (x : Word) : (s.markValid p).readAddr x = s.readAddr x := rfl
@[simp] theorem markValid_pageWord (p : Nat) (q j : Nat) :
    (s.markValid p).pageWord q j = s.pageWord q j := rfl
@[simp] theorem markValid_openToCommands (p : Nat) : (s.markValid p).openToCommands = s.openToCommands := rfl
@[simp] theorem markValid_runResult (p : Nat) : (s.markValid p).runResult = s.runResult := rfl
@[simp] theorem charge_reg (w : Word) (q : RegIdx) : (s.charge w).reg q = s.reg q := rfl
@[simp] theorem charge_pageValid (w : Word) (q : Nat) : (s.charge w).pageValid q = s.pageValid q := rfl
@[simp] theorem charge_blkWord (w : Word) (q j : Nat) : (s.charge w).blkWord q j = s.blkWord q j := rfl
@[simp] theorem charge_byteAt (w : Word) (x : Resolution) : (s.charge w).byteAt x = s.byteAt x := rfl
@[simp] theorem charge_readAddr (w : Word) (x : Word) : (s.charge w).readAddr x = s.readAddr x := rfl
@[simp] theorem charge_pageWord (w : Word) (q j : Nat) : (s.charge w).pageWord q j = s.pageWord q j := rfl
@[simp] theorem charge_openToCommands (w : Word) : (s.charge w).openToCommands = s.openToCommands := rfl
@[simp] theorem requestCallback_reg (v a : Word) (k : StoreKind) (q : RegIdx) :
    (s.requestCallback v a k).reg q = s.reg q := rfl
@[simp] theorem requestCallback_pageValid (v a : Word) (k : StoreKind) (q : Nat) :
    (s.requestCallback v a k).pageValid q = s.pageValid q := rfl
@[simp] theorem requestCallback_blkWord (v a : Word) (k : StoreKind) (q j : Nat) :
    (s.requestCallback v a k).blkWord q j = s.blkWord q j := rfl
@[simp] theorem requestCallback_byteAt (v a : Word) (k : StoreKind) (x : Resolution) :
    (s.requestCallback v a k).byteAt x = s.byteAt x := rfl
@[simp] theorem requestCallback_readAddr (v a : Word) (k : StoreKind) (x : Word) :
    (s.requestCallback v a k).readAddr x = s.readAddr x := rfl
@[simp] theorem requestCallback_pageWord (v a : Word) (k : StoreKind) (q j : Nat) :
    (s.requestCallback v a k).pageWord q j = s.pageWord q j := rfl
@[simp] theorem requestCallback_runResult (v a : Word) (k : StoreKind) :
    (s.requestCallback v a k).runResult = s.runResult := rfl
@[simp] theorem faultStop_reg (c : FaultCode) (p : Word) (i a : Option Word) (b : Bool) (q : RegIdx) :
    (s.faultStop c p i a b).reg q = s.reg q := rfl
@[simp] theorem faultStop_pageValid (c : FaultCode) (p : Word) (i a : Option Word) (b : Bool) (q : Nat) :
    (s.faultStop c p i a b).pageValid q = s.pageValid q := rfl
@[simp] theorem faultStop_blkWord (c : FaultCode) (p : Word) (i a : Option Word) (b : Bool) (q j : Nat) :
    (s.faultStop c p i a b).blkWord q j = s.blkWord q j := rfl
@[simp] theorem faultStop_byteAt (c : FaultCode) (p : Word) (i a : Option Word) (b : Bool) (x : Resolution) :
    (s.faultStop c p i a b).byteAt x = s.byteAt x := rfl
@[simp] theorem faultStop_readAddr (c : FaultCode) (p : Word) (i a : Option Word) (b : Bool) (x : Word) :
    (s.faultStop c p i a b).readAddr x = s.readAddr x := rfl
@[simp] theorem faultStop_pageWord (c : FaultCode) (p : Word) (i a : Option Word) (b : Bool) (q j : Nat) :
    (s.faultStop c p i a b).pageWord q j = s.pageWord q j := rfl
@[simp] theorem faultStop_runResult (c : FaultCode) (p : Word) (i a : Option Word) (b : Bool) :
    (s.faultStop c p i a b).runResult = s.runResult := rfl
@[simp] theorem advance_reg (q : RegIdx) : s.advance.reg q = s.reg q := rfl
@[simp] theorem advance_pageValid (q : Nat) : s.advance.pageValid q = s.pageValid q := rfl
@[simp] theorem advance_blkWord (q j : Nat) : s.advance.blkWord q j = s.blkWord q j := rfl
@[simp] theorem advance_byteAt (x : Resolution) : s.advance.byteAt x = s.byteAt x := rfl
@[simp] theorem advance_readAddr (x : Word) : s.advance.readAddr x = s.readAddr x := rfl
@[simp] theorem advance_pageWord (q j : Nat) : s.advance.pageWord q j = s.pageWord q j := rfl
@[simp] theorem advance_openToCommands : s.advance.openToCommands = s.openToCommands := rfl
@[simp] theorem advance_runResult : s.advance.runResult = s.runResult := rfl
@[simp] theorem suspend_reg (n : Word) (b : Bool) (q : RegIdx) : (s.suspend n b).reg q = s.reg q := rfl
@[simp] theorem suspend_pageValid (n : Word) (b : Bool) (q : Nat) :
    (s.suspend n b).pageValid q = s.pageValid q := rfl
@[simp] theorem suspend_blkWord (n : Word) (b : Bool) (q j : Nat) :
    (s.suspend n b).blkWord q j = s.blkWord q j := rfl
@[simp] theorem suspend_byteAt (n : Word) (b : Bool) (x : Resolution) :
    (s.suspend n b).byteAt x = s.byteAt x := rfl
@[simp] theorem suspend_readAddr (n : Word) (b : Bool) (x : Word) :
    (s.suspend n b).readAddr x = s.readAddr x := rfl
@[simp] theorem suspend_pageWord (n : Word) (b : Bool) (q j : Nat) :
    (s.suspend n b).pageWord q j = s.pageWord q j := rfl
@[simp] theorem suspend_openToCommands (n : Word) (b : Bool) :
    (s.suspend n b).openToCommands = s.openToCommands := rfl
@[simp] theorem suspend_runResult (n : Word) (b : Bool) : (s.suspend n b).runResult = s.runResult := rfl
@[simp] theorem refuse_reg (r : Response) (q : RegIdx) : (s.refuse r).reg q = s.reg q := rfl
@[simp] theorem refuse_pageValid (r : Response) (q : Nat) : (s.refuse r).pageValid q = s.pageValid q := rfl
@[simp] theorem refuse_blkWord (r : Response) (q j : Nat) : (s.refuse r).blkWord q j = s.blkWord q j := rfl
@[simp] theorem refuse_byteAt (r : Response) (x : Resolution) : (s.refuse r).byteAt x = s.byteAt x := rfl
@[simp] theorem refuse_readAddr (r : Response) (x : Word) : (s.refuse r).readAddr x = s.readAddr x := rfl
@[simp] theorem refuse_pageWord (r : Response) (q j : Nat) : (s.refuse r).pageWord q j = s.pageWord q j := rfl
@[simp] theorem refuse_openToCommands (r : Response) : (s.refuse r).openToCommands = s.openToCommands := rfl
@[simp] theorem refuse_runResult (r : Response) : (s.refuse r).runResult = s.runResult := rfl
@[simp] theorem answer_reg (r : Response) (q : RegIdx) : (s.answer r).reg q = s.reg q := rfl
@[simp] theorem answer_pageValid (r : Response) (q : Nat) : (s.answer r).pageValid q = s.pageValid q := rfl
@[simp] theorem answer_blkWord (r : Response) (q j : Nat) : (s.answer r).blkWord q j = s.blkWord q j := rfl
@[simp] theorem answer_byteAt (r : Response) (x : Resolution) : (s.answer r).byteAt x = s.byteAt x := rfl
@[simp] theorem answer_readAddr (r : Response) (x : Word) : (s.answer r).readAddr x = s.readAddr x := rfl
@[simp] theorem answer_pageWord (r : Response) (q j : Nat) : (s.answer r).pageWord q j = s.pageWord q j := rfl
@[simp] theorem answer_openToCommands (r : Response) : (s.answer r).openToCommands = s.openToCommands := rfl
@[simp] theorem answer_runResult (r : Response) : (s.answer r).runResult = s.runResult := rfl
@[simp] theorem translate_reg (p : Nat) (q : RegIdx) : (s.translate p).reg q = s.reg q := rfl
@[simp] theorem translate_byteAt (p : Nat) (x : Resolution) : (s.translate p).byteAt x = s.byteAt x := rfl
@[simp] theorem translate_readAddr (p : Nat) (x : Word) : (s.translate p).readAddr x = s.readAddr x := rfl
@[simp] theorem translate_pageWord (p : Nat) (q j : Nat) :
    (s.translate p).pageWord q j = s.pageWord q j := rfl
@[simp] theorem translate_openToCommands (p : Nat) : (s.translate p).openToCommands = s.openToCommands := rfl
@[simp] theorem translate_runResult (p : Nat) : (s.translate p).runResult = s.runResult := rfl
@[simp] theorem startRun_reg (n : Word) (q : RegIdx) : (s.startRun n).reg q = s.reg q := rfl
@[simp] theorem startRun_pageValid (n : Word) (q : Nat) : (s.startRun n).pageValid q = s.pageValid q := rfl
@[simp] theorem startRun_blkWord (n : Word) (q j : Nat) : (s.startRun n).blkWord q j = s.blkWord q j := rfl
@[simp] theorem startRun_byteAt (n : Word) (x : Resolution) : (s.startRun n).byteAt x = s.byteAt x := rfl
@[simp] theorem startRun_readAddr (n : Word) (x : Word) : (s.startRun n).readAddr x = s.readAddr x := rfl
@[simp] theorem startRun_pageWord (n : Word) (q j : Nat) : (s.startRun n).pageWord q j = s.pageWord q j := rfl
@[simp] theorem endRun_reg (q : RegIdx) : s.endRun.reg q = s.reg q := rfl
@[simp] theorem endRun_pageValid (q : Nat) : s.endRun.pageValid q = s.pageValid q := rfl
@[simp] theorem endRun_blkWord (q j : Nat) : s.endRun.blkWord q j = s.blkWord q j := rfl
@[simp] theorem endRun_byteAt (x : Resolution) : s.endRun.byteAt x = s.byteAt x := rfl
@[simp] theorem endRun_readAddr (x : Word) : s.endRun.readAddr x = s.readAddr x := rfl
@[simp] theorem endRun_pageWord (q j : Nat) : s.endRun.pageWord q j = s.pageWord q j := rfl
@[simp] theorem endRun_runResult : s.endRun.runResult = s.runResult := rfl
@[simp] theorem adoptReply_reg (c : Word) (q : RegIdx) : (s.adoptReply c).reg q = s.reg q := rfl
@[simp] theorem adoptReply_pageValid (c : Word) (q : Nat) :
    (s.adoptReply c).pageValid q = s.pageValid q := rfl
@[simp] theorem adoptReply_blkWord (c : Word) (q j : Nat) :
    (s.adoptReply c).blkWord q j = s.blkWord q j := rfl
@[simp] theorem adoptReply_byteAt (c : Word) (x : Resolution) : (s.adoptReply c).byteAt x = s.byteAt x := rfl
@[simp] theorem adoptReply_readAddr (c : Word) (x : Word) : (s.adoptReply c).readAddr x = s.readAddr x := rfl
@[simp] theorem adoptReply_pageWord (c : Word) (q j : Nat) :
    (s.adoptReply c).pageWord q j = s.pageWord q j := rfl
@[simp] theorem unspecifyRegisters_pageValid (q : Nat) :
    s.unspecifyRegisters.pageValid q = s.pageValid q := rfl
@[simp] theorem unspecifyRegisters_blkWord (q j : Nat) :
    s.unspecifyRegisters.blkWord q j = s.blkWord q j := rfl
@[simp] theorem unspecifyRegisters_byteAt (x : Resolution) : s.unspecifyRegisters.byteAt x = s.byteAt x := rfl
@[simp] theorem unspecifyRegisters_readAddr (x : Word) : s.unspecifyRegisters.readAddr x = s.readAddr x := rfl
@[simp] theorem unspecifyRegisters_pageWord (q j : Nat) :
    s.unspecifyRegisters.pageWord q j = s.pageWord q j := rfl

end Sys2Proof.Machine
end

