-- ==== Sys2Proof/Laws/Registers.lean ====
section
/-! SUPPORT. Registers: what a read after a write gives, and `x[0]` (R20, R21). -/
namespace Sys2Proof.Machine

@[simp] theorem readRegs_zero (regs : Vector Word 31) : readRegs regs 0#5 = 0#32 := by simp [readRegs]

/-- A read after a write, for every register; a write to `x[0]` is dropped (R21). -/
theorem readRegs_writeRegs (regs : Vector Word 31) (r q : RegIdx) (v : Word) :
    readRegs (writeRegs regs r v) q = if q = 0#5 then 0#32 else if q = r then v else readRegs regs q := by
  by_cases hq : q = 0#5
  · simp [hq]
  · by_cases hr : r = 0#5
    · subst hr
      simp [writeRegs, hq]
    · have hq' : q.toNat ≠ 0 := fun h => hq (BitVec.eq_of_toNat_eq (by simpa using h))
      have hr' : r.toNat ≠ 0 := fun h => hr (BitVec.eq_of_toNat_eq (by simpa using h))
      have hqr : q = r ↔ q.toNat = r.toNat := ⟨fun h => by rw [h], BitVec.eq_of_toNat_eq⟩
      simp only [readRegs, writeRegs, hq, hr, if_false, hqr, Vector.getElem_set]
      by_cases h : q.toNat = r.toNat
      · simp [h]
      · have : ¬ r.toNat - 1 = q.toNat - 1 := by omega
        simp [h, this]

@[simp] theorem writeRegs_zero (regs : Vector Word 31) (v : Word) : writeRegs regs 0#5 v = regs := by
  simp [writeRegs]

@[simp] theorem reg_zero (s : State) : s.reg 0#5 = 0#32 := readRegs_zero _

/-- `x[q]` after `x[r] <- v` (R15, R21). -/
theorem reg_setReg (s : State) (r q : RegIdx) (v : Word) :
    (s.setReg r v).reg q = if q = 0#5 then 0#32 else if q = r then v else s.reg q :=
  readRegs_writeRegs s.regs r q v

@[simp] theorem setReg_zero (s : State) (v : Word) : s.setReg 0#5 v = s := by
  simp [State.setReg]

end Sys2Proof.Machine
end

