-- ==== Sys2Proof/Laws/Router.lean ====
section
/-! SUPPORT. The router in arithmetic, under any legal parameters (R13, R60 to R68): the masked address, the
bounds of an offset, and what the neighbours of an address resolve to. -/
namespace Sys2Proof.Machine

variable {c : Params}

/-- The defaults meet every constraint (R13). -/
theorem specDefault_legal : Params.specDefault.Legal where
  shift := by decide
  ramWhole := by decide
  romWhole := by decide
  romAligned := by decide
  scratchAligned := by decide
  ramBelowScratch := by decide
  ramBelowRom := by decide
  scratchOffRom := by decide
  masks := by decide
  cost := fun _ => Nat.le_refl 1

/-! ## Pages -/

/-- The legal page sizes: 4 bytes to 512 KiB (R13 a). -/
theorem legal_shift (hl : c.Legal) : 2 ≤ c.pageShift ∧ c.pageShift ≤ 19 := by
  refine ⟨hl.shift, ?_⟩
  have h := hl.romWhole
  rw [show Config.romBytes = 2 ^ 19 by rfl, Params.pageBytes] at h
  exact (Nat.pow_dvd_pow_iff_le_right (by omega)).1 h

theorem pageBytes_pos (c : Params) : 0 < c.pageBytes := Nat.two_pow_pos _

/-- A page is whole words, and a region of the address space whole pages. -/
theorem pageBytes_dvd (hl : c.Legal) : 4 ∣ c.pageBytes ∧ c.pageBytes ∣ 536870912 := by
  obtain ⟨h2, h19⟩ := legal_shift hl
  exact ⟨Nat.pow_dvd_pow 2 h2, (Nat.pow_dvd_pow 2 h19).trans (by decide)⟩

/-- A page's words make up its bytes (R10). -/
theorem pageInstrs_mul (hl : c.Legal) : 4 * c.pageInstrs = c.pageBytes := Nat.mul_div_cancel' (pageBytes_dvd hl).1

/-- RAM's pages make up RAM (R10). -/
theorem ramPages_mul (hl : c.Legal) : c.ramPages * c.pageBytes = 2097152 := Nat.div_mul_cancel hl.ramWhole

/-- ROM's pages make up ROM (R10). -/
theorem romPages_mul (hl : c.Legal) : c.romPages * c.pageBytes = 524288 := Nat.div_mul_cancel hl.romWhole

/-- The alignment of ROM and the scratchpad, to words (R13 b). -/
theorem bases_mod_four (hl : c.Legal) : c.romBase.toNat % 4 = 0 ∧ c.scratchBase.toNat % 4 = 0 :=
  ⟨Nat.mod_eq_zero_of_dvd ((pageBytes_dvd hl).1.trans hl.romAligned), Nat.mod_eq_zero_of_dvd hl.scratchAligned⟩

/-- Two numbers in the same word are in the same page. -/
theorem div_pageBytes_congr (hl : c.Legal) {m n : Nat} (h : m / 4 = n / 4) : m / c.pageBytes = n / c.pageBytes := by
  rw [← pageInstrs_mul hl, ← Nat.div_div_eq_div_mul, ← Nat.div_div_eq_div_mul, h]

/-- The low bits that name the place in a page include those that name the place in a word. -/
theorem mod_pageBytes_mod (hl : c.Legal) (m : Nat) : m % c.pageBytes % 4 = m % 4 :=
  Nat.mod_mod_of_dvd m (pageBytes_dvd hl).1

/-! ## The masked address -/

/-- The masks leave the low 29 bits alone (R13 d). -/
theorem maskAddress_mod (hl : c.Legal) (a : Word) : (maskAddress c a).toNat % 536870912 = a.toNat % 536870912 := by
  have hm := congrArg BitVec.toNat (hl.masks (a.extractLsb' 29 3))
  rw [BitVec.toNat_and, show (0x1FFFFFFF#32).toNat = 2 ^ 29 - 1 by rfl, Nat.and_two_pow_sub_one_eq_mod] at hm
  rw [maskAddress, BitVec.toNat_and, show 536870912 = 2 ^ 29 by rfl, Nat.and_mod_two_pow, hm,
    Nat.and_two_pow_sub_one_eq_mod, Nat.mod_mod]

/-- The masked address of a neighbour in the same aligned block of `2^29` bytes. -/
theorem toNat_maskAddress_add (hl : c.Legal) (a : Word) (k : Nat) (h : a.toNat % 536870912 + k < 536870912) :
    (maskAddress c (a + BitVec.ofNat 32 k)).toNat = (maskAddress c a).toNat + k := by
  have := a.isLt
  have e : (a + BitVec.ofNat 32 k).toNat = a.toNat + k := by
    rw [BitVec.toNat_add, BitVec.toNat_ofNat]
    omega
  have hr : (a + BitVec.ofNat 32 k).extractLsb' 29 3 = a.extractLsb' 29 3 := by
    apply BitVec.eq_of_toNat_eq
    rw [BitVec.extractLsb'_toNat, BitVec.extractLsb'_toNat, e, Nat.shiftRight_eq_div_pow, Nat.shiftRight_eq_div_pow]
    omega
  have hhi : (maskAddress c (a + BitVec.ofNat 32 k)).toNat / 536870912 = (maskAddress c a).toNat / 536870912 := by
    rw [maskAddress, maskAddress, hr, BitVec.toNat_and, BitVec.toNat_and, show 536870912 = 2 ^ 29 by rfl,
      Nat.and_div_two_pow, Nat.and_div_two_pow, e]
    congr 1
    omega
  have h1 := maskAddress_mod hl (a + BitVec.ofNat 32 k)
  have h2 := maskAddress_mod hl a
  rw [e] at h1
  omega

/-! ## What an address resolves to -/

/-- The extents in numbers (R63 to R66). -/
theorem rangeCheck_eq (c : Params) (m : Nat) :
    rangeCheck c m =
      if m < 2097152 then .ram m (m / c.pageBytes)
      else if c.scratchBase.toNat ≤ m ∧ m < c.scratchBase.toNat + 1024 then .scratch (m - c.scratchBase.toNat)
      else if c.romBase.toNat ≤ m ∧ m < c.romBase.toNat + 524288 then
        .rom (m - c.romBase.toNat) (c.ramPages + (m - c.romBase.toNat) / c.pageBytes)
      else .unmapped := by
  simp [rangeCheck, Config.ramBase, Config.ramBytes, Config.scratchBytes, Config.romBytes, Params.pageBytes,
    Nat.shiftRight_eq_div_pow]

/-- RAM: the offset is the masked address (R64, R65). -/
theorem resolve_eq_ram {a : Word} {off page : Nat} :
    resolve c a = .ram off page ↔ (maskAddress c a).toNat = off ∧ off < 2097152 ∧ page = off / c.pageBytes := by
  unfold resolve
  rw [rangeCheck_eq]
  split
  · rw [Resolution.ram.injEq]
    constructor
    · rintro ⟨rfl, rfl⟩
      exact ⟨rfl, ‹_›, rfl⟩
    · rintro ⟨rfl, -, rfl⟩
      exact ⟨rfl, rfl⟩
  · split
    · simp
      omega
    · split
      · simp
        omega
      · simp
        omega

/-- The scratchpad (R64, R66). -/
theorem resolve_eq_scratch {a : Word} {off : Nat} :
    resolve c a = .scratch off ↔
      (maskAddress c a).toNat = c.scratchBase.toNat + off ∧ off < 1024 ∧ 2097152 ≤ (maskAddress c a).toNat := by
  unfold resolve
  rw [rangeCheck_eq]
  split
  · simp
    omega
  · split
    · rw [Resolution.scratch.injEq]
      omega
    · split
      · simp
        omega
      · simp
        omega

/-- ROM (R64, R65). -/
theorem resolve_eq_rom {a : Word} {off page : Nat} :
    resolve c a = .rom off page ↔
      (maskAddress c a).toNat = c.romBase.toNat + off ∧ off < 524288 ∧ page = c.ramPages + off / c.pageBytes ∧
      2097152 ≤ (maskAddress c a).toNat ∧
      ¬(c.scratchBase.toNat ≤ (maskAddress c a).toNat ∧ (maskAddress c a).toNat < c.scratchBase.toNat + 1024) := by
  unfold resolve
  rw [rangeCheck_eq]
  split
  · simp
    omega
  · split
    · simp
      omega
    · split
      · rw [Resolution.rom.injEq]
        constructor
        · rintro ⟨rfl, rfl⟩
          exact ⟨by omega, by omega, rfl, by omega, by omega⟩
        · rintro ⟨h, -, rfl, -, -⟩
          rw [h, Nat.add_sub_cancel_left]
          exact ⟨rfl, rfl⟩
      · simp
        omega

/-- Unmapped: in none of the extents (R63). -/
theorem resolve_eq_unmapped {a : Word} :
    resolve c a = .unmapped ↔
      ¬(maskAddress c a).toNat < 2097152 ∧
      ¬(c.scratchBase.toNat ≤ (maskAddress c a).toNat ∧ (maskAddress c a).toNat < c.scratchBase.toNat + 1024) ∧
      ¬(c.romBase.toNat ≤ (maskAddress c a).toNat ∧ (maskAddress c a).toNat < c.romBase.toNat + 524288) := by
  unfold resolve
  rw [rangeCheck_eq]
  split
  · simp
    omega
  · split
    · simp
      omega
    · split
      · simp
        omega
      · simp
        omega

/-- An offset keeps its address's place in a page and in a word: RAM (R13 b, R65). -/
theorem ram_off_mod (hl : c.Legal) {a : Word} {off page : Nat} (h : resolve c a = .ram off page) :
    off % c.pageBytes = a.toNat % c.pageBytes ∧ off % 4 = a.toNat % 4 := by
  obtain ⟨rfl, -⟩ := resolve_eq_ram.1 h
  have hm := maskAddress_mod hl a
  refine ⟨?_, by omega⟩
  rw [← Nat.mod_mod_of_dvd _ (pageBytes_dvd hl).2, hm, Nat.mod_mod_of_dvd _ (pageBytes_dvd hl).2]

/-- An offset keeps its address's place in a word: the scratchpad. -/
theorem scratch_off_mod (hl : c.Legal) {a : Word} {off : Nat} (h : resolve c a = .scratch off) :
    off % 4 = a.toNat % 4 := by
  have := (resolve_eq_scratch.1 h).1
  have := maskAddress_mod hl a
  have := bases_mod_four hl
  omega

/-- An offset keeps its address's place in a page and in a word: ROM. -/
theorem rom_off_mod (hl : c.Legal) {a : Word} {off page : Nat} (h : resolve c a = .rom off page) :
    off % c.pageBytes = a.toNat % c.pageBytes ∧ off % 4 = a.toNat % 4 := by
  have h1 := (resolve_eq_rom.1 h).1
  have hm := maskAddress_mod hl a
  have := bases_mod_four hl
  refine ⟨?_, by omega⟩
  rw [← Nat.mod_mod_of_dvd a.toNat (pageBytes_dvd hl).2, ← hm, Nat.mod_mod_of_dvd _ (pageBytes_dvd hl).2, h1]
  obtain ⟨r, hr⟩ := hl.romAligned
  rw [hr, Nat.mul_add_mod]

/-- A byte further on in RAM, inside the same word. -/
theorem resolve_add_ram (hl : c.Legal) {a : Word} {off page k : Nat} (h : resolve c a = .ram off page)
    (hk : a.toNat % 4 + k < 4) : resolve c (a + BitVec.ofNat 32 k) = .ram (off + k) page := by
  have h4 := (ram_off_mod hl h).2
  rw [resolve_eq_ram] at h ⊢
  rw [toNat_maskAddress_add hl a k (by omega), div_pageBytes_congr hl (show (off + k) / 4 = off / 4 by omega)]
  omega

/-- A byte further on in the scratchpad, inside the same word. -/
theorem resolve_add_scratch (hl : c.Legal) {a : Word} {off k : Nat} (h : resolve c a = .scratch off)
    (hk : a.toNat % 4 + k < 4) : resolve c (a + BitVec.ofNat 32 k) = .scratch (off + k) := by
  have h4 := scratch_off_mod hl h
  rw [resolve_eq_scratch] at h ⊢
  rw [toNat_maskAddress_add hl a k (by omega)]
  omega

/-- A byte further on in ROM, inside the same word. -/
theorem resolve_add_rom (hl : c.Legal) {a : Word} {off page k : Nat} (h : resolve c a = .rom off page)
    (hk : a.toNat % 4 + k < 4) : resolve c (a + BitVec.ofNat 32 k) = .rom (off + k) page := by
  have h4 := (rom_off_mod hl h).2
  have := bases_mod_four hl
  rw [resolve_eq_rom] at h ⊢
  rw [toNat_maskAddress_add hl a k (by omega), div_pageBytes_congr hl (show (off + k) / 4 = off / 4 by omega)]
  omega

/-- A byte further on outside every region, inside the same word. -/
theorem resolve_add_unmapped (hl : c.Legal) {a : Word} {k : Nat} (h : resolve c a = .unmapped)
    (hk : a.toNat % 4 + k < 4) : resolve c (a + BitVec.ofNat 32 k) = .unmapped := by
  have := bases_mod_four hl
  have := maskAddress_mod hl a
  rw [resolve_eq_unmapped] at h ⊢
  rw [toNat_maskAddress_add hl a k (by omega)]
  omega

/-- Only the offset tells two RAM addresses apart (R68). -/
theorem ram_bounds {a : Word} {off page : Nat} (h : resolve c a = .ram off page) :
    off < 2097152 ∧ page = off / c.pageBytes := (resolve_eq_ram.1 h).2

theorem scratch_bounds {a : Word} {off : Nat} (h : resolve c a = .scratch off) : off < 1024 :=
  (resolve_eq_scratch.1 h).2.1

theorem rom_bounds {a : Word} {off page : Nat} (h : resolve c a = .rom off page) :
    off < 524288 ∧ page = c.ramPages + off / c.pageBytes :=
  ⟨(resolve_eq_rom.1 h).2.1, (resolve_eq_rom.1 h).2.2.1⟩

/-- A RAM address's page is one of RAM's (R65). -/
theorem ram_page_lt (hl : c.Legal) {a : Word} {off page : Nat} (h : resolve c a = .ram off page) :
    page < c.ramPages := by
  obtain ⟨ho, rfl⟩ := ram_bounds h
  exact Nat.div_lt_of_lt_mul (by rw [Nat.mul_comm, ramPages_mul hl]; exact ho)

/-- A ROM address's page is one of ROM's (R65). -/
theorem rom_page_lt (hl : c.Legal) {a : Word} {off page : Nat} (h : resolve c a = .rom off page) :
    c.ramPages ≤ page ∧ page < c.totalPages := by
  obtain ⟨ho, rfl⟩ := rom_bounds h
  have : off / c.pageBytes < c.romPages :=
    Nat.div_lt_of_lt_mul (by rw [Nat.mul_comm, romPages_mul hl]; exact ho)
  exact ⟨Nat.le_add_right _ _, Nat.add_lt_add_left this _⟩

/-- The page index of a RAM address is one of the validity table (R65, R83). -/
theorem ram_page_total (hl : c.Legal) {a : Word} {off page : Nat} (h : resolve c a = .ram off page) :
    page < c.totalPages := Nat.lt_of_lt_of_le (ram_page_lt hl h) (Nat.le_add_right _ _)

/-- The place of an instruction in its page is one of the page's words (R65, R186). -/
theorem slotIndex_lt (hl : c.Legal) (a : Word) : slotIndex c a < c.pageInstrs := by
  have := Nat.mod_lt a.toNat (pageBytes_pos c)
  have := pageInstrs_mul hl
  unfold slotIndex
  omega

/-- The pages executed from are those of the validity table (R65, R83). -/
theorem pageOf_lt (hl : c.Legal) {a : Word} {p : Nat} (h : pageOf c a = some p) : p < c.totalPages := by
  unfold pageOf at h
  split at h
  · rename_i e
    cases h
    exact ram_page_total hl e
  · cases h
  · rename_i e
    cases h
    exact (rom_page_lt hl e).2
  · cases h

/-- The page executed from, in numbers (R65, R66). -/
theorem pageOf_eq (hl : c.Legal) (a : Word) :
    pageOf c a = if (maskAddress c a).toNat < 2097152 then some ((maskAddress c a).toNat / c.pageBytes)
      else if c.romBase.toNat ≤ (maskAddress c a).toNat ∧ (maskAddress c a).toNat < c.romBase.toNat + 524288 then
        some (c.ramPages + ((maskAddress c a).toNat - c.romBase.toNat) / c.pageBytes)
      else none := by
  have hd := hl.scratchOffRom
  simp only [Config.scratchBytes, Config.romBytes] at hd
  unfold pageOf
  split
  · rename_i e
    obtain ⟨rfl, h, rfl⟩ := resolve_eq_ram.1 e
    rw [if_pos h]
  · rename_i e
    have := resolve_eq_scratch.1 e
    rw [if_neg (by omega), if_neg (by omega)]
  · rename_i e
    obtain ⟨h, h', rfl, h2, -⟩ := resolve_eq_rom.1 e
    rw [if_neg (by omega), if_pos (by omega), h, Nat.add_sub_cancel_left]
  · rename_i e
    have := resolve_eq_unmapped.1 e
    rw [if_neg (by omega), if_neg (by omega)]

/-- The next word is in the same page unless it is a page's first (R186). -/
theorem pageOf_add_four (hl : c.Legal) {a : Word} (h4 : a.toNat % 4 = 0) (h : slotIndex c (a + 4#32) ≠ 0) :
    pageOf c (a + 4#32) = pageOf c a := by
  have ha := a.isLt
  obtain ⟨d4, d29⟩ := pageBytes_dvd hl
  have hP := pageBytes_pos c
  have hmod := maskAddress_mod hl a
  have hsame : a.toNat % c.pageBytes + 4 < c.pageBytes := by
    by_contra hc
    apply h
    have hz : (a.toNat + 4) % c.pageBytes = 0 := by
      have hlt := Nat.mod_lt a.toNat hP
      have := mod_pageBytes_mod hl a.toNat
      have he : a.toNat % c.pageBytes + 4 = c.pageBytes := by omega
      rw [Nat.add_mod, ← Nat.mod_add_mod, Nat.mod_mod, Nat.add_mod_mod, he, Nat.mod_self]
    have hw : (a + 4#32).toNat % c.pageBytes = 0 := by
      rw [BitVec.toNat_add, Nat.mod_mod_of_dvd _ (d29.trans (by decide))]
      exact hz
    unfold slotIndex
    rw [hw]
  have hin : a.toNat % 536870912 + 4 < 536870912 := by
    obtain ⟨q, hq⟩ := d29
    have h1 : a.toNat % 536870912 % c.pageBytes = a.toNat % c.pageBytes := Nat.mod_mod_of_dvd _ ⟨q, hq⟩
    have h2 := Nat.div_add_mod (a.toNat % 536870912) c.pageBytes
    have h3 : a.toNat % 536870912 / c.pageBytes < q :=
      Nat.div_lt_of_lt_mul (by rw [← hq]; exact Nat.mod_lt _ (by omega))
    have h5 := Nat.mul_le_mul_left c.pageBytes (Nat.succ_le_of_lt h3)
    rw [Nat.mul_succ] at h5
    omega
  have hmm : (maskAddress c a).toNat % c.pageBytes = a.toNat % c.pageBytes := by
    rw [← Nat.mod_mod_of_dvd _ d29, hmod, Nat.mod_mod_of_dvd _ d29]
  rw [pageOf_eq hl, pageOf_eq hl, show 4#32 = BitVec.ofNat 32 4 from rfl, toNat_maskAddress_add hl a 4 hin]
  generalize (maskAddress c a).toNat = m at hmm ⊢
  rw [← hmm] at hsame
  -- a bound that is a whole number of pages does not fall between `m` and `m + 4`
  have key : ∀ b, c.pageBytes ∣ b → (m + 4 < b ↔ m < b) := by
    rintro b ⟨q, rfl⟩
    refine ⟨fun h => by omega, fun h => ?_⟩
    have h2 := Nat.div_add_mod m c.pageBytes
    have h5 := Nat.mul_le_mul_left c.pageBytes (Nat.succ_le_of_lt (Nat.div_lt_of_lt_mul h))
    rw [Nat.mul_succ] at h5
    omega
  have div : ∀ b, c.pageBytes ∣ b → b ≤ m → (m + 4 - b) / c.pageBytes = (m - b) / c.pageBytes := by
    rintro b ⟨q, rfl⟩ hb
    obtain ⟨n, rfl⟩ := Nat.exists_eq_add_of_le hb
    rw [Nat.mul_add_mod] at hsame
    rw [show c.pageBytes * q + n + 4 - c.pageBytes * q = n + 4 by omega,
      show c.pageBytes * q + n - c.pageBytes * q = n by omega]
    have h2 := Nat.div_add_mod n c.pageBytes
    rw [show n + 4 = n % c.pageBytes + 4 + c.pageBytes * (n / c.pageBytes) by omega, Nat.add_mul_div_left _ _ hP,
      Nat.div_eq_of_lt hsame, Nat.zero_add]
  have k1 := key 2097152 hl.ramWhole
  have k2 := key _ hl.romAligned
  have k3 := key (c.romBase.toNat + 524288) ((Nat.dvd_add_iff_right hl.romAligned).1 hl.romWhole)
  by_cases h1 : m < 2097152
  · rw [if_pos h1, if_pos (k1.2 h1)]
    exact congrArg some (div 0 (Nat.dvd_zero _) (Nat.zero_le _))
  · rw [if_neg h1, if_neg (by omega)]
    by_cases h2 : c.romBase.toNat ≤ m ∧ m < c.romBase.toNat + 524288
    · rw [if_pos h2, if_pos (by omega), div _ hl.romAligned h2.1]
    · rw [if_neg h2, if_neg (by omega)]

/-! ## The defaults (R62) -/

/-- The masked address in numbers under the default masks: bit 31 cleared in region 4, bits 31 to 29 in region
5 (R62). -/
theorem toNat_maskAddress_default (a : Word) :
    (maskAddress Params.specDefault a).toNat =
      if a.toNat / 536870912 = 4 then a.toNat - 2147483648
      else if a.toNat / 536870912 = 5 then a.toNat - 2684354560 else a.toNat := by
  have hr : (a.extractLsb' 29 3).toNat = a.toNat / 536870912 := by
    have := a.isLt
    simp only [BitVec.extractLsb'_toNat, Nat.shiftRight_eq_div_pow]
    omega
  have hk : ∀ r : BitVec 3, Params.specDefault.mask r =
      if r.toNat = 4 then 0x7FFFFFFF#32 else if r.toNat = 5 then 0x1FFFFFFF#32 else 0xFFFFFFFF#32 := by decide
  have := a.isLt
  unfold maskAddress
  rw [hk, hr]
  split
  · rename_i h
    rw [BitVec.toNat_and, show (0x7FFFFFFF#32).toNat = 2 ^ 31 - 1 by rfl, Nat.and_two_pow_sub_one_eq_mod]
    omega
  · split
    · rename_i h
      rw [BitVec.toNat_and, show (0x1FFFFFFF#32).toNat = 2 ^ 29 - 1 by rfl, Nat.and_two_pow_sub_one_eq_mod]
      omega
    · rw [BitVec.toNat_and, show (0xFFFFFFFF#32).toNat = 2 ^ 32 - 1 by rfl, Nat.and_two_pow_sub_one_eq_mod]
      omega

end Sys2Proof.Machine
end

