-- ==== Sys2Proof/Laws/Sparse.lean ====
section
/-! SUPPORT. Sparse tables: what a read after a write gives, and that a write keeps the canonical form. -/
namespace Sys2Proof.Machine

variable {α : Type}

theorem sparseGet_erase (d : α) (m : List (Nat × α)) (k j : Nat) :
    sparseGet d (sparseErase m k) j = if j = k then d else sparseGet d m j := by
  induction m with
  | nil => simp [sparseErase, sparseGet]
  | cons c r ih =>
    obtain ⟨a, b⟩ := c
    by_cases h : a = k
    · subst h
      rw [show sparseErase ((a, b) :: r) a = sparseErase r a by simp [sparseErase], ih]
      by_cases hj : a = j
      · simp [hj]
      · simp [sparseGet, hj]
    · by_cases hj : a = j
      · subst hj
        simp [sparseErase, sparseGet, h]
      · simp [sparseErase, sparseGet, h, hj, ih]

theorem not_mem_sparseErase (m : List (Nat × α)) (k : Nat) : ∀ c ∈ sparseErase m k, c.1 ≠ k := by
  induction m with
  | nil => simp [sparseErase]
  | cons c r ih =>
    obtain ⟨a, b⟩ := c
    by_cases h : a = k
    · simpa [sparseErase, h] using ih
    · simpa [sparseErase, h] using ih

theorem sparseGet_insert (d : α) (m : List (Nat × α)) (k j : Nat) (v : α) (h : ∀ c ∈ m, c.1 ≠ k) :
    sparseGet d (sparseInsert m k v) j = if j = k then v else sparseGet d m j := by
  induction m with
  | nil => simp [sparseInsert, sparseGet, eq_comm]
  | cons c r ih =>
    obtain ⟨a, b⟩ := c
    have ha : a ≠ k := h (a, b) (by simp)
    have hr : ∀ c ∈ r, c.1 ≠ k := fun c hc => h c (by simp [hc])
    by_cases hk : k < a
    · simp [sparseInsert, hk, sparseGet, eq_comm]
    · by_cases hj : a = j
      · subst hj
        simp [sparseInsert, hk, sparseGet, ha]
      · simp [sparseInsert, hk, sparseGet, hj, ih hr]

/-- A read after a write, for every table and every key: no canonical form is needed. -/
theorem sparseGet_put [DecidableEq α] (d : α) (m : List (Nat × α)) (k j : Nat) (v : α) :
    sparseGet d (sparsePut d m k v) j = if j = k then v else sparseGet d m j := by
  unfold sparsePut
  split
  · rename_i hv
    rw [sparseGet_erase, hv]
  · rw [sparseGet_insert _ _ _ _ _ (not_mem_sparseErase m k), sparseGet_erase]
    split <;> simp_all

theorem mem_sparseErase {m : List (Nat × α)} {k : Nat} {c : Nat × α} (h : c ∈ sparseErase m k) : c ∈ m := by
  induction m with
  | nil => simp [sparseErase] at h
  | cons e r ih =>
    obtain ⟨a, b⟩ := e
    by_cases ha : a = k
    · simp only [sparseErase, ha, if_true] at h
      exact List.mem_cons_of_mem _ (ih h)
    · simp only [sparseErase, ha, if_false, List.mem_cons] at h
      exact h.elim (fun h => by simp [h]) fun h => List.mem_cons_of_mem _ (ih h)

theorem mem_sparseInsert {m : List (Nat × α)} {k : Nat} {v : α} {c : Nat × α} (h : c ∈ sparseInsert m k v) :
    c = (k, v) ∨ c ∈ m := by
  induction m with
  | nil => simpa [sparseInsert] using h
  | cons e r ih =>
    obtain ⟨a, b⟩ := e
    by_cases ha : k < a
    · simpa [sparseInsert, ha] using h
    · simp only [sparseInsert, ha, if_false, List.mem_cons] at h
      rcases h with h | h
      · simp [h]
      · exact (ih h).imp id fun h => List.mem_cons_of_mem _ h

theorem pairwise_sparseErase {m : List (Nat × α)} {k : Nat} (h : m.Pairwise (fun a b => a.1 < b.1)) :
    (sparseErase m k).Pairwise (fun a b => a.1 < b.1) := by
  induction m with
  | nil => simp [sparseErase]
  | cons e r ih =>
    obtain ⟨a, b⟩ := e
    rw [List.pairwise_cons] at h
    by_cases ha : a = k
    · simpa [sparseErase, ha] using ih h.2
    · simp only [sparseErase, ha, if_false, List.pairwise_cons]
      exact ⟨fun c hc => h.1 c (mem_sparseErase hc), ih h.2⟩

theorem pairwise_sparseInsert {m : List (Nat × α)} {k : Nat} {v : α} (h : m.Pairwise (fun a b => a.1 < b.1))
    (hk : ∀ c ∈ m, c.1 ≠ k) : (sparseInsert m k v).Pairwise (fun a b => a.1 < b.1) := by
  induction m with
  | nil => simp [sparseInsert]
  | cons e r ih =>
    obtain ⟨a, b⟩ := e
    have hak : a ≠ k := hk (a, b) (by simp)
    have hr : ∀ c ∈ r, c.1 ≠ k := fun c hc => hk c (by simp [hc])
    rw [List.pairwise_cons] at h
    by_cases ha : k < a
    · simp only [sparseInsert, ha, if_true, List.pairwise_cons, List.mem_cons]
      refine ⟨?_, h⟩
      rintro c (rfl | hc)
      · exact ha
      · exact lt_trans ha (h.1 c hc)
    · simp only [sparseInsert, ha, if_false, List.pairwise_cons]
      refine ⟨fun c hc => ?_, ih h.2 hr⟩
      rcases mem_sparseInsert hc with rfl | hc
      · simp only
        omega
      · exact h.1 c hc

/-- A write below the bound keeps the canonical form. -/
theorem sparseWf_put [DecidableEq α] {d : α} {bound : Nat} {m : List (Nat × α)} {k : Nat} {v : α} (h : sparseWf d bound m)
    (hk : k < bound) : sparseWf d bound (sparsePut d m k v) := by
  obtain ⟨hp, hb⟩ := h
  unfold sparsePut
  split
  · exact ⟨pairwise_sparseErase hp, fun c hc => hb c (mem_sparseErase hc)⟩
  · rename_i hv
    refine ⟨pairwise_sparseInsert (pairwise_sparseErase hp) (not_mem_sparseErase m k), fun c hc => ?_⟩
    rcases mem_sparseInsert hc with rfl | hc
    · exact ⟨hk, hv⟩
    · exact hb c (mem_sparseErase hc)

/-- The empty table is in canonical form. -/
theorem sparseWf_nil (d : α) (bound : Nat) : sparseWf d bound ([] : List (Nat × α)) := by simp [sparseWf]

end Sys2Proof.Machine
end

