-- ==== Sys2Proof/Laws/Memory.lean ====
section
/-! SUPPORT. The three memories: a read after a write, for bytes, halfwords and words; what a store leaves in a
memory; the canonical form kept (R72, R77, R292, R294). -/
namespace Sys2Proof.Machine

/-- A read after a write of one byte. -/
theorem readByte_writeByte (m : Memory) (o j : Nat) (b : Byte) :
    readByte (writeByte m o b) j = if j = o then b else readByte m j := sparseGet_put _ _ _ _ _

/-- The bytes after a write of a halfword (R72). -/
theorem readByte_writeHalf (m : Memory) (o j : Nat) (v : Word) :
    readByte (writeHalf m o v) j = if o ≤ j ∧ j < o + 2 then byteOf v (j - o) else readByte m j := by
  unfold writeHalf
  rw [readByte_writeByte, readByte_writeByte]
  by_cases h1 : j = o + 1
  · subst h1
    simp
  · by_cases h0 : j = o
    · subst h0
      simp
    · rw [if_neg h1, if_neg h0, if_neg (by omega)]

/-- The bytes after a write of a word (R72). -/
theorem readByte_writeWord (m : Memory) (o j : Nat) (v : Word) :
    readByte (writeWord m o v) j = if o ≤ j ∧ j < o + 4 then byteOf v (j - o) else readByte m j := by
  unfold writeWord
  rw [readByte_writeByte, readByte_writeByte, readByte_writeByte, readByte_writeByte]
  by_cases h3 : j = o + 3
  · subst h3
    simp
  · by_cases h2 : j = o + 2
    · subst h2
      simp
    · by_cases h1 : j = o + 1
      · subst h1
        simp
      · by_cases h0 : j = o
        · subst h0
          simp
        · rw [if_neg h3, if_neg h2, if_neg h1, if_neg h0, if_neg (by omega)]

/-- A word read where a word was written. -/
theorem readWord_writeWord (m : Memory) (o : Nat) (v : Word) : readWord (writeWord m o v) o = v := by
  simp [readWord, readByte_writeWord, wordOfBytes_byteOf]

/-- Two memories that agree on four bytes agree on their word. -/
theorem readWord_congr {m m' : Memory} {o : Nat} (h : ∀ j, o ≤ j → j < o + 4 → readByte m' j = readByte m j) :
    readWord m' o = readWord m o := by
  simp [readWord, h o (by omega) (by omega), h (o + 1) (by omega) (by omega), h (o + 2) (by omega) (by omega),
    h (o + 3) (by omega) (by omega)]

/-- The layout of R72 as a concatenation. -/
theorem wordOfBytes_eq (b0 b1 b2 b3 : Byte) : wordOfBytes b0 b1 b2 b3 = (b3 ++ b2 ++ b1 ++ b0 : BitVec 32) := by
  unfold wordOfBytes placeField
  apply BitVec.eq_of_getLsbD_eq
  intro i hi
  simp
  grind

/-- The layout of R72 as a concatenation. -/
theorem halfOfBytes_eq (b0 b1 : Byte) : halfOfBytes b0 b1 = (b1 ++ b0 : BitVec 16) := by
  unfold halfOfBytes
  apply BitVec.eq_of_getLsbD_eq
  intro i hi
  simp
  grind

/-! ## The bytes of the merged words (tables of R292 and R294) -/

theorem byteOf_readWord {m : Memory} {o k : Nat} (h : k < 4) : byteOf (readWord m o) k = readByte m (o + k) := by
  unfold readWord
  match k, h with
  | 0, _ => exact byteOf_wordOfBytes_0 _ _ _ _
  | 1, _ => exact byteOf_wordOfBytes_1 _ _ _ _
  | 2, _ => exact byteOf_wordOfBytes_2 _ _ _ _
  | 3, _ => exact byteOf_wordOfBytes_3 _ _ _ _

/-- `SWL` replaces bytes 0 to `k` of the aligned word by the `k + 1` most significant bytes of `v`. -/
theorem byteOf_mergeStoreLeft (k : BitVec 2) (m v : Word) (j : Nat) (hj : j < 4) :
    byteOf (mergeStoreLeft k m v) j = if j ≤ k.toNat then byteOf v (3 - k.toNat + j) else byteOf m j := by
  have hk := k.isLt
  unfold mergeStoreLeft
  generalize k.toNat = n at hk ⊢
  have hn : n = 0 ∨ n = 1 ∨ n = 2 ∨ n = 3 := by omega
  have hj' : j = 0 ∨ j = 1 ∨ j = 2 ∨ j = 3 := by omega
  apply BitVec.eq_of_getLsbD_eq
  intro i hi
  have hi' : i = 0 ∨ i = 1 ∨ i = 2 ∨ i = 3 ∨ i = 4 ∨ i = 5 ∨ i = 6 ∨ i = 7 := by omega
  rcases hn with rfl | rfl | rfl | rfl <;> rcases hj' with rfl | rfl | rfl | rfl <;>
    rcases hi' with rfl | rfl | rfl | rfl | rfl | rfl | rfl | rfl <;> simp [byteOf]

/-- `SWR` replaces bytes `k` to 3 of the aligned word by the `4 - k` least significant bytes of `v`. -/
theorem byteOf_mergeStoreRight (k : BitVec 2) (m v : Word) (j : Nat) (hj : j < 4) :
    byteOf (mergeStoreRight k m v) j = if k.toNat ≤ j then byteOf v (j - k.toNat) else byteOf m j := by
  have hk := k.isLt
  unfold mergeStoreRight
  generalize k.toNat = n at hk ⊢
  have hn : n = 0 ∨ n = 1 ∨ n = 2 ∨ n = 3 := by omega
  have hj' : j = 0 ∨ j = 1 ∨ j = 2 ∨ j = 3 := by omega
  apply BitVec.eq_of_getLsbD_eq
  intro i hi
  have hi' : i = 0 ∨ i = 1 ∨ i = 2 ∨ i = 3 ∨ i = 4 ∨ i = 5 ∨ i = 6 ∨ i = 7 := by omega
  rcases hn with rfl | rfl | rfl | rfl <;> rcases hj' with rfl | rfl | rfl | rfl <;>
    rcases hi' with rfl | rfl | rfl | rfl | rfl | rfl | rfl | rfl <;> simp [byteOf]

/-- `LWL` puts the `k + 1` low bytes of the aligned word into the most significant bytes of `rt` (R285). -/
theorem byteOf_mergeLoadLeft (k : BitVec 2) (m old : Word) (j : Nat) (hj : j < 4) :
    byteOf (mergeLoadLeft k m old) j = if 3 ≤ k.toNat + j then byteOf m (k.toNat + j - 3) else byteOf old j := by
  have hk := k.isLt
  unfold mergeLoadLeft
  generalize k.toNat = n at hk ⊢
  have hn : n = 0 ∨ n = 1 ∨ n = 2 ∨ n = 3 := by omega
  have hj' : j = 0 ∨ j = 1 ∨ j = 2 ∨ j = 3 := by omega
  apply BitVec.eq_of_getLsbD_eq
  intro i hi
  have hi' : i = 0 ∨ i = 1 ∨ i = 2 ∨ i = 3 ∨ i = 4 ∨ i = 5 ∨ i = 6 ∨ i = 7 := by omega
  rcases hn with rfl | rfl | rfl | rfl <;> rcases hj' with rfl | rfl | rfl | rfl <;>
    rcases hi' with rfl | rfl | rfl | rfl | rfl | rfl | rfl | rfl <;> simp [byteOf]

/-- `LWR` puts the bytes of the aligned word from `k` on into the least significant bytes of `rt` (R289). -/
theorem byteOf_mergeLoadRight (k : BitVec 2) (m old : Word) (j : Nat) (hj : j < 4) :
    byteOf (mergeLoadRight k m old) j = if k.toNat + j < 4 then byteOf m (k.toNat + j) else byteOf old j := by
  have hk := k.isLt
  unfold mergeLoadRight
  generalize k.toNat = n at hk ⊢
  have hn : n = 0 ∨ n = 1 ∨ n = 2 ∨ n = 3 := by omega
  have hj' : j = 0 ∨ j = 1 ∨ j = 2 ∨ j = 3 := by omega
  apply BitVec.eq_of_getLsbD_eq
  intro i hi
  have hi' : i = 0 ∨ i = 1 ∨ i = 2 ∨ i = 3 ∨ i = 4 ∨ i = 5 ∨ i = 6 ∨ i = 7 := by omega
  rcases hn with rfl | rfl | rfl | rfl <;> rcases hj' with rfl | rfl | rfl | rfl <;>
    rcases hi' with rfl | rfl | rfl | rfl | rfl | rfl | rfl | rfl <;> simp [byteOf]

/-- Two words with the same four bytes are equal. -/
theorem word_eq_of_bytes {x y : Word} (h : ∀ j < 4, byteOf x j = byteOf y j) : x = y := by
  rw [← wordOfBytes_byteOf x, ← wordOfBytes_byteOf y, h 0 (by omega), h 1 (by omega), h 2 (by omega),
    h 3 (by omega)]

/-! ## What a store leaves -/

theorem toNat_byteInWord (a : Word) : (byteInWord a).toNat = a.toNat % 4 := by
  simp [byteInWord, BitVec.extractLsb'_toNat]

/-- How many bytes a store of this kind to `a` writes. -/
def storeLength (a : Word) : StoreKind → Nat
  | .b => 1
  | .h => 2
  | .w => 4
  | .wl => a.toNat % 4 + 1
  | .wr => 4 - a.toNat % 4

/-- How far before `a` they begin. -/
def storeBack (a : Word) : StoreKind → Nat
  | .b => 0
  | .h => 0
  | .w => 0
  | .wl => a.toNat % 4
  | .wr => 0

/-- Which byte of the register goes to the first byte written. -/
def storeShift (a : Word) : StoreKind → Nat
  | .b => 0
  | .h => 0
  | .w => 0
  | .wl => 3 - a.toNat % 4
  | .wr => 0

/-- The bytes a store writes, for every kind (R72, R77, R292, R294). -/
theorem readByte_storeInto_inside (m : Memory) (off : Nat) (a v : Word) (kind : StoreKind) (k : Nat)
    (h4 : off % 4 = a.toNat % 4) (hk : k < storeLength a kind) :
    readByte (storeInto m off a v kind) (off - storeBack a kind + k) = byteOf v (storeShift a kind + k) := by
  cases kind with
  | b =>
    simp only [storeLength] at hk
    obtain rfl : k = 0 := by omega
    simp [storeInto, storeBack, storeShift, readByte_writeByte]
  | h =>
    simp only [storeLength] at hk
    simp only [storeInto, storeBack, storeShift, readByte_writeHalf]
    rw [if_pos (by omega)]
    congr 1
    omega
  | w =>
    simp only [storeLength] at hk
    simp only [storeInto, storeBack, storeShift, readByte_writeWord]
    rw [if_pos (by omega)]
    congr 1
    omega
  | wl =>
    simp only [storeLength] at hk
    simp only [storeInto, storeBack, storeShift, toNat_byteInWord, readByte_writeWord]
    rw [if_pos (by omega), byteOf_mergeStoreLeft _ _ _ _ (by omega), toNat_byteInWord, if_pos (by omega)]
    congr 1
    omega
  | wr =>
    simp only [storeLength] at hk
    simp only [storeInto, storeBack, storeShift, toNat_byteInWord, readByte_writeWord]
    rw [if_pos (by omega), byteOf_mergeStoreRight _ _ _ _ (by omega), toNat_byteInWord, if_pos (by omega)]
    congr 1
    omega

/-- Every other byte is as it was. -/
theorem readByte_storeInto_outside (m : Memory) (off : Nat) (a v : Word) (kind : StoreKind) (j : Nat)
    (h4 : off % 4 = a.toNat % 4)
    (hj : j < off - storeBack a kind ∨ off - storeBack a kind + storeLength a kind ≤ j) :
    readByte (storeInto m off a v kind) j = readByte m j := by
  cases kind with
  | b =>
    simp only [storeLength, storeBack] at hj
    simp only [storeInto, readByte_writeByte]
    rw [if_neg (by omega)]
  | h =>
    simp only [storeLength, storeBack] at hj
    simp only [storeInto, readByte_writeHalf]
    rw [if_neg (by omega)]
  | w =>
    simp only [storeLength, storeBack] at hj
    simp only [storeInto, readByte_writeWord]
    rw [if_neg (by omega)]
  | wl =>
    simp only [storeLength, storeBack] at hj
    simp only [storeInto, toNat_byteInWord, readByte_writeWord]
    by_cases hin : off - a.toNat % 4 ≤ j ∧ j < off - a.toNat % 4 + 4
    · rw [if_pos hin, byteOf_mergeStoreLeft _ _ _ _ (by omega), toNat_byteInWord, if_neg (by omega),
        byteOf_readWord (by omega)]
      congr 1
      omega
    · rw [if_neg hin]
  | wr =>
    simp only [storeLength, storeBack] at hj
    simp only [storeInto, toNat_byteInWord, readByte_writeWord]
    by_cases hin : off - a.toNat % 4 ≤ j ∧ j < off - a.toNat % 4 + 4
    · rw [if_pos hin, byteOf_mergeStoreRight _ _ _ _ (by omega), toNat_byteInWord, if_neg (by omega),
        byteOf_readWord (by omega)]
      congr 1
      omega
    · rw [if_neg hin]

/-! ## The canonical form -/

theorem Memory.wf_writeByte {size : Nat} {m : Memory} {o : Nat} {b : Byte} (h : Memory.wf size m) (ho : o < size) :
    Memory.wf size (writeByte m o b) := sparseWf_put h ho

theorem Memory.wf_writeHalf {size : Nat} {m : Memory} {o : Nat} {v : Word} (h : Memory.wf size m)
    (ho : o + 1 < size) : Memory.wf size (writeHalf m o v) :=
  Memory.wf_writeByte (Memory.wf_writeByte h (by omega)) ho

theorem Memory.wf_writeWord {size : Nat} {m : Memory} {o : Nat} {v : Word} (h : Memory.wf size m)
    (ho : o + 3 < size) : Memory.wf size (writeWord m o v) :=
  Memory.wf_writeByte (Memory.wf_writeByte (Memory.wf_writeByte (Memory.wf_writeByte h (by omega)) (by omega))
    (by omega)) ho

/-- The alignment a store of each kind checks (R75). -/
def storeAligned (a : Word) : StoreKind → Prop
  | .h => a.toNat % 2 = 0
  | .w => a.toNat % 4 = 0
  | .b => True
  | .wl => True
  | .wr => True

/-- A store of any kind, aligned as its kind needs, keeps the canonical form of a memory of whole words. -/
theorem Memory.wf_storeInto {size : Nat} {m : Memory} {off : Nat} {a v : Word} {kind : StoreKind}
    (h : Memory.wf size m) (ho : off < size) (hs : size % 4 = 0) (h4 : off % 4 = a.toNat % 4)
    (ha : storeAligned a kind) : Memory.wf size (storeInto m off a v kind) := by
  cases kind with
  | b => exact Memory.wf_writeByte h ho
  | h => exact Memory.wf_writeHalf h (by simp only [storeAligned] at ha; omega)
  | w => exact Memory.wf_writeWord h (by simp only [storeAligned] at ha; omega)
  | wl =>
    simp only [storeInto, toNat_byteInWord]
    exact Memory.wf_writeWord h (by omega)
  | wr =>
    simp only [storeInto, toNat_byteInWord]
    exact Memory.wf_writeWord h (by omega)

/-- What `ext_write` leaves, byte by byte (R157). -/
theorem readByte_writeLow (m : Memory) (o : Nat) (n v : Word) (j : Nat) (h : sizeLegal n = true) :
    readByte (writeLow m o n v) j = if o ≤ j ∧ j < o + n.toNat then byteOf v (j - o) else readByte m j := by
  simp only [sizeLegal, Bool.or_eq_true, decide_eq_true_eq] at h
  unfold writeLow
  rcases h with (h | h) | h
  · subst h
    rw [if_pos rfl, readByte_writeByte]
    by_cases hj : j = o
    · subst hj
      simp
    · rw [if_neg hj, if_neg (by simp; omega)]
  · subst h
    rw [if_neg (by decide), if_pos rfl, readByte_writeHalf]
    rfl
  · subst h
    rw [if_neg (by decide), if_neg (by decide), readByte_writeWord]
    rfl

/-- `ext_write` keeps the canonical form. -/
theorem Memory.wf_writeLow {size : Nat} {m : Memory} {off : Nat} {a n v : Word} (h : Memory.wf size m)
    (ho : off < size) (hs : size % 4 = 0) (h4 : off % 4 = a.toNat % 4) (hn : sizeLegal n = true)
    (ha : sizeAligned a n = true) : Memory.wf size (writeLow m off n v) := by
  simp only [sizeLegal, Bool.or_eq_true, decide_eq_true_eq] at hn
  simp only [sizeAligned, decide_eq_true_eq] at ha
  unfold writeLow
  rcases hn with (hn | hn) | hn
  · subst hn
    exact Memory.wf_writeByte h ho
  · subst hn
    simp only [show (2#32).toNat = 2 from rfl] at ha
    exact Memory.wf_writeHalf h (by omega)
  · subst hn
    simp only [show (4#32).toNat = 4 from rfl] at ha
    exact Memory.wf_writeWord h (by omega)

/-- The memories at reset are in canonical form. -/
theorem memWf_reset : State.reset.memWf := ⟨sparseWf_nil _ _, sparseWf_nil _ _, sparseWf_nil _ _⟩

end Sys2Proof.Machine
end

