-- ==== Sys2Proof/Laws/Block.lean ====
section
/-! SUPPORT. The validity table and the block store (R84 to R92, R158). -/
namespace Sys2Proof.Machine

/-- `VALID` after `invalidate` (R85). -/
theorem pageValid_invalidatePage (s : State) (p q : Nat) :
    (s.invalidatePage p).pageValid q = (s.pageValid q && q ≠ p) := by
  unfold State.pageValid
  rw [invalidatePage_valid, sparseGet_put]
  by_cases h : q = p <;> simp [h]

/-- `VALID` after `mark_valid` (R86). -/
theorem pageValid_markValid (s : State) (p q : Nat) : (s.markValid p).pageValid q = (s.pageValid q || q = p) := by
  unfold State.pageValid
  rw [markValid_valid, sparseGet_put]
  by_cases h : q = p <;> simp [h]

/-- The validity table at reset is in canonical form. -/
theorem validWf_reset : State.reset.validWf := sparseWf_nil _ _

/-- `invalidate` of a page of the table keeps its canonical form. -/
theorem validWf_invalidatePage {s : State} {p : Nat} (h : s.validWf) (hp : p < s.params.totalPages) :
    (s.invalidatePage p).validWf := sparseWf_put (v := false) h hp

/-- `mark_valid` of a page of the table keeps its canonical form. -/
theorem validWf_markValid {s : State} {p : Nat} (h : s.validWf) (hp : p < s.params.totalPages) :
    (s.markValid p).validWf := sparseWf_put (v := true) h hp

/-- Two places in pages share a key only when they are the same place. -/
theorem blkKey_inj {c : Params} {p q i j : Nat} (hi : i < c.pageInstrs) (hj : j < c.pageInstrs) :
    blkKey c p i = blkKey c q j ↔ p = q ∧ i = j := by
  refine ⟨fun h => ?_, by rintro ⟨rfl, rfl⟩; rfl⟩
  unfold blkKey at h
  have hq := congrArg (· / c.pageInstrs) h
  have hr := congrArg (· % c.pageInstrs) h
  simp only [Nat.mul_comm _ c.pageInstrs, Nat.mul_add_div (Nat.zero_lt_of_lt hi), Nat.mul_add_mod,
    Nat.div_eq_of_lt hi, Nat.div_eq_of_lt hj, Nat.mod_eq_of_lt hi, Nat.mod_eq_of_lt hj, Nat.add_zero] at hq hr
  exact ⟨hq, hr⟩

/-- What the copying loop has written after `n` words (R158). -/
theorem sparseGet_copyWords (s : State) (p n q j : Nat) (hn : n ≤ s.params.pageInstrs) (hj : j < s.params.pageInstrs) :
    sparseGet 0#32 (copyWords s p n) (blkKey s.params q j) = if q = p ∧ j < n then s.pageWord p j else s.blkWord q j := by
  induction n with
  | zero => simp [copyWords, State.blkWord]
  | succ n ih =>
    rw [copyWords, sparseGet_put, ih (by omega)]
    by_cases hk : blkKey s.params q j = blkKey s.params p n
    · obtain ⟨rfl, rfl⟩ := (blkKey_inj hj (by omega)).1 hk
      simp
    · have : ¬(q = p ∧ j = n) := fun h => hk ((blkKey_inj hj (by omega)).2 h)
      rw [if_neg hk]
      by_cases h : q = p ∧ j < n
      · rw [if_pos h, if_pos (by omega)]
      · rw [if_neg h, if_neg (by omega)]

/-- `BLK` after `translate` (R158). -/
theorem blkWord_translate (s : State) (p q j : Nat) (hj : j < s.params.pageInstrs) :
    (s.translate p).blkWord q j = if q = p then s.pageWord p j else s.blkWord q j := by
  unfold State.blkWord
  rw [translate_blk, translate_params, sparseGet_copyWords s p _ q j (Nat.le_refl _) hj]
  simp [hj, State.blkWord]

/-- `VALID` after `translate` (R159). -/
theorem pageValid_translate (s : State) (p q : Nat) :
    (s.translate p).pageValid q = (s.pageValid q || q = p) :=
  pageValid_markValid _ p q

/-- The copying loop keeps the canonical form of the block store. -/
theorem blkWf_copyWords {s : State} {p : Nat} (n : Nat) (h : s.blkWf) (hp : p < s.params.totalPages)
    (hn : n ≤ s.params.pageInstrs) : sparseWf 0#32 (s.params.totalPages * s.params.pageInstrs) (copyWords s p n) := by
  induction n with
  | zero => exact h
  | succ n ih =>
    refine sparseWf_put (ih (by omega)) ?_
    have : (p + 1) * s.params.pageInstrs ≤ s.params.totalPages * s.params.pageInstrs := Nat.mul_le_mul_right _ hp
    rw [Nat.add_mul] at this
    unfold blkKey
    omega

/-- `translate` keeps the canonical form of the validity table. -/
theorem validWf_translate {s : State} {p : Nat} (h : s.validWf) (hp : p < s.params.totalPages) :
    (s.translate p).validWf := sparseWf_put (v := true) h hp

/-- `translate` keeps the canonical form of the block store. -/
theorem blkWf_translate {s : State} {p : Nat} (h : s.blkWf) (hp : p < s.params.totalPages) : (s.translate p).blkWf :=
  blkWf_copyWords _ h hp (Nat.le_refl _)

/-- The block store at reset is in canonical form. -/
theorem blkWf_reset : State.reset.blkWf := sparseWf_nil _ _

/-- A page's word rests on its four bytes of RAM, or of ROM, only. -/
theorem pageWord_congr {s t : State} {p i : Nat} (hpar : t.params = s.params) (hrom : t.rom = s.rom)
    (h : p < s.params.ramPages → ∀ j, p * s.params.pageBytes + 4 * i ≤ j → j < p * s.params.pageBytes + 4 * i + 4 →
      readByte t.ram j = readByte s.ram j) : t.pageWord p i = s.pageWord p i := by
  unfold State.pageWord State.pageMem pageBase
  rw [hpar]
  by_cases hp : p < s.params.ramPages
  · simp only [hp, if_true]
    exact readWord_congr (h hp)
  · simp only [hp, if_false, hrom]

end Sys2Proof.Machine
end

