-- ==== Sys2Proof/Laws/Access.lean ====
section
/-! SUPPORT. The data path by address: what a read gives, and what a store leaves at every address (R73 to
R82). -/
namespace Sys2Proof.Machine

variable {c : Params}

theorem misaligned_half (a : Word) : misaligned a .half = true ↔ a.toNat % 2 ≠ 0 := by
  unfold misaligned
  rw [bne_iff_ne, ne_eq, ← BitVec.toNat_inj, BitVec.extractLsb'_toNat]
  simp

theorem misaligned_word (a : Word) : misaligned a .word = true ↔ a.toNat % 4 ≠ 0 := by
  unfold misaligned
  rw [bne_iff_ne, ne_eq, ← BitVec.toNat_inj, BitVec.extractLsb'_toNat]
  simp

theorem misaligned_half_false (a : Word) : misaligned a .half = false ↔ a.toNat % 2 = 0 := by
  rw [← Bool.not_eq_true, misaligned_half, not_not]

theorem misaligned_word_false (a : Word) : misaligned a .word = false ↔ a.toNat % 4 = 0 := by
  rw [← Bool.not_eq_true, misaligned_word, not_not]

@[simp] theorem misaligned_byte (a : Word) : misaligned a .byte = false := rfl

theorem toNat_alignedWord (a : Word) : (alignedWord a).toNat = a.toNat - a.toNat % 4 := by
  have := a.isLt
  have h : alignedWord a = BitVec.ofNat 32 (a.toNat - a.toNat % 4) := by
    unfold alignedWord
    apply BitVec.eq_of_getLsbD_eq
    intro i hi
    have e : a.toNat - a.toNat % 4 = (a.toNat >>> 2) <<< 2 := by
      rw [Nat.shiftRight_eq_div_pow, Nat.shiftLeft_eq]
      omega
    rw [e]
    simp only [BitVec.getLsbD_and, BitVec.getLsbD_ofNat, hi, decide_true, Bool.true_and, Nat.testBit_shiftLeft,
      Nat.testBit_shiftRight]
    by_cases h2 : 2 ≤ i
    · have hm : Nat.testBit 4294967292 i = true := by
        have : i ∈ List.range 32 := by simpa using hi
        revert h2 this
        revert i
        decide
      simp [h2, hm, BitVec.getLsbD, Nat.add_sub_cancel' h2]
    · have hm : Nat.testBit 4294967292 i = false := by
        have : i ∈ List.range 2 := by simpa using h2
        revert this
        revert i
        decide
      simp [h2, hm]
  rw [h, BitVec.toNat_ofNat]
  omega

/-- An address is its aligned word's and its low bits'. -/
theorem alignedWord_add (a : Word) : alignedWord a + BitVec.ofNat 32 (a.toNat % 4) = a := by
  have := a.isLt
  apply BitVec.eq_of_toNat_eq
  rw [BitVec.toNat_add, toNat_alignedWord, BitVec.toNat_ofNat]
  omega

theorem toNat_maskAddress_aligned (hl : c.Legal) (a : Word) :
    (maskAddress c (alignedWord a)).toNat = (maskAddress c a).toNat - a.toNat % 4 := by
  have h := toNat_maskAddress_add hl (alignedWord a) (a.toNat % 4) (by rw [toNat_alignedWord]; omega)
  rw [alignedWord_add] at h
  omega

/-- The aligned word of a RAM address. -/
theorem resolve_aligned_ram (hl : c.Legal) {a : Word} {off page : Nat} (h : resolve c a = .ram off page) :
    resolve c (alignedWord a) = .ram (off - a.toNat % 4) page := by
  have h4 := (ram_off_mod hl h).2
  rw [resolve_eq_ram] at h ⊢
  rw [toNat_maskAddress_aligned hl,
    div_pageBytes_congr hl (show (off - a.toNat % 4) / 4 = off / 4 by omega)]
  omega

theorem resolve_aligned_scratch (hl : c.Legal) {a : Word} {off : Nat} (h : resolve c a = .scratch off) :
    resolve c (alignedWord a) = .scratch (off - a.toNat % 4) := by
  have h4 := scratch_off_mod hl h
  have := maskAddress_mod hl a
  rw [resolve_eq_scratch] at h ⊢
  rw [toNat_maskAddress_aligned hl]
  omega

theorem resolve_aligned_rom (hl : c.Legal) {a : Word} {off page : Nat} (h : resolve c a = .rom off page) :
    resolve c (alignedWord a) = .rom (off - a.toNat % 4) page := by
  have h4 := (rom_off_mod hl h).2
  have := maskAddress_mod hl a
  have := bases_mod_four hl
  rw [resolve_eq_rom] at h ⊢
  rw [toNat_maskAddress_aligned hl,
    div_pageBytes_congr hl (show (off - a.toNat % 4) / 4 = off / 4 by omega)]
  omega

theorem resolve_aligned_unmapped (hl : c.Legal) {a : Word} (h : resolve c a = .unmapped) :
    resolve c (alignedWord a) = .unmapped := by
  have := maskAddress_mod hl a
  have := bases_mod_four hl
  rw [resolve_eq_unmapped] at h ⊢
  rw [toNat_maskAddress_aligned hl]
  omega

/-! ## Reads -/

/-- What an address reads rests on what it resolves to only (R67, R68). -/
theorem readAddr_congr (s : State) {a b : Word} (h : resolve s.params a = resolve s.params b) : s.readAddr a = s.readAddr b := by
  unfold State.readAddr
  rw [h]

/-- `MemRead` of a mapped byte. -/
theorem memRead_byte {s : State} {a : Word} {b0 : Byte} (h0 : s.readAddr a = some b0) :
    memRead s a .byte = (b0.setWidth 32, s) := by
  unfold State.readAddr at h0
  unfold memRead
  cases hr : resolve s.params a <;> simp_all [State.byteAt, readSized]

/-- `MemRead` of a mapped, aligned halfword. -/
theorem memRead_half {s : State} (hl : s.params.Legal) {a : Word} {b0 b1 : Byte} (ha : a.toNat % 2 = 0) (h0 : s.readAddr a = some b0)
    (h1 : s.readAddr (a + 1#32) = some b1) : memRead s a .half = ((halfOfBytes b0 b1).setWidth 32, s) := by
  have hk : a.toNat % 4 + 1 < 4 := by omega
  unfold State.readAddr at h0 h1
  unfold memRead
  cases hr : resolve s.params a with
  | ram off page =>
    have e1 : resolve s.params (a + 1#32) = _ := resolve_add_ram hl hr hk
    simp_all [State.byteAt, readSized, readHalf]
  | scratch off =>
    have e1 : resolve s.params (a + 1#32) = _ := resolve_add_scratch hl hr hk
    simp_all [State.byteAt, readSized, readHalf]
  | rom off page =>
    have e1 : resolve s.params (a + 1#32) = _ := resolve_add_rom hl hr hk
    simp_all [State.byteAt, readSized, readHalf]
  | unmapped => simp_all [State.byteAt]

/-- `MemRead` of a mapped, aligned word. -/
theorem memRead_word {s : State} (hl : s.params.Legal) {a : Word} {b0 b1 b2 b3 : Byte} (ha : a.toNat % 4 = 0)
    (h0 : s.readAddr a = some b0) (h1 : s.readAddr (a + 1#32) = some b1) (h2 : s.readAddr (a + 2#32) = some b2)
    (h3 : s.readAddr (a + 3#32) = some b3) : memRead s a .word = (wordOfBytes b0 b1 b2 b3, s) := by
  unfold State.readAddr at h0 h1 h2 h3
  unfold memRead
  cases hr : resolve s.params a with
  | ram off page =>
    have e1 : resolve s.params (a + 1#32) = _ := resolve_add_ram hl hr (k := 1) (by omega)
    have e2 : resolve s.params (a + 2#32) = _ := resolve_add_ram hl hr (k := 2) (by omega)
    have e3 : resolve s.params (a + 3#32) = _ := resolve_add_ram hl hr (k := 3) (by omega)
    simp_all [State.byteAt, readSized, readWord]
  | scratch off =>
    have e1 : resolve s.params (a + 1#32) = _ := resolve_add_scratch hl hr (k := 1) (by omega)
    have e2 : resolve s.params (a + 2#32) = _ := resolve_add_scratch hl hr (k := 2) (by omega)
    have e3 : resolve s.params (a + 3#32) = _ := resolve_add_scratch hl hr (k := 3) (by omega)
    simp_all [State.byteAt, readSized, readWord]
  | rom off page =>
    have e1 : resolve s.params (a + 1#32) = _ := resolve_add_rom hl hr (k := 1) (by omega)
    have e2 : resolve s.params (a + 2#32) = _ := resolve_add_rom hl hr (k := 2) (by omega)
    have e3 : resolve s.params (a + 3#32) = _ := resolve_add_rom hl hr (k := 3) (by omega)
    simp_all [State.byteAt, readSized, readWord]
  | unmapped => simp_all [State.byteAt]

/-- All `MemRead` can do: on a mapped address it leaves the state, on an unmapped one it draws (R73, R74). -/
theorem memRead_state (s : State) (a : Word) (n : Size) :
    (memRead s a n).2 = if resolve s.params a = .unmapped then { s with draws := s.draws + 1 } else s := by
  unfold memRead
  cases hr : resolve s.params a <;> simp

/-! ## Writes -/

/-- What every address reads after a store into RAM (R72, R77). -/
theorem storedBytes_ram {s t : State} (hl : s.params.Legal) (hp : t.params = s.params) {a first v : Word} {off page : Nat} {kind : StoreKind}
    (h : resolve s.params a = .ram off page) (hf : first.toNat = a.toNat - storeBack a kind) (ha : storeAligned a kind)
    (hram : t.ram = storeInto s.ram off a v kind) (hs : t.scratch = s.scratch) (hr : t.rom = s.rom) :
    storedBytes s t first (storeLength a kind) (fun k => byteOf v (storeShift a kind + k)) := by
  have hm := (ram_off_mod hl h).2
  have hlen : first.toNat % 4 + storeLength a kind ≤ 4 ∧ storeBack a kind ≤ a.toNat % 4 := by
    cases kind <;> simp only [storeBack, storeLength, storeAligned] at * <;> omega
  have hfirst : resolve s.params first = .ram (off - storeBack a kind) page := by
    cases kind with
    | b => rw [BitVec.eq_of_toNat_eq (show first.toNat = a.toNat from hf)]; exact h
    | h => rw [BitVec.eq_of_toNat_eq (show first.toNat = a.toNat from hf)]; exact h
    | w => rw [BitVec.eq_of_toNat_eq (show first.toNat = a.toNat from hf)]; exact h
    | wl =>
      rw [BitVec.eq_of_toNat_eq (show first.toNat = (alignedWord a).toNat by rw [toNat_alignedWord]; exact hf)]
      exact resolve_aligned_ram hl h
    | wr => rw [BitVec.eq_of_toNat_eq (show first.toNat = a.toNat from hf)]; exact h
  intro x
  refine ⟨fun k hk hx => ?_, fun hx => ?_⟩
  · rw [resolve_add_ram hl hfirst (by omega)] at hx
    unfold State.readAddr
    rw [hp, hx]
    simp only [State.byteAt, hram]
    rw [readByte_storeInto_inside _ _ _ _ _ _ (by omega) hk]
  · unfold State.readAddr
    rw [hp]
    cases hxr : resolve s.params x with
    | ram o p =>
      simp only [State.byteAt, hram]
      rw [readByte_storeInto_outside _ _ _ _ _ _ (by omega)]
      by_contra hc
      have hk : o - (off - storeBack a kind) < storeLength a kind := by omega
      refine hx _ hk ?_
      rw [resolve_add_ram hl hfirst (by omega), hxr, Resolution.ram.injEq]
      have h1 := ram_bounds h
      have h2 := ram_bounds hxr
      have h3 := ram_bounds (resolve_add_ram hl hfirst (k := o - (off - storeBack a kind)) (by omega))
      rw [show off - storeBack a kind + (o - (off - storeBack a kind)) = o by omega] at h3 ⊢
      exact ⟨rfl, h2.2.trans h3.2.symm⟩
    | scratch o => simp only [State.byteAt, hs]
    | rom o p => simp only [State.byteAt, hr]
    | unmapped => rfl

/-- What every address reads after a store into the scratchpad (R72, R78). -/
theorem storedBytes_scratch {s t : State} (hl : s.params.Legal) (hp : t.params = s.params) {a first v : Word} {off : Nat} {kind : StoreKind}
    (h : resolve s.params a = .scratch off) (hf : first.toNat = a.toNat - storeBack a kind) (ha : storeAligned a kind)
    (hscr : t.scratch = storeInto s.scratch off a v kind) (hs : t.ram = s.ram) (hr : t.rom = s.rom) :
    storedBytes s t first (storeLength a kind) (fun k => byteOf v (storeShift a kind + k)) := by
  have hm := scratch_off_mod hl h
  have hlen : first.toNat % 4 + storeLength a kind ≤ 4 ∧ storeBack a kind ≤ a.toNat % 4 := by
    cases kind <;> simp only [storeBack, storeLength, storeAligned] at * <;> omega
  have hfirst : resolve s.params first = .scratch (off - storeBack a kind) := by
    cases kind with
    | b => rw [BitVec.eq_of_toNat_eq (show first.toNat = a.toNat from hf)]; exact h
    | h => rw [BitVec.eq_of_toNat_eq (show first.toNat = a.toNat from hf)]; exact h
    | w => rw [BitVec.eq_of_toNat_eq (show first.toNat = a.toNat from hf)]; exact h
    | wl =>
      rw [BitVec.eq_of_toNat_eq (show first.toNat = (alignedWord a).toNat by rw [toNat_alignedWord]; exact hf)]
      exact resolve_aligned_scratch hl h
    | wr => rw [BitVec.eq_of_toNat_eq (show first.toNat = a.toNat from hf)]; exact h
  intro x
  refine ⟨fun k hk hx => ?_, fun hx => ?_⟩
  · rw [resolve_add_scratch hl hfirst (by omega)] at hx
    unfold State.readAddr
    rw [hp, hx]
    simp only [State.byteAt, hscr]
    rw [readByte_storeInto_inside _ _ _ _ _ _ (by omega) hk]
  · unfold State.readAddr
    rw [hp]
    cases hxr : resolve s.params x with
    | scratch o =>
      simp only [State.byteAt, hscr]
      rw [readByte_storeInto_outside _ _ _ _ _ _ (by omega)]
      by_contra hc
      have hk : o - (off - storeBack a kind) < storeLength a kind := by omega
      refine hx _ hk ?_
      rw [resolve_add_scratch hl hfirst (by omega), hxr, Resolution.scratch.injEq]
      omega
    | ram o p => simp only [State.byteAt, hs]
    | rom o p => simp only [State.byteAt, hr]
    | unmapped => rfl

end Sys2Proof.Machine
end

