-- ==== Sys2Proof/Laws/Ops.lean ====
section
/-! SUPPORT. What each shared operation can do, said once: the bodies, Execute's completion, the control-flow
unit. Later proofs cite these and unfold no operation. -/
namespace Sys2Proof.Machine

/-- What no body touches: the configuration, the dispatcher's place, the block store, ROM, what `run` answers from. -/
structure BodyFrame (s t : State) : Prop where
  params : t.params = s.params
  pc : t.pc = s.pc
  life : t.life = s.life
  dstate : t.dstate = s.dstate
  curPage : t.curPage = s.curPage
  blk : t.blk = s.blk
  rom : t.rom = s.rom
  c0 : t.c0 = s.c0
  budget : t.budget = s.budget

theorem BodyFrame.refl (s : State) : BodyFrame s s := ⟨rfl, rfl, rfl, rfl, rfl, rfl, rfl, rfl, rfl⟩

theorem BodyFrame.trans {s t u : State} (h : BodyFrame s t) (k : BodyFrame t u) : BodyFrame s u :=
  ⟨k.params.trans h.params, k.pc.trans h.pc, k.life.trans h.life, k.dstate.trans h.dstate, k.curPage.trans h.curPage, k.blk.trans h.blk,
    k.rom.trans h.rom, k.c0.trans h.c0, k.budget.trans h.budget⟩

/-- The memories and the validity table are as they were. -/
def MemorySame (s t : State) : Prop := t.ram = s.ram ∧ t.scratch = s.scratch ∧ t.valid = s.valid

/-- What a completed body can have done to the memories: nothing, one store to RAM with its invalidation, or one
store to the scratchpad (R76 to R78). -/
def MemoryEffect (s t : State) : Prop :=
  MemorySame s t ∨
  (∃ off page a v kind, resolve s.params a = .ram off page ∧ storeAligned a kind ∧ t.ram = storeInto s.ram off a v kind ∧
    t.scratch = s.scratch ∧ t.valid = (s.invalidatePage page).valid) ∨
  (∃ off a v kind, resolve s.params a = .scratch off ∧ storeAligned a kind ∧ t.scratch = storeInto s.scratch off a v kind ∧
    t.ram = s.ram ∧ t.valid = s.valid)

/-- All that a body started in `s` can come to. -/
def BodySpec (s : State) : Body → Prop
  | .done t => BodyFrame s t ∧ MemoryEffect s t ∧ t.inCallback = s.inCallback
  | .call t => BodyFrame s t ∧ MemorySame s t ∧ t.inCallback = true
  | .fault _ _ => True

theorem bodySpec_writeBody (w : Word) (s : State) (r : RegIdx) (v : Word) : BodySpec s (writeBody w s r v) :=
  ⟨⟨rfl, rfl, rfl, rfl, rfl, rfl, rfl, rfl, rfl⟩, .inl ⟨rfl, rfl, rfl⟩, rfl⟩

theorem bodySpec_trapBody (w : Word) (s : State) (c : Bool) (r : RegIdx) (v : Word) : BodySpec s (trapBody w s c r v) := by
  unfold trapBody
  split
  · trivial
  · exact bodySpec_writeBody w s r v

theorem bodySpec_hiLoBody (w : Word) (s : State) (hi lo : Word) : BodySpec s (hiLoBody w s hi lo) :=
  ⟨⟨rfl, rfl, rfl, rfl, rfl, rfl, rfl, rfl, rfl⟩, .inl ⟨rfl, rfl, rfl⟩, rfl⟩

theorem bodySpec_hiLoFreeBody (w : Word) (s : State) : BodySpec s (hiLoFreeBody w s) :=
  ⟨⟨rfl, rfl, rfl, rfl, rfl, rfl, rfl, rfl, rfl⟩, .inl ⟨rfl, rfl, rfl⟩, rfl⟩

/-- The state after a read differs in the model's draw counter only. -/
theorem memRead_draws (s : State) (a : Word) (n : Size) : ∃ d, (memRead s a n).2 = { s with draws := d } := by
  rw [memRead_state]
  split
  · exact ⟨_, rfl⟩
  · exact ⟨s.draws, rfl⟩

theorem bodySpec_loadBody (w : Word) (s : State) (rt : RegIdx) (ea : Word) (n : Size) (ext : Word → Word) :
    BodySpec s (loadBody w s rt ea n ext) := by
  unfold loadBody
  split
  · trivial
  · obtain ⟨d, hd⟩ := memRead_draws (s.charge w) ea n
    simp only [BodySpec, hd]
    exact ⟨⟨rfl, rfl, rfl, rfl, rfl, rfl, rfl, rfl, rfl⟩, .inl ⟨rfl, rfl, rfl⟩, rfl⟩

theorem bodySpec_loadMergeBody (w : Word) (s : State) (rt : RegIdx) (ea : Word)
    (merge : BitVec 2 → Word → Word → Word) : BodySpec s (loadMergeBody w s rt ea merge) := by
  unfold loadMergeBody
  obtain ⟨d, hd⟩ := memRead_draws (s.charge w) (alignedWord ea) .word
  simp only [BodySpec, hd]
  exact ⟨⟨rfl, rfl, rfl, rfl, rfl, rfl, rfl, rfl, rfl⟩, .inl ⟨rfl, rfl, rfl⟩, rfl⟩

theorem bodySpec_memWrite (w : Word) (s : State) (a v : Word) (kind : StoreKind) (ha : storeAligned a kind) :
    BodySpec s (memWrite (s.charge w) a v kind) := by
  unfold memWrite
  split
  · rename_i off page hr
    exact ⟨⟨rfl, rfl, rfl, rfl, rfl, rfl, rfl, rfl, rfl⟩,
      .inr (.inl ⟨off, page, a, v, kind, hr, ha, rfl, rfl, rfl⟩), rfl⟩
  · rename_i off hr
    exact ⟨⟨rfl, rfl, rfl, rfl, rfl, rfl, rfl, rfl, rfl⟩,
      .inr (.inr ⟨off, a, v, kind, hr, ha, rfl, rfl, rfl⟩), rfl⟩
  · exact ⟨⟨rfl, rfl, rfl, rfl, rfl, rfl, rfl, rfl, rfl⟩, ⟨rfl, rfl, rfl⟩, rfl⟩
  · exact ⟨⟨rfl, rfl, rfl, rfl, rfl, rfl, rfl, rfl, rfl⟩, ⟨rfl, rfl, rfl⟩, rfl⟩

theorem bodySpec_storeBody_byte (w : Word) (s : State) (rt : RegIdx) (ea : Word) :
    BodySpec s (storeBody w s rt ea .byte .b) := bodySpec_memWrite w s ea (s.reg rt) .b trivial

theorem bodySpec_storeBody_half (w : Word) (s : State) (rt : RegIdx) (ea : Word) :
    BodySpec s (storeBody w s rt ea .half .h) := by
  unfold storeBody
  split
  · trivial
  · rename_i h
    rw [misaligned_half, not_not] at h
    exact bodySpec_memWrite w s ea (s.reg rt) .h h

theorem bodySpec_storeBody_word (w : Word) (s : State) (rt : RegIdx) (ea : Word) :
    BodySpec s (storeBody w s rt ea .word .w) := by
  unfold storeBody
  split
  · trivial
  · rename_i h
    rw [misaligned_word, not_not] at h
    exact bodySpec_memWrite w s ea (s.reg rt) .w h

theorem bodySpec_div (w : Word) (s : State) (c : Prop) [Decidable c] (hi lo : Word) :
    BodySpec s (if c then hiLoFreeBody w s else hiLoBody w s hi lo) := by
  split
  · exact bodySpec_hiLoFreeBody w s
  · exact bodySpec_hiLoBody w s hi lo

/-- All that the body of any instruction can come to. -/
theorem bodySpec_slotBody (i : Instr) (s : State) : BodySpec s (slotBody i s) := by
  cases i with
  | addi => exact bodySpec_trapBody _ _ _ _ _
  | addiu => exact bodySpec_writeBody _ _ _ _
  | slti => exact bodySpec_writeBody _ _ _ _
  | sltiu => exact bodySpec_writeBody _ _ _ _
  | andi => exact bodySpec_writeBody _ _ _ _
  | ori => exact bodySpec_writeBody _ _ _ _
  | xori => exact bodySpec_writeBody _ _ _ _
  | lui => exact bodySpec_writeBody _ _ _ _
  | add => exact bodySpec_trapBody _ _ _ _ _
  | addu => exact bodySpec_writeBody _ _ _ _
  | sub => exact bodySpec_trapBody _ _ _ _ _
  | subu => exact bodySpec_writeBody _ _ _ _
  | and => exact bodySpec_writeBody _ _ _ _
  | or => exact bodySpec_writeBody _ _ _ _
  | xor => exact bodySpec_writeBody _ _ _ _
  | nor => exact bodySpec_writeBody _ _ _ _
  | slt => exact bodySpec_writeBody _ _ _ _
  | sltu => exact bodySpec_writeBody _ _ _ _
  | sll => exact bodySpec_writeBody _ _ _ _
  | srl => exact bodySpec_writeBody _ _ _ _
  | sra => exact bodySpec_writeBody _ _ _ _
  | sllv => exact bodySpec_writeBody _ _ _ _
  | srlv => exact bodySpec_writeBody _ _ _ _
  | srav => exact bodySpec_writeBody _ _ _ _
  | mult => exact bodySpec_hiLoBody _ _ _ _
  | multu => exact bodySpec_hiLoBody _ _ _ _
  | div => exact bodySpec_div _ _ _ _ _
  | divu => exact bodySpec_div _ _ _ _ _
  | mfhi => exact bodySpec_writeBody _ _ _ _
  | mthi => exact bodySpec_hiLoBody _ _ _ _
  | mflo => exact bodySpec_writeBody _ _ _ _
  | mtlo => exact bodySpec_hiLoBody _ _ _ _
  | lb => unfold slotBody lbBody; exact bodySpec_loadBody _ _ _ _ _ _
  | lh => exact bodySpec_loadBody _ _ _ _ _ _
  | lwl => exact bodySpec_loadMergeBody _ _ _ _ _
  | lw => exact bodySpec_loadBody _ _ _ _ _ _
  | lbu => unfold slotBody lbuBody; exact bodySpec_loadBody _ _ _ _ _ _
  | lhu => exact bodySpec_loadBody _ _ _ _ _ _
  | lwr => exact bodySpec_loadMergeBody _ _ _ _ _
  | sb => exact bodySpec_storeBody_byte _ _ _ _
  | sh => exact bodySpec_storeBody_half _ _ _ _
  | swl => exact bodySpec_memWrite _ _ _ _ _ trivial
  | sw => exact bodySpec_storeBody_word _ _ _ _
  | swr => exact bodySpec_memWrite _ _ _ _ _ trivial
  | j => trivial
  | jal => trivial
  | jr => trivial
  | jalr => trivial
  | beq => trivial
  | bne => trivial
  | blez => trivial
  | bgtz => trivial
  | bltz => trivial
  | bgez => trivial
  | bltzal => trivial
  | bgezal => trivial
  | syscall => trivial
  | brk => trivial
  | cop0 => trivial
  | cop1 => trivial
  | cop2 => trivial
  | cop3 => trivial
  | lwc0 => trivial
  | lwc1 => trivial
  | lwc2 => trivial
  | lwc3 => trivial
  | swc0 => trivial
  | swc1 => trivial
  | swc2 => trivial
  | swc3 => trivial
  | init => trivial
  | delete => trivial
  | setPc => trivial
  | setNextEvent => trivial
  | run => trivial
  | resolve => trivial
  | isValid => trivial
  | invalidate => trivial
  | extWrite => trivial
  | getState => trivial
  | setReg => trivial

/-- All that the body of any delay-slot word can come to. -/
theorem bodySpec_slotWordBody (d : Word) (s : State) : BodySpec s (slotWordBody d s) := by
  unfold slotWordBody
  split
  · exact bodySpec_slotBody _ _
  · trivial
  · trivial
  · trivial

/-! ## Execute -/

/-- An instruction that is neither control flow nor a command is its body, completed (R189). -/
theorem exec_plain {i : Instr} (s : State) (h : i.isControlFlow = false) (hc : i.isCommand = false) :
    exec i s = finish (instrWord i) s (slotBody i s) := by
  cases i <;> first
    | rfl
    | (cases hc; done)
    | cases h

/-- `sext_16(imm16) << 2` as a product (R112 e). -/
theorem branchTarget_eq (b : Word) (imm : Imm16) : branchTarget b imm = b + 4#32 + imm.signExtend 32 * 4#32 := by
  unfold branchTarget signExtImm
  rw [BitVec.shiftLeft_eq_mul_twoPow]
  rfl

/-- The target of a jump as a concatenation (R112 f). -/
theorem jumpTarget_eq (b : Word) (target : Target26) :
    jumpTarget b target = ((b + 4#32).extractLsb' 28 4 ++ target ++ 0#2 : BitVec 32) := by
  unfold jumpTarget placeField
  generalize (b + 4#32).extractLsb' 28 4 = hi
  apply BitVec.eq_of_getLsbD_eq
  intro i hi
  simp
  grind

/-- A control-flow instruction is the unit of R310, with `unitTarget` its outcome and `linkRegister` its link. -/
theorem exec_control {i : Instr} (s : State) (h : i.isControlFlow = true) :
    ∃ (taken : Bool) (target : Word), (if taken then target else s.pc + 8#32) = unitTarget s i ∧
      exec i s = controlUnit (instrWord i) taken target (linkRegister i) s := by
  cases i with
  | j target => exact ⟨true, _, jumpTarget_eq _ _, rfl⟩
  | jal target => exact ⟨true, _, jumpTarget_eq _ _, rfl⟩
  | jr rs => exact ⟨true, _, rfl, rfl⟩
  | jalr rd rs => exact ⟨true, _, rfl, rfl⟩
  | beq rs rt imm => exact ⟨_, _, by simp [unitTarget, branchTarget_eq], rfl⟩
  | bne rs rt imm => exact ⟨_, _, by simp [unitTarget, branchTarget_eq], rfl⟩
  | blez rs imm => exact ⟨_, _, by simp [unitTarget, branchTarget_eq], rfl⟩
  | bgtz rs imm => exact ⟨_, _, by simp [unitTarget, branchTarget_eq], rfl⟩
  | bltz rs imm => exact ⟨_, _, by simp [unitTarget, branchTarget_eq, BitVec.msb_eq_toInt], rfl⟩
  | bgez rs imm => exact ⟨_, _, by simp [unitTarget, branchTarget_eq, BitVec.msb_eq_toInt], rfl⟩
  | bltzal rs imm => exact ⟨_, _, by simp [unitTarget, branchTarget_eq, BitVec.msb_eq_toInt], rfl⟩
  | bgezal rs imm => exact ⟨_, _, by simp [unitTarget, branchTarget_eq, BitVec.msb_eq_toInt], rfl⟩
  | _ => exact absurd h (by simp [Instr.isControlFlow, Instr.cls])

/-- Writing a link leaves everything but the registers. -/
theorem link_eq (s : State) (r : Option RegIdx) : ∃ regs, s.link r = { s with regs := regs } := by
  cases r with
  | none => exact ⟨s.regs, rfl⟩
  | some r => exact ⟨writeRegs s.regs r (s.pc + 8#32), rfl⟩

/-- The slot starts from its branch's state, charged and linked (R310 steps 4, 5). -/
theorem slotEntry_eq (i : Instr) (s : State) :
    ∃ regs, slotEntry i s = { s with regs := regs, cnt := s.cnt - BitVec.ofNat 32 (s.params.cycleCost (instrWord i)) } := by
  obtain ⟨regs, h⟩ := link_eq (s.charge (instrWord i)) (linkRegister i)
  exact ⟨regs, h⟩

/-- All a control-flow unit can come to: one of its two own faults, or what its slot comes to (R310, R375). -/
theorem exec_control_cases {i : Instr} (s : State) (h : i.isControlFlow = true) :
    (slotWord s = none ∧
      exec i s = .next (s.faultStop .fetchUnmapped s.pc (some (instrWord i)) (some (s.pc + 4#32)) true)) ∨
    (∃ d, slotWord s = some d ∧ isControlWord d = true ∧
      exec i s = .next (s.faultStop .branchInDelay s.pc (some d) none true)) ∨
    (∃ d, slotWord s = some d ∧ isControlWord d = false ∧
      exec i s = finishUnit d (slotEntry i s) (unitTarget s i) (slotWordBody d (slotEntry i s))) := by
  obtain ⟨taken, target, ht, he⟩ := exec_control s h
  rw [he]
  unfold controlUnit
  cases hd : slotWord s with
  | none => exact .inl ⟨rfl, rfl⟩
  | some d =>
    cases hc : isControlWord d with
    | true => exact .inr (.inl ⟨d, rfl, hc, by simp [hc]⟩)
    | false => exact .inr (.inr ⟨d, rfl, hc, by simp [hc, ht, slotEntry]⟩)

end Sys2Proof.Machine
end

