-- ==== Sys2Proof/Laws/PerInstr.lean ====
section
/-! SUPPORT. Statements made per instruction. `PrimaryOpcode`: the encoded instruction carries the number of the
primary map (R113) or of the command map (R125). -/
namespace Sys2Proof.Laws

/-- The number of R113 (a guest instruction) or R125 (a command). -/
def primaryNumber : Instr → Nat
  | .addi _ _ _ => 0x08
  | .addiu _ _ _ => 0x09
  | .slti _ _ _ => 0x0A
  | .sltiu _ _ _ => 0x0B
  | .andi _ _ _ => 0x0C
  | .ori _ _ _ => 0x0D
  | .xori _ _ _ => 0x0E
  | .lui _ _ => 0x0F
  | .add _ _ _ => 0x00
  | .addu _ _ _ => 0x00
  | .sub _ _ _ => 0x00
  | .subu _ _ _ => 0x00
  | .and _ _ _ => 0x00
  | .or _ _ _ => 0x00
  | .xor _ _ _ => 0x00
  | .nor _ _ _ => 0x00
  | .slt _ _ _ => 0x00
  | .sltu _ _ _ => 0x00
  | .sll _ _ _ => 0x00
  | .srl _ _ _ => 0x00
  | .sra _ _ _ => 0x00
  | .sllv _ _ _ => 0x00
  | .srlv _ _ _ => 0x00
  | .srav _ _ _ => 0x00
  | .mult _ _ => 0x00
  | .multu _ _ => 0x00
  | .div _ _ => 0x00
  | .divu _ _ => 0x00
  | .mfhi _ => 0x00
  | .mthi _ => 0x00
  | .mflo _ => 0x00
  | .mtlo _ => 0x00
  | .lb _ _ _ => 0x20
  | .lh _ _ _ => 0x21
  | .lwl _ _ _ => 0x22
  | .lw _ _ _ => 0x23
  | .lbu _ _ _ => 0x24
  | .lhu _ _ _ => 0x25
  | .lwr _ _ _ => 0x26
  | .sb _ _ _ => 0x28
  | .sh _ _ _ => 0x29
  | .swl _ _ _ => 0x2A
  | .sw _ _ _ => 0x2B
  | .swr _ _ _ => 0x2E
  | .j _ => 0x02
  | .jal _ => 0x03
  | .jr _ => 0x00
  | .jalr _ _ => 0x00
  | .beq _ _ _ => 0x04
  | .bne _ _ _ => 0x05
  | .blez _ _ => 0x06
  | .bgtz _ _ => 0x07
  | .bltz _ _ => 0x01
  | .bgez _ _ => 0x01
  | .bltzal _ _ => 0x01
  | .bgezal _ _ => 0x01
  | .syscall _ => 0x00
  | .brk _ => 0x00
  | .cop0 _ => 0x10
  | .cop1 _ => 0x11
  | .cop2 _ => 0x12
  | .cop3 _ => 0x13
  | .lwc0 _ _ _ => 0x30
  | .lwc1 _ _ _ => 0x31
  | .lwc2 _ _ _ => 0x32
  | .lwc3 _ _ _ => 0x33
  | .swc0 _ _ _ => 0x38
  | .swc1 _ _ _ => 0x39
  | .swc2 _ _ _ => 0x3A
  | .swc3 _ _ _ => 0x3B
  | .init => 0x00
  | .delete => 0x01
  | .setPc _ => 0x02
  | .setNextEvent _ => 0x03
  | .run _ => 0x04
  | .resolve _ => 0x05
  | .isValid _ => 0x06
  | .invalidate _ => 0x07
  | .extWrite _ _ _ => 0x08
  | .getState _ => 0x09
  | .setReg _ _ => 0x0A

/-- The encoding of `i` carries its number in `op`, or in the command code. -/
def PrimaryOpcode.Statement (i : Instr) : Prop :=
  match encode i with
  | .word w => (opField w).toNat = primaryNumber i
  | .packet p => p.code.toNat = primaryNumber i

theorem PrimaryOpcode.addi (rt : RegIdx) (rs : RegIdx) (imm : Imm16) : PrimaryOpcode.Statement (.addi rt rs imm) :=
  congrArg BitVec.toNat (opField_iWord _ _ _ _)
theorem PrimaryOpcode.addiu (rt : RegIdx) (rs : RegIdx) (imm : Imm16) : PrimaryOpcode.Statement (.addiu rt rs imm) :=
  congrArg BitVec.toNat (opField_iWord _ _ _ _)
theorem PrimaryOpcode.slti (rt : RegIdx) (rs : RegIdx) (imm : Imm16) : PrimaryOpcode.Statement (.slti rt rs imm) :=
  congrArg BitVec.toNat (opField_iWord _ _ _ _)
theorem PrimaryOpcode.sltiu (rt : RegIdx) (rs : RegIdx) (imm : Imm16) : PrimaryOpcode.Statement (.sltiu rt rs imm) :=
  congrArg BitVec.toNat (opField_iWord _ _ _ _)
theorem PrimaryOpcode.andi (rt : RegIdx) (rs : RegIdx) (imm : Imm16) : PrimaryOpcode.Statement (.andi rt rs imm) :=
  congrArg BitVec.toNat (opField_iWord _ _ _ _)
theorem PrimaryOpcode.ori (rt : RegIdx) (rs : RegIdx) (imm : Imm16) : PrimaryOpcode.Statement (.ori rt rs imm) :=
  congrArg BitVec.toNat (opField_iWord _ _ _ _)
theorem PrimaryOpcode.xori (rt : RegIdx) (rs : RegIdx) (imm : Imm16) : PrimaryOpcode.Statement (.xori rt rs imm) :=
  congrArg BitVec.toNat (opField_iWord _ _ _ _)
theorem PrimaryOpcode.lui (rt : RegIdx) (imm : Imm16) : PrimaryOpcode.Statement (.lui rt imm) :=
  congrArg BitVec.toNat (opField_iWord _ _ _ _)
theorem PrimaryOpcode.add (rd : RegIdx) (rs : RegIdx) (rt : RegIdx) : PrimaryOpcode.Statement (.add rd rs rt) :=
  congrArg BitVec.toNat (opField_rWord _ _ _ _ _ _)
theorem PrimaryOpcode.addu (rd : RegIdx) (rs : RegIdx) (rt : RegIdx) : PrimaryOpcode.Statement (.addu rd rs rt) :=
  congrArg BitVec.toNat (opField_rWord _ _ _ _ _ _)
theorem PrimaryOpcode.sub (rd : RegIdx) (rs : RegIdx) (rt : RegIdx) : PrimaryOpcode.Statement (.sub rd rs rt) :=
  congrArg BitVec.toNat (opField_rWord _ _ _ _ _ _)
theorem PrimaryOpcode.subu (rd : RegIdx) (rs : RegIdx) (rt : RegIdx) : PrimaryOpcode.Statement (.subu rd rs rt) :=
  congrArg BitVec.toNat (opField_rWord _ _ _ _ _ _)
theorem PrimaryOpcode.and (rd : RegIdx) (rs : RegIdx) (rt : RegIdx) : PrimaryOpcode.Statement (.and rd rs rt) :=
  congrArg BitVec.toNat (opField_rWord _ _ _ _ _ _)
theorem PrimaryOpcode.or (rd : RegIdx) (rs : RegIdx) (rt : RegIdx) : PrimaryOpcode.Statement (.or rd rs rt) :=
  congrArg BitVec.toNat (opField_rWord _ _ _ _ _ _)
theorem PrimaryOpcode.xor (rd : RegIdx) (rs : RegIdx) (rt : RegIdx) : PrimaryOpcode.Statement (.xor rd rs rt) :=
  congrArg BitVec.toNat (opField_rWord _ _ _ _ _ _)
theorem PrimaryOpcode.nor (rd : RegIdx) (rs : RegIdx) (rt : RegIdx) : PrimaryOpcode.Statement (.nor rd rs rt) :=
  congrArg BitVec.toNat (opField_rWord _ _ _ _ _ _)
theorem PrimaryOpcode.slt (rd : RegIdx) (rs : RegIdx) (rt : RegIdx) : PrimaryOpcode.Statement (.slt rd rs rt) :=
  congrArg BitVec.toNat (opField_rWord _ _ _ _ _ _)
theorem PrimaryOpcode.sltu (rd : RegIdx) (rs : RegIdx) (rt : RegIdx) : PrimaryOpcode.Statement (.sltu rd rs rt) :=
  congrArg BitVec.toNat (opField_rWord _ _ _ _ _ _)
theorem PrimaryOpcode.sll (rd : RegIdx) (rt : RegIdx) (shamt : BitVec 5) : PrimaryOpcode.Statement (.sll rd rt shamt) :=
  congrArg BitVec.toNat (opField_rWord _ _ _ _ _ _)
theorem PrimaryOpcode.srl (rd : RegIdx) (rt : RegIdx) (shamt : BitVec 5) : PrimaryOpcode.Statement (.srl rd rt shamt) :=
  congrArg BitVec.toNat (opField_rWord _ _ _ _ _ _)
theorem PrimaryOpcode.sra (rd : RegIdx) (rt : RegIdx) (shamt : BitVec 5) : PrimaryOpcode.Statement (.sra rd rt shamt) :=
  congrArg BitVec.toNat (opField_rWord _ _ _ _ _ _)
theorem PrimaryOpcode.sllv (rd : RegIdx) (rt : RegIdx) (rs : RegIdx) : PrimaryOpcode.Statement (.sllv rd rt rs) :=
  congrArg BitVec.toNat (opField_rWord _ _ _ _ _ _)
theorem PrimaryOpcode.srlv (rd : RegIdx) (rt : RegIdx) (rs : RegIdx) : PrimaryOpcode.Statement (.srlv rd rt rs) :=
  congrArg BitVec.toNat (opField_rWord _ _ _ _ _ _)
theorem PrimaryOpcode.srav (rd : RegIdx) (rt : RegIdx) (rs : RegIdx) : PrimaryOpcode.Statement (.srav rd rt rs) :=
  congrArg BitVec.toNat (opField_rWord _ _ _ _ _ _)
theorem PrimaryOpcode.mult (rs : RegIdx) (rt : RegIdx) : PrimaryOpcode.Statement (.mult rs rt) :=
  congrArg BitVec.toNat (opField_rWord _ _ _ _ _ _)
theorem PrimaryOpcode.multu (rs : RegIdx) (rt : RegIdx) : PrimaryOpcode.Statement (.multu rs rt) :=
  congrArg BitVec.toNat (opField_rWord _ _ _ _ _ _)
theorem PrimaryOpcode.div (rs : RegIdx) (rt : RegIdx) : PrimaryOpcode.Statement (.div rs rt) :=
  congrArg BitVec.toNat (opField_rWord _ _ _ _ _ _)
theorem PrimaryOpcode.divu (rs : RegIdx) (rt : RegIdx) : PrimaryOpcode.Statement (.divu rs rt) :=
  congrArg BitVec.toNat (opField_rWord _ _ _ _ _ _)
theorem PrimaryOpcode.mfhi (rd : RegIdx) : PrimaryOpcode.Statement (.mfhi rd) :=
  congrArg BitVec.toNat (opField_rWord _ _ _ _ _ _)
theorem PrimaryOpcode.mthi (rs : RegIdx) : PrimaryOpcode.Statement (.mthi rs) :=
  congrArg BitVec.toNat (opField_rWord _ _ _ _ _ _)
theorem PrimaryOpcode.mflo (rd : RegIdx) : PrimaryOpcode.Statement (.mflo rd) :=
  congrArg BitVec.toNat (opField_rWord _ _ _ _ _ _)
theorem PrimaryOpcode.mtlo (rs : RegIdx) : PrimaryOpcode.Statement (.mtlo rs) :=
  congrArg BitVec.toNat (opField_rWord _ _ _ _ _ _)
theorem PrimaryOpcode.lb (rt : RegIdx) (rs : RegIdx) (imm : Imm16) : PrimaryOpcode.Statement (.lb rt rs imm) :=
  congrArg BitVec.toNat (opField_iWord _ _ _ _)
theorem PrimaryOpcode.lh (rt : RegIdx) (rs : RegIdx) (imm : Imm16) : PrimaryOpcode.Statement (.lh rt rs imm) :=
  congrArg BitVec.toNat (opField_iWord _ _ _ _)
theorem PrimaryOpcode.lwl (rt : RegIdx) (rs : RegIdx) (imm : Imm16) : PrimaryOpcode.Statement (.lwl rt rs imm) :=
  congrArg BitVec.toNat (opField_iWord _ _ _ _)
theorem PrimaryOpcode.lw (rt : RegIdx) (rs : RegIdx) (imm : Imm16) : PrimaryOpcode.Statement (.lw rt rs imm) :=
  congrArg BitVec.toNat (opField_iWord _ _ _ _)
theorem PrimaryOpcode.lbu (rt : RegIdx) (rs : RegIdx) (imm : Imm16) : PrimaryOpcode.Statement (.lbu rt rs imm) :=
  congrArg BitVec.toNat (opField_iWord _ _ _ _)
theorem PrimaryOpcode.lhu (rt : RegIdx) (rs : RegIdx) (imm : Imm16) : PrimaryOpcode.Statement (.lhu rt rs imm) :=
  congrArg BitVec.toNat (opField_iWord _ _ _ _)
theorem PrimaryOpcode.lwr (rt : RegIdx) (rs : RegIdx) (imm : Imm16) : PrimaryOpcode.Statement (.lwr rt rs imm) :=
  congrArg BitVec.toNat (opField_iWord _ _ _ _)
theorem PrimaryOpcode.sb (rt : RegIdx) (rs : RegIdx) (imm : Imm16) : PrimaryOpcode.Statement (.sb rt rs imm) :=
  congrArg BitVec.toNat (opField_iWord _ _ _ _)
theorem PrimaryOpcode.sh (rt : RegIdx) (rs : RegIdx) (imm : Imm16) : PrimaryOpcode.Statement (.sh rt rs imm) :=
  congrArg BitVec.toNat (opField_iWord _ _ _ _)
theorem PrimaryOpcode.swl (rt : RegIdx) (rs : RegIdx) (imm : Imm16) : PrimaryOpcode.Statement (.swl rt rs imm) :=
  congrArg BitVec.toNat (opField_iWord _ _ _ _)
theorem PrimaryOpcode.sw (rt : RegIdx) (rs : RegIdx) (imm : Imm16) : PrimaryOpcode.Statement (.sw rt rs imm) :=
  congrArg BitVec.toNat (opField_iWord _ _ _ _)
theorem PrimaryOpcode.swr (rt : RegIdx) (rs : RegIdx) (imm : Imm16) : PrimaryOpcode.Statement (.swr rt rs imm) :=
  congrArg BitVec.toNat (opField_iWord _ _ _ _)
theorem PrimaryOpcode.j (target : Target26) : PrimaryOpcode.Statement (.j target) :=
  congrArg BitVec.toNat (opField_jWord _ _)
theorem PrimaryOpcode.jal (target : Target26) : PrimaryOpcode.Statement (.jal target) :=
  congrArg BitVec.toNat (opField_jWord _ _)
theorem PrimaryOpcode.jr (rs : RegIdx) : PrimaryOpcode.Statement (.jr rs) :=
  congrArg BitVec.toNat (opField_rWord _ _ _ _ _ _)
theorem PrimaryOpcode.jalr (rd : RegIdx) (rs : RegIdx) : PrimaryOpcode.Statement (.jalr rd rs) :=
  congrArg BitVec.toNat (opField_rWord _ _ _ _ _ _)
theorem PrimaryOpcode.beq (rs : RegIdx) (rt : RegIdx) (imm : Imm16) : PrimaryOpcode.Statement (.beq rs rt imm) :=
  congrArg BitVec.toNat (opField_iWord _ _ _ _)
theorem PrimaryOpcode.bne (rs : RegIdx) (rt : RegIdx) (imm : Imm16) : PrimaryOpcode.Statement (.bne rs rt imm) :=
  congrArg BitVec.toNat (opField_iWord _ _ _ _)
theorem PrimaryOpcode.blez (rs : RegIdx) (imm : Imm16) : PrimaryOpcode.Statement (.blez rs imm) :=
  congrArg BitVec.toNat (opField_iWord _ _ _ _)
theorem PrimaryOpcode.bgtz (rs : RegIdx) (imm : Imm16) : PrimaryOpcode.Statement (.bgtz rs imm) :=
  congrArg BitVec.toNat (opField_iWord _ _ _ _)
theorem PrimaryOpcode.bltz (rs : RegIdx) (imm : Imm16) : PrimaryOpcode.Statement (.bltz rs imm) :=
  congrArg BitVec.toNat (opField_iWord _ _ _ _)
theorem PrimaryOpcode.bgez (rs : RegIdx) (imm : Imm16) : PrimaryOpcode.Statement (.bgez rs imm) :=
  congrArg BitVec.toNat (opField_iWord _ _ _ _)
theorem PrimaryOpcode.bltzal (rs : RegIdx) (imm : Imm16) : PrimaryOpcode.Statement (.bltzal rs imm) :=
  congrArg BitVec.toNat (opField_iWord _ _ _ _)
theorem PrimaryOpcode.bgezal (rs : RegIdx) (imm : Imm16) : PrimaryOpcode.Statement (.bgezal rs imm) :=
  congrArg BitVec.toNat (opField_iWord _ _ _ _)
theorem PrimaryOpcode.syscall (code : Code20) : PrimaryOpcode.Statement (.syscall code) :=
  congrArg BitVec.toNat (opField_codeWord _ _)
theorem PrimaryOpcode.brk (code : Code20) : PrimaryOpcode.Statement (.brk code) :=
  congrArg BitVec.toNat (opField_codeWord _ _)
theorem PrimaryOpcode.cop0 (cofun : BitVec 26) : PrimaryOpcode.Statement (.cop0 cofun) :=
  congrArg BitVec.toNat (opField_jWord _ _)
theorem PrimaryOpcode.cop1 (cofun : BitVec 26) : PrimaryOpcode.Statement (.cop1 cofun) :=
  congrArg BitVec.toNat (opField_jWord _ _)
theorem PrimaryOpcode.cop2 (cofun : BitVec 26) : PrimaryOpcode.Statement (.cop2 cofun) :=
  congrArg BitVec.toNat (opField_jWord _ _)
theorem PrimaryOpcode.cop3 (cofun : BitVec 26) : PrimaryOpcode.Statement (.cop3 cofun) :=
  congrArg BitVec.toNat (opField_jWord _ _)
theorem PrimaryOpcode.lwc0 (rt : RegIdx) (rs : RegIdx) (imm : Imm16) : PrimaryOpcode.Statement (.lwc0 rt rs imm) :=
  congrArg BitVec.toNat (opField_iWord _ _ _ _)
theorem PrimaryOpcode.lwc1 (rt : RegIdx) (rs : RegIdx) (imm : Imm16) : PrimaryOpcode.Statement (.lwc1 rt rs imm) :=
  congrArg BitVec.toNat (opField_iWord _ _ _ _)
theorem PrimaryOpcode.lwc2 (rt : RegIdx) (rs : RegIdx) (imm : Imm16) : PrimaryOpcode.Statement (.lwc2 rt rs imm) :=
  congrArg BitVec.toNat (opField_iWord _ _ _ _)
theorem PrimaryOpcode.lwc3 (rt : RegIdx) (rs : RegIdx) (imm : Imm16) : PrimaryOpcode.Statement (.lwc3 rt rs imm) :=
  congrArg BitVec.toNat (opField_iWord _ _ _ _)
theorem PrimaryOpcode.swc0 (rt : RegIdx) (rs : RegIdx) (imm : Imm16) : PrimaryOpcode.Statement (.swc0 rt rs imm) :=
  congrArg BitVec.toNat (opField_iWord _ _ _ _)
theorem PrimaryOpcode.swc1 (rt : RegIdx) (rs : RegIdx) (imm : Imm16) : PrimaryOpcode.Statement (.swc1 rt rs imm) :=
  congrArg BitVec.toNat (opField_iWord _ _ _ _)
theorem PrimaryOpcode.swc2 (rt : RegIdx) (rs : RegIdx) (imm : Imm16) : PrimaryOpcode.Statement (.swc2 rt rs imm) :=
  congrArg BitVec.toNat (opField_iWord _ _ _ _)
theorem PrimaryOpcode.swc3 (rt : RegIdx) (rs : RegIdx) (imm : Imm16) : PrimaryOpcode.Statement (.swc3 rt rs imm) :=
  congrArg BitVec.toNat (opField_iWord _ _ _ _)
theorem PrimaryOpcode.init : PrimaryOpcode.Statement .init :=
  rfl
theorem PrimaryOpcode.delete : PrimaryOpcode.Statement .delete :=
  rfl
theorem PrimaryOpcode.setPc (addr : Word) : PrimaryOpcode.Statement (.setPc addr) :=
  rfl
theorem PrimaryOpcode.setNextEvent (cycles : Word) : PrimaryOpcode.Statement (.setNextEvent cycles) :=
  rfl
theorem PrimaryOpcode.run (cycles : Word) : PrimaryOpcode.Statement (.run cycles) :=
  rfl
theorem PrimaryOpcode.resolve (addr : Word) : PrimaryOpcode.Statement (.resolve addr) :=
  rfl
theorem PrimaryOpcode.isValid (page : Word) : PrimaryOpcode.Statement (.isValid page) :=
  rfl
theorem PrimaryOpcode.invalidate (page : Word) : PrimaryOpcode.Statement (.invalidate page) :=
  rfl
theorem PrimaryOpcode.extWrite (addr : Word) (n : Word) (v : Word) : PrimaryOpcode.Statement (.extWrite addr n v) :=
  rfl
theorem PrimaryOpcode.getState (sel : Selector) : PrimaryOpcode.Statement (.getState sel) :=
  rfl
theorem PrimaryOpcode.setReg (sel : Selector) (v : Word) : PrimaryOpcode.Statement (.setReg sel v) :=
  rfl

end Sys2Proof.Laws
end

