-- ==== Sys2Proof/Laws/Step.lean ====
section
/-! SUPPORT. What a step can do, said once: the inversion of a command, of Execute and of a step. Every
invariant is a case analysis over `StepEffect`. -/
namespace Sys2Proof.Machine

/-- All that a command on a port can do (R150 to R166). -/
inductive CommandEffect (s : State) (p : Packet) : State → Prop
  | refused (r : Response) : CommandEffect s p (s.refuse r)
  | answered (r : Response) : CommandEffect s p (s.answer r)
  | init (h : s.life = .uninitialized) (hp : decodeCommand p = .instr .init) :
      CommandEffect s p
        ({ s with valid := [], nePending := false, inCallback := false, faultCode := .none, life := .ready }.answer .ack)
  | delete (h : s.life = .ready) (hp : decodeCommand p = .instr .delete) :
      CommandEffect s p ({ s.unspecifyRegisters with life := .destroyed }.answer .ack)
  | run (h : s.life = .ready) (n : Word) (hp : decodeCommand p = .instr (.run n)) : CommandEffect s p (s.startRun n)
  | hostWrite (h : s.life = .ready) (regs : Vector Word 31) (hi lo pc nextEvent : Word) (nePending : Bool) :
      CommandEffect s p
        ({ s with regs := regs, hi := hi, lo := lo, pc := pc, nextEvent := nextEvent, nePending := nePending }.answer .ack)
  | invalidate (q : Nat) (hq : q < s.params.totalPages) : CommandEffect s p ((s.invalidatePage q).answer .ack)
  | extRam (a n v : Word) (off page : Nat) (hr : resolve s.params a = .ram off page) (hn : sizeLegal n = true)
      (ha : sizeAligned a n = true) :
      CommandEffect s p (({ s with ram := writeLow s.ram off n v }.invalidatePage page).answer .ack)
  | extScratch (a n v : Word) (off : Nat) (hr : resolve s.params a = .scratch off) (hn : sizeLegal n = true)
      (ha : sizeAligned a n = true) :
      CommandEffect s p ({ s with scratch := writeLow s.scratch off n v }.answer .ack)

theorem setReg_eq (s : State) (r : RegIdx) (v : Word) : ∃ regs, s.setReg r v = { s with regs := regs } := ⟨_, rfl⟩

/-- Every command has its effect: none is without an answer. -/
theorem takeCommand_cases (s : State) (p : Packet) : ∃ t, takeCommand p s = .next t ∧ CommandEffect s p t := by
  unfold takeCommand
  split
  · rename_i i hp
    cases i with
    | init =>
      simp only [exec, execInit]
      split
      · exact ⟨_, rfl, .init ‹_› hp⟩
      · exact ⟨_, rfl, .refused _⟩
    | delete =>
      simp only [exec, execDelete]
      split
      · exact ⟨_, rfl, .delete ‹_› hp⟩
      · exact ⟨_, rfl, .refused _⟩
    | setPc a =>
      simp only [exec, execSetPc]
      split
      · exact ⟨_, rfl, .hostWrite ‹_› s.regs s.hi s.lo a s.nextEvent s.nePending⟩
      · exact ⟨_, rfl, .refused _⟩
    | setNextEvent n =>
      simp only [exec, execSetNextEvent]
      split
      · exact ⟨_, rfl, .hostWrite ‹_› s.regs s.hi s.lo s.pc n true⟩
      · exact ⟨_, rfl, .refused _⟩
    | run n =>
      simp only [exec, execRun]
      split
      · exact ⟨_, rfl, .run ‹_› n hp⟩
      · exact ⟨_, rfl, .refused _⟩
    | resolve a =>
      simp only [exec, execResolve]
      split
      · exact ⟨_, rfl, .answered _⟩
      · exact ⟨_, rfl, .refused _⟩
    | isValid q =>
      simp only [exec, execIsValid]
      split
      · exact ⟨_, rfl, .answered _⟩
      · exact ⟨_, rfl, .refused _⟩
    | invalidate q =>
      simp only [exec, execInvalidate]
      split
      · rename_i h
        simp only [Bool.and_eq_true, pageInRange, decide_eq_true_eq] at h
        exact ⟨_, rfl, .invalidate _ h.2⟩
      · exact ⟨_, rfl, .refused _⟩
    | extWrite a n v =>
      simp only [exec, execExtWrite]
      split
      · rename_i h
        simp only [Bool.and_eq_true] at h
        split
        · exact ⟨_, rfl, .extRam a n v _ _ ‹_› h.1.2 h.2⟩
        · exact ⟨_, rfl, .extScratch a n v _ ‹_› h.1.2 h.2⟩
        · exact ⟨_, rfl, .refused _⟩
        · exact ⟨_, rfl, .refused _⟩
      · exact ⟨_, rfl, .refused _⟩
    | getState sel =>
      simp only [exec, execGetState]
      split
      · exact ⟨_, rfl, .answered _⟩
      · exact ⟨_, rfl, .refused _⟩
    | setReg sel v =>
      simp only [exec, execSetReg]
      split
      · rename_i h
        simp only [Bool.and_eq_true, decide_eq_true_eq] at h
        refine ⟨_, rfl, ?_⟩
        unfold State.writeSelected
        split
        · exact .hostWrite h.1 (writeRegs s.regs _ v) s.hi s.lo s.pc s.nextEvent s.nePending
        · split
          · exact .hostWrite h.1 s.regs v s.lo s.pc s.nextEvent s.nePending
          · exact .hostWrite h.1 s.regs s.hi v s.pc s.nextEvent s.nePending
      · exact ⟨_, rfl, .refused _⟩
    | _ => exact absurd hp (by unfold decodeCommand; split <;> simp)
  · exact ⟨_, rfl, .refused _⟩
  · exact ⟨_, rfl, .refused _⟩
  · exact ⟨_, rfl, .refused _⟩

/-- No guest word decodes to a command (R117, R125). -/
theorem decodeGuest_not_command {w : Word} {i : Instr} (h : decodeGuest w = .instr i) : i.isCommand = false := by
  have hmb : ∀ (z : Bool) (j : Instr), mustBeZero z j = .instr i → j.isCommand = false → i.isCommand = false := by
    intro z j hz hj
    unfold mustBeZero at hz
    split at hz
    · cases hz
      exact hj
    · cases hz
  unfold decodeGuest at h
  dsimp only at h
  split at h
  case h_1 =>
    unfold decodeSpecial at h
    dsimp only at h
    split at h <;> first | exact hmb _ _ h rfl | (cases h; rfl) | cases h
  case h_2 =>
    unfold decodeRegimm at h
    split at h <;> first | (cases h; rfl) | cases h
  all_goals first | exact hmb _ _ h rfl | (cases h; rfl) | cases h

/-- All that an instruction in Execute can do, at a state in which the block runs there (R187 to R191, R372). -/
inductive ExecuteEffect (s : State) : State → Prop
  | done (u : State) (hf : BodyFrame s u) (hm : MemoryEffect s u) (hc : u.inCallback = s.inCallback) :
      ExecuteEffect s u.advance
  | call (u : State) (hf : BodyFrame s u) (hm : MemorySame s u) (hc : u.inCallback = true) :
      ExecuteEffect s (u.suspend (s.pc + 4#32) (slotIndex s.params (s.pc + 4#32) = 0))
  | unitDone (u : State) (next : Word) (hf : BodyFrame s u) (hm : MemoryEffect s u) (hc : u.inCallback = s.inCallback) :
      ExecuteEffect s { u with pc := next, dstate := .yield }
  | unitCall (u : State) (next : Word) (hf : BodyFrame s u) (hm : MemorySame s u) (hc : u.inCallback = true) :
      ExecuteEffect s (u.suspend next true)
  | stop (regs : Vector Word 31) (cnt : Word) (c : FaultCode) (instr addr : Option Word) (bd : Bool) :
      ExecuteEffect s (State.faultStop { s with regs := regs, cnt := cnt } c s.pc instr addr bd)

/-- Every guest instruction has its effect. -/
theorem exec_guest_cases {i : Instr} (s : State) (h : i.isCommand = false) :
    ∃ t, exec i s = .next t ∧ ExecuteEffect s t := by
  cases hc : i.isControlFlow with
  | false =>
    rw [exec_plain s hc h]
    have hs := bodySpec_slotBody i s
    cases hb : slotBody i s with
    | done u =>
      rw [hb] at hs
      exact ⟨_, rfl, .done u hs.1 hs.2.1 hs.2.2⟩
    | call u =>
      rw [hb] at hs
      refine ⟨_, rfl, ?_⟩
      rw [hs.1.pc, hs.1.params]
      exact .call u hs.1 hs.2.1 hs.2.2
    | fault c a => exact ⟨_, rfl, .stop s.regs s.cnt c _ a false⟩
  | true =>
    rcases exec_control_cases s hc with ⟨-, he⟩ | ⟨d, -, -, he⟩ | ⟨d, -, -, he⟩
    · exact ⟨_, he, .stop s.regs s.cnt _ _ _ _⟩
    · exact ⟨_, he, .stop s.regs s.cnt _ _ _ _⟩
    · obtain ⟨regs, hu⟩ := slotEntry_eq i s
      have hs := bodySpec_slotWordBody d (slotEntry i s)
      rw [he]
      cases hb : slotWordBody d (slotEntry i s) with
      | done u =>
        rw [hb, hu] at hs
        exact ⟨_, rfl, .unitDone u _ ⟨hs.1.1, hs.1.2, hs.1.3, hs.1.4, hs.1.5, hs.1.6, hs.1.7, hs.1.8, hs.1.9⟩ hs.2.1 hs.2.2⟩
      | call u =>
        rw [hb, hu] at hs
        exact ⟨_, rfl, .unitCall u _ ⟨hs.1.1, hs.1.2, hs.1.3, hs.1.4, hs.1.5, hs.1.6, hs.1.7, hs.1.8, hs.1.9⟩ hs.2.1 hs.2.2⟩
      | fault c a =>
        refine ⟨_, rfl, ?_⟩
        rw [hu]
        exact .stop regs _ c _ a true

/-- All that a step can do (R6, R160, R184 to R191). -/
inductive StepEffect (s : State) : State → Prop
  | idle (h : s.life ≠ .running) : StepEffect s s
  | host (h : s.life ≠ .running) (p : Packet) (rest : List Packet) (hp : s.hostPort = p :: rest) (t : State)
      (ht : CommandEffect { s with hostPort := rest } p t) : StepEffect s t
  | ownerFree (h : s.life = .running) (hi : s.inCallback = true) (c : Word) (d : Nat) :
      StepEffect s { s.adoptReply c with draws := d }
  | ownerReply (h : s.life = .running) (hi : s.inCallback = true) (c : Word) (rest : List OwnerMove) :
      StepEffect s { s.adoptReply c with owner := rest }
  | ownerCommand (h : s.life = .running) (hi : s.inCallback = true) (p : Packet) (rest : List OwnerMove) (t : State)
      (ht : CommandEffect { s with owner := rest } p t) : StepEffect s t
  | yieldEnd (h : s.life = .running) (hi : s.inCallback = false) (hd : s.dstate = .yield) : StepEffect s s.endRun
  | yieldOn (h : s.life = .running) (hi : s.inCallback = false) (hd : s.dstate = .yield) :
      StepEffect s { s with dstate := .dispatch }
  | dispatchStop (h : s.life = .running) (hi : s.inCallback = false) (hd : s.dstate = .dispatch) (c : FaultCode) :
      StepEffect s (s.dispatchFault c)
  | enter (h : s.life = .running) (hi : s.inCallback = false) (hd : s.dstate = .dispatch) (p : Nat)
      (ha : s.pc.toNat % 4 = 0) (hp : pageOf s.params s.pc = some p) : StepEffect s (s.enterPage p)
  | execute (h : s.life = .running) (hi : s.inCallback = false) (hd : s.dstate = .execute) (t : State)
      (ht : ExecuteEffect s t) : StepEffect s t

theorem lowBits_ne (a : Word) : a.extractLsb' 0 2 ≠ 0#2 ↔ a.toNat % 4 ≠ 0 := by
  rw [ne_eq, ← BitVec.toNat_inj, BitVec.extractLsb'_toNat]
  simp

/-- Every step has its effect. -/
theorem step_cases (s : State) : ∃ t, step s = .next t ∧ StepEffect s t := by
  have host : s.life ≠ .running → ∃ t, hostMove s = .next t ∧ StepEffect s t := by
    intro h
    unfold hostMove
    cases hp : s.hostPort with
    | nil => exact ⟨s, rfl, .idle h⟩
    | cons p rest =>
      obtain ⟨t, he, ht⟩ := takeCommand_cases { s with hostPort := rest } p
      exact ⟨t, he, .host h p rest hp t ht⟩
  unfold step move
  cases hl : s.life with
  | uninitialized => exact host (by simp [hl])
  | ready => exact host (by simp [hl])
  | destroyed => exact host (by simp [hl])
  | running =>
    cases hi : s.inCallback with
    | true =>
      simp only [if_true]
      unfold ownerMove
      cases ho : s.owner with
      | nil => exact ⟨_, rfl, .ownerFree hl hi _ _⟩
      | cons m rest =>
        cases m with
        | reply c => exact ⟨_, rfl, .ownerReply hl hi c rest⟩
        | command p =>
          obtain ⟨t, he, ht⟩ := takeCommand_cases { s with owner := rest } p
          exact ⟨t, he, .ownerCommand hl hi p rest t ht⟩
    | false =>
      simp only [Bool.false_eq_true, if_false]
      unfold runMove
      cases hd : s.dstate with
      | yield =>
        refine ⟨_, rfl, ?_⟩
        unfold yieldMove
        split
        · exact .yieldEnd hl hi hd
        · exact .yieldOn hl hi hd
      | dispatch =>
        refine ⟨_, rfl, ?_⟩
        unfold dispatchMove
        split
        · exact .dispatchStop hl hi hd _
        · rename_i ha
          rw [lowBits_ne, not_not] at ha
          split
          · exact .enter hl hi hd _ ha (by simp [pageOf, *])
          · exact .dispatchStop hl hi hd _
          · exact .enter hl hi hd _ ha (by simp [pageOf, *])
          · exact .dispatchStop hl hi hd _
      | execute =>
        dsimp only
        unfold executeMove
        split
        · rename_i i hw
          obtain ⟨t, he, ht⟩ := exec_guest_cases s (decodeGuest_not_command hw)
          exact ⟨t, he, .execute hl hi hd t ht⟩
        · exact ⟨_, rfl, .execute hl hi hd _ (.stop s.regs s.cnt _ _ _ _)⟩
        · exact ⟨_, rfl, .execute hl hi hd _ (.stop s.regs s.cnt _ _ _ _)⟩
        · exact ⟨_, rfl, .execute hl hi hd _ (.stop s.regs s.cnt _ _ _ _)⟩

/-- The inversion of a step. -/
theorem stepEffect_of_stepsTo {s t : State} (h : stepsTo s t) : StepEffect s t := by
  obtain ⟨u, he, hu⟩ := step_cases s
  unfold stepsTo at h
  rw [he] at h
  cases h
  exact hu

end Sys2Proof.Machine
end

