-- ==== Sys2Proof/Tests/Slice0.lean ====
section
/-! SUPPORT. The model's own tests. Every expected value is one the spec gives: the example sentence of the
instruction's rule, a row of a table of the spec, or a word written from the encoding rules R111 to R116. The
second half shows, for every obligation with hypotheses, a state and operands that meet them. -/
namespace Sys2Proof.Tests
open Sys2Proof Sys2Proof.Machine

/-! ## Helpers -/

/-- The outcome is a next state of which `p` holds. -/
def holdsNext (o : Host.Outcome State Fault Refusal) (p : State → Bool) : Bool :=
  match o with
  | .next t => p t
  | .fault _ => false
  | .refused _ => false

/-- A block in Execute at `pc`, ten cycles left, with `a` in `x[8]` and `b` in `x[9]`. -/
def inExec (pc a b : Word) : State :=
  { State.reset with
    regs := (State.reset.regs.set 7 a).set 8 b
    pc := pc
    cnt := 10#32
    budget := 10#32
    c0 := 10#32
    life := .running
    dstate := .execute }

/-- The same at `0x100` with the word `m` in RAM at `0x200`. -/
def withWord (a b m : Word) : State := { inExec 0x100#32 a b with ram := writeWord [] 0x200 m }

/-- The same at `0x100` with `HI` and `LO` set. -/
def withHiLo (hi lo : Word) : State := { inExec 0x100#32 0x1234#32 0#32 with hi := hi, lo := lo }

/-- The same at `pc` with the word `d` in the slot after it in the block of page 0. -/
def withSlot (pc a b d : Word) : State := { inExec pc a b with blk := sparsePut 0#32 [] (slotIndex Params.specDefault pc + 1) d }

/-- The block in a lifecycle state, with commands on the host's port. -/
def hosted (l : Life) (ps : List Packet) : State := { State.reset with life := l, hostPort := ps }

/-- The block with a callback request outstanding, and moves of its owner queued. -/
def inCallback (ms : List OwnerMove) : State :=
  { inExec 0x100#32 0#32 0#32 with inCallback := true, resumePc := 0x104#32, owner := ms }

/-- The block in Dispatch at `pc`. -/
def inDispatch (pc : Word) : State := { inExec pc 0#32 0#32 with dstate := .dispatch }

/-- The block in Yield with the counter `c`. -/
def inYield (c : Word) : State := { inExec 0#32 0#32 0#32 with dstate := .yield, cnt := c }

/-- The address of the operand `0(x[8])`. -/
abbrev ea (s : State) : Word := s.reg 8#5 + (0#16).signExtend 32

/-- `x[8]` at the word `0x8899AABB`, at its byte 1, at its byte 3. -/
abbrev atWord : State := withWord 0x200#32 0#32 0x8899AABB#32

/-- See `atWord`. -/
abbrev atByte1 : State := withWord 0x201#32 0#32 0x8899AABB#32

/-- See `atWord`. -/
abbrev atByte3 : State := withWord 0x203#32 0#32 0x8899AABB#32

/-- A `RESERVED` word where Execute fetches. -/
def reservedNext : State := { inExec 0x100#32 0#32 0#32 with blk := [(64, 0xFFFFFFFF#32)] }

/-- A Ready block with an event pending at `n`. -/
def withEvent (n : Word) : State := { hosted .ready [] with nextEvent := n, nePending := true }

/-! ## Well-formedness: each check refuses (R127, R155 to R157, R163) -/

theorem test_wf_isValid : (Instr.isValid 1279#32).wellFormed Params.specDefault = true ∧ (Instr.isValid 1280#32).wellFormed Params.specDefault = false := by
  decide
theorem test_wf_invalidate :
    (Instr.invalidate 1279#32).wellFormed Params.specDefault = true ∧ (Instr.invalidate 1280#32).wellFormed Params.specDefault = false := by decide
theorem test_wf_extWrite_size :
    (Instr.extWrite 0#32 0#32 0#32).wellFormed Params.specDefault = false ∧ (Instr.extWrite 0#32 3#32 0#32).wellFormed Params.specDefault = false ∧
    (Instr.extWrite 0#32 8#32 0#32).wellFormed Params.specDefault = false := by decide
theorem test_wf_extWrite_aligned :
    (Instr.extWrite 1#32 2#32 0#32).wellFormed Params.specDefault = false ∧ (Instr.extWrite 2#32 4#32 0#32).wellFormed Params.specDefault = false ∧
    (Instr.extWrite 3#32 1#32 0#32).wellFormed Params.specDefault = true := by decide
theorem test_wf_getState : (Instr.getState 41#6).wellFormed Params.specDefault = true ∧ (Instr.getState 42#6).wellFormed Params.specDefault = false := by
  decide
theorem test_wf_setReg : (Instr.setReg 33#6 0#32).wellFormed Params.specDefault = true ∧
  (Instr.setReg 34#6 0#32).wellFormed Params.specDefault = false := by
  decide

/-! ## Parameters other than the defaults (R9, R11, R13) -/

/-- Pages of 4 KiB, other bases, region 1 folded onto region 0, and 3 cycles for a word whose primary opcode is
that of `ADDIU`. -/
def otherParams : Params :=
  { pageShift := 12
    scratchBase := 0x00400000#32
    romBase := 0x01000000#32
    regionMask := #v[0xFFFFFFFF#32, 0x1FFFFFFF#32, 0xFFFFFFFF#32, 0xFFFFFFFF#32, 0xFFFFFFFF#32, 0xFFFFFFFF#32,
      0xFFFFFFFF#32, 0xFFFFFFFF#32]
    cycleCosts := [⟨0xFC000000#32, 0x24000000#32, 3⟩]
    cycleCostElse := 1 }

theorem otherParams_legal : otherParams.Legal where
  shift := by decide
  ramWhole := by decide
  romWhole := by decide
  romAligned := by decide
  scratchAligned := by decide
  ramBelowScratch := by decide
  ramBelowRom := by decide
  scratchOffRom := by decide
  masks := by decide
  cost := fun w => by
    simp only [Params.cycleCost, otherParams, costFrom]
    split <;> decide

/-- R60 to R66 worked by hand under `otherParams`. -/
theorem test_resolve_otherParams :
    resolve otherParams 0x20001004#32 = .ram 0x1004 1 ∧ resolve otherParams 0x00400004#32 = .scratch 4 ∧
    resolve otherParams 0x01001000#32 = .rom 0x1000 513 ∧ resolve otherParams 0x80000000#32 = .unmapped ∧
    otherParams.totalPages = 640 := by decide

/-- R188: the charge is the word's own; R190 b: `0x800` is no page boundary where pages have 4 KiB. -/
theorem test_step_otherParams :
    holdsNext (exec (.addiu 9#5 8#5 1#16) { inExec 0x7FC#32 5#32 0#32 with params := otherParams })
      (fun t => t.cnt = 7#32 && t.dstate = .execute && t.params = otherParams) = true ∧
    holdsNext (exec (.addu 9#5 8#5 8#5) { inExec 0xFFC#32 5#32 0#32 with params := otherParams })
      (fun t => t.cnt = 9#32 && t.dstate = .yield) = true := by decide

/-! ## Decoding: a word of every instruction, from the example sentences of its rule or from R111 to R116 -/

theorem test_decode_immediate :
    decodeGuest 0x2109FFFD#32 = .instr (.addi 9#5 8#5 0xFFFD#16) ∧
    decodeGuest 0x2509FFFF#32 = .instr (.addiu 9#5 8#5 0xFFFF#16) ∧
    decodeGuest 0x2909FFFF#32 = .instr (.slti 9#5 8#5 0xFFFF#16) ∧
    decodeGuest 0x2D09FFFF#32 = .instr (.sltiu 9#5 8#5 0xFFFF#16) ∧
    decodeGuest 0x3109FF00#32 = .instr (.andi 9#5 8#5 0xFF00#16) ∧
    decodeGuest 0x35098000#32 = .instr (.ori 9#5 8#5 0x8000#16) ∧
    decodeGuest 0x3909FFFF#32 = .instr (.xori 9#5 8#5 0xFFFF#16) ∧
    decodeGuest 0x3C108001#32 = .instr (.lui 16#5 0x8001#16) := by decide
theorem test_decode_register :
    decodeGuest 0x01095020#32 = .instr (.add 10#5 8#5 9#5) ∧
    decodeGuest 0x01095021#32 = .instr (.addu 10#5 8#5 9#5) ∧
    decodeGuest 0x01095022#32 = .instr (.sub 10#5 8#5 9#5) ∧
    decodeGuest 0x01095023#32 = .instr (.subu 10#5 8#5 9#5) ∧
    decodeGuest 0x01095024#32 = .instr (.and 10#5 8#5 9#5) ∧
    decodeGuest 0x01095025#32 = .instr (.or 10#5 8#5 9#5) ∧
    decodeGuest 0x01095026#32 = .instr (.xor 10#5 8#5 9#5) ∧
    decodeGuest 0x01095027#32 = .instr (.nor 10#5 8#5 9#5) ∧
    decodeGuest 0x0109502A#32 = .instr (.slt 10#5 8#5 9#5) ∧
    decodeGuest 0x0109502B#32 = .instr (.sltu 10#5 8#5 9#5) := by decide
theorem test_decode_shift :
    decodeGuest 0x00095100#32 = .instr (.sll 10#5 9#5 4#5) ∧
    decodeGuest 0x00095102#32 = .instr (.srl 10#5 9#5 4#5) ∧
    decodeGuest 0x00095103#32 = .instr (.sra 10#5 9#5 4#5) ∧
    decodeGuest 0x01095004#32 = .instr (.sllv 10#5 9#5 8#5) ∧
    decodeGuest 0x01095006#32 = .instr (.srlv 10#5 9#5 8#5) ∧
    decodeGuest 0x01095007#32 = .instr (.srav 10#5 9#5 8#5) ∧
    decodeGuest 0x00000000#32 = .instr (.sll 0#5 0#5 0#5) := by decide
theorem test_decode_muldiv :
    decodeGuest 0x01090018#32 = .instr (.mult 8#5 9#5) ∧
    decodeGuest 0x01090019#32 = .instr (.multu 8#5 9#5) ∧
    decodeGuest 0x0109001A#32 = .instr (.div 8#5 9#5) ∧
    decodeGuest 0x0109001B#32 = .instr (.divu 8#5 9#5) ∧
    decodeGuest 0x00005010#32 = .instr (.mfhi 10#5) ∧
    decodeGuest 0x01000011#32 = .instr (.mthi 8#5) ∧
    decodeGuest 0x00005012#32 = .instr (.mflo 10#5) ∧
    decodeGuest 0x01000013#32 = .instr (.mtlo 8#5) := by decide
theorem test_decode_load :
    decodeGuest 0x81090001#32 = .instr (.lb 9#5 8#5 1#16) ∧
    decodeGuest 0x85090002#32 = .instr (.lh 9#5 8#5 2#16) ∧
    decodeGuest 0x89090003#32 = .instr (.lwl 9#5 8#5 3#16) ∧
    decodeGuest 0x8D090004#32 = .instr (.lw 9#5 8#5 4#16) ∧
    decodeGuest 0x91090001#32 = .instr (.lbu 9#5 8#5 1#16) ∧
    decodeGuest 0x95090002#32 = .instr (.lhu 9#5 8#5 2#16) ∧
    decodeGuest 0x99090000#32 = .instr (.lwr 9#5 8#5 0#16) := by decide
theorem test_decode_store :
    decodeGuest 0xA1090001#32 = .instr (.sb 9#5 8#5 1#16) ∧
    decodeGuest 0xA5090002#32 = .instr (.sh 9#5 8#5 2#16) ∧
    decodeGuest 0xA9090003#32 = .instr (.swl 9#5 8#5 3#16) ∧
    decodeGuest 0xAE090100#32 = .instr (.sw 9#5 16#5 0x100#16) ∧
    decodeGuest 0xB9090000#32 = .instr (.swr 9#5 8#5 0#16) := by decide
theorem test_decode_control :
    decodeGuest 0x08004002#32 = .instr (.j 0x4002#26) ∧
    decodeGuest 0x0C004010#32 = .instr (.jal 0x4010#26) ∧
    decodeGuest 0x03E00008#32 = .instr (.jr 31#5) ∧
    decodeGuest 0x0100F809#32 = .instr (.jalr 31#5 8#5) ∧
    decodeGuest 0x11090003#32 = .instr (.beq 8#5 9#5 3#16) ∧
    decodeGuest 0x1500FFFD#32 = .instr (.bne 8#5 0#5 0xFFFD#16) ∧
    decodeGuest 0x19000002#32 = .instr (.blez 8#5 2#16) ∧
    decodeGuest 0x1D000002#32 = .instr (.bgtz 8#5 2#16) ∧
    decodeGuest 0x05000002#32 = .instr (.bltz 8#5 2#16) ∧
    decodeGuest 0x05010002#32 = .instr (.bgez 8#5 2#16) ∧
    decodeGuest 0x05100002#32 = .instr (.bltzal 8#5 2#16) ∧
    decodeGuest 0x05110002#32 = .instr (.bgezal 8#5 2#16) := by decide
theorem test_decode_system :
    decodeGuest 0x0000000C#32 = .instr (.syscall 0#20) ∧
    decodeGuest 0x000001CD#32 = .instr (.brk 7#20) ∧
    decodeGuest 0x40086000#32 = .instr (.cop0 0x0086000#26) ∧
    decodeGuest 0x44086000#32 = .instr (.cop1 0x0086000#26) ∧
    decodeGuest 0x48086000#32 = .instr (.cop2 0x0086000#26) ∧
    decodeGuest 0x4C086000#32 = .instr (.cop3 0x0086000#26) := by decide
theorem test_decode_coprocessor_memory :
    decodeGuest 0xC1010004#32 = .instr (.lwc0 1#5 8#5 4#16) ∧
    decodeGuest 0xC5010004#32 = .instr (.lwc1 1#5 8#5 4#16) ∧
    decodeGuest 0xC9010000#32 = .instr (.lwc2 1#5 8#5 0#16) ∧
    decodeGuest 0xCD010004#32 = .instr (.lwc3 1#5 8#5 4#16) ∧
    decodeGuest 0xE1010004#32 = .instr (.swc0 1#5 8#5 4#16) ∧
    decodeGuest 0xE5010004#32 = .instr (.swc1 1#5 8#5 4#16) ∧
    decodeGuest 0xE9010000#32 = .instr (.swc2 1#5 8#5 0#16) ∧
    decodeGuest 0xED010004#32 = .instr (.swc3 1#5 8#5 4#16) := by decide

/-- The same `JAL` word, written out bit by bit from the J format of R111: `op = 000011`, then `target26`. -/
theorem test_decode_jal_bits :
    decodeGuest 0b00001100000000000100000000010000#32 = .instr (.jal 0b00000000000100000000010000#26) := by decide

/-- The commands of R125. -/
theorem test_decode_commands :
    decodeCommand ⟨0x0#4, 1#32, 2#32, 3#32⟩ = .instr .init ∧
    decodeCommand ⟨0x1#4, 1#32, 2#32, 3#32⟩ = .instr .delete ∧
    decodeCommand ⟨0x2#4, 1#32, 2#32, 3#32⟩ = .instr (.setPc 1#32) ∧
    decodeCommand ⟨0x3#4, 1#32, 2#32, 3#32⟩ = .instr (.setNextEvent 1#32) ∧
    decodeCommand ⟨0x4#4, 1#32, 2#32, 3#32⟩ = .instr (.run 1#32) ∧
    decodeCommand ⟨0x5#4, 1#32, 2#32, 3#32⟩ = .instr (.resolve 1#32) ∧
    decodeCommand ⟨0x6#4, 1#32, 2#32, 3#32⟩ = .instr (.isValid 1#32) ∧
    decodeCommand ⟨0x7#4, 1#32, 2#32, 3#32⟩ = .instr (.invalidate 1#32) ∧
    decodeCommand ⟨0x8#4, 1#32, 2#32, 3#32⟩ = .instr (.extWrite 1#32 2#32 3#32) ∧
    decodeCommand ⟨0x9#4, 1#32, 2#32, 3#32⟩ = .instr (.getState 1#6) ∧
    decodeCommand ⟨0xA#4, 1#32, 2#32, 3#32⟩ = .instr (.setReg 1#6 2#32) ∧
    decodeCommand ⟨0xB#4, 1#32, 2#32, 3#32⟩ = .reservedCommand ∧
    decodeCommand ⟨0xF#4, 1#32, 2#32, 3#32⟩ = .reservedCommand := by decide

/-- The `RESERVED` examples of R355. -/
theorem test_decode_reserved :
    decodeGuest 0xFFFFFFFF#32 = .reserved ∧ decodeGuest 0x0000003F#32 = .reserved ∧
    decodeGuest 0x04020000#32 = .reserved ∧ decodeGuest 0x00200000#32 = .reserved ∧
    decodeGuest 0x70000000#32 = .reserved := by decide

/-- A word stands in memory low byte first (R71, R72, R110). -/
theorem test_decode_bytes :
    decodeBytes [0x21#8, 0x50#8, 0x09#8, 0x01#8] = .instr (.addu 10#5 8#5 9#5) ∧
      decodeBytes [0x21#8] = .notOneWord := by
  decide

theorem test_tableWord :
    decodeTableWord 32 0x01095021 = some (.addu 10#5 8#5 9#5) ∧ decodeTableWord 32 0x70000000 = none ∧
    decodeTableWord 8 0x4 = some (.run 0#32) ∧ decodeTableWord 8 0xB = none := by decide

/-- The placed word or command is the one the next step runs, from reset on. -/
theorem test_withFetchWord :
    holdsNext (step (State.reset.withFetchWord 32 0x24080005)) (fun t => t.reg 8#5 = 5#32) = true ∧
    holdsNext (step (State.reset.withFetchWord 8 0x5)) (fun t => t.response = some (.resolution 0#32 0#32 0#32)) = true := by
  decide

/-! ## One step of each instruction -/

theorem test_addi :
    holdsNext (exec (.addi 9#5 8#5 0xFFFD#16) (inExec 0x100#32 5#32 0#32))
      (fun t => t.reg 9#5 = 2#32 && t.pc = 0x104#32 && t.cnt = 9#32) = true := by decide
theorem test_addi_overflow :
    holdsNext (exec (.addi 9#5 8#5 0xFFFD#16) (inExec 0x100#32 0x80000001#32 7#32))
      (fun t => t.faultCode = .overflow && t.reg 9#5 = 7#32 && t.cnt = 10#32 && t.pc = 0x100#32) = true := by decide
theorem test_addiu :
    holdsNext (exec (.addiu 9#5 8#5 0xFFFF#16) (inExec 0x100#32 0#32 0#32))
      (fun t => t.reg 9#5 = 0xFFFFFFFF#32) = true := by decide
theorem test_slti :
    holdsNext (exec (.slti 9#5 8#5 0xFFFF#16) (inExec 0x100#32 0xFFFFFFFE#32 0#32))
      (fun t => t.reg 9#5 = 1#32) = true := by decide
theorem test_sltiu :
    holdsNext (exec (.sltiu 9#5 8#5 0xFFFF#16) (inExec 0x100#32 5#32 0#32))
      (fun t => t.reg 9#5 = 1#32) = true := by decide
theorem test_andi :
    holdsNext (exec (.andi 9#5 8#5 0xFF00#16) (inExec 0x100#32 0x12345678#32 0#32))
      (fun t => t.reg 9#5 = 0x5600#32) = true := by decide
theorem test_ori :
    holdsNext (exec (.ori 9#5 8#5 0x8000#16) (inExec 0x100#32 0x00010001#32 0#32))
      (fun t => t.reg 9#5 = 0x00018001#32) = true := by decide
theorem test_xori :
    holdsNext (exec (.xori 9#5 8#5 0xFFFF#16) (inExec 0x100#32 0x12345678#32 0#32))
      (fun t => t.reg 9#5 = 0x1234A987#32) = true := by decide
theorem test_lui :
    holdsNext (exec (.lui 9#5 0x8001#16) (inExec 0x100#32 0#32 0#32))
      (fun t => t.reg 9#5 = 0x80010000#32) = true := by decide
theorem test_add :
    holdsNext (exec (.add 10#5 8#5 9#5) (inExec 0x100#32 7#32 0xFFFFFFFE#32))
      (fun t => t.reg 10#5 = 5#32) = true := by decide
theorem test_add_overflow :
    holdsNext (exec (.add 0#5 8#5 9#5) (inExec 0x100#32 0x80000000#32 0x80000000#32))
      (fun t => t.faultCode = .overflow && t.faultInstr = 0x01090020#32) = true := by decide
theorem test_addu :
    holdsNext (exec (.addu 10#5 8#5 9#5) (inExec 0x100#32 0x7FFFFFFF#32 1#32))
      (fun t => t.reg 10#5 = 0x80000000#32) = true := by decide
theorem test_sub :
    holdsNext (exec (.sub 10#5 8#5 9#5) (inExec 0x100#32 3#32 5#32))
      (fun t => t.reg 10#5 = 0xFFFFFFFE#32) = true := by decide
theorem test_sub_overflow :
    holdsNext (exec (.sub 10#5 8#5 9#5) (inExec 0x100#32 0#32 0x80000000#32))
      (fun t => t.faultCode = .overflow) = true := by decide
theorem test_subu :
    holdsNext (exec (.subu 10#5 8#5 9#5) (inExec 0x100#32 0#32 1#32))
      (fun t => t.reg 10#5 = 0xFFFFFFFF#32) = true := by decide
theorem test_and :
    holdsNext (exec (.and 10#5 8#5 9#5) (inExec 0x100#32 0x0F0F0F0F#32 0x00FFFF00#32))
      (fun t => t.reg 10#5 = 0x000F0F00#32) = true := by decide
theorem test_or :
    holdsNext (exec (.or 10#5 8#5 9#5) (inExec 0x100#32 0x0F0F0F0F#32 0x00FFFF00#32))
      (fun t => t.reg 10#5 = 0x0FFFFF0F#32) = true := by decide
theorem test_xor :
    holdsNext (exec (.xor 10#5 8#5 9#5) (inExec 0x100#32 0x0F0F0F0F#32 0x00FFFF00#32))
      (fun t => t.reg 10#5 = 0x0FF0F00F#32) = true := by decide
theorem test_nor :
    holdsNext (exec (.nor 10#5 8#5 9#5) (inExec 0x100#32 0x0F0F0F0F#32 0x00FFFF00#32))
      (fun t => t.reg 10#5 = 0xF00000F0#32) = true := by decide
theorem test_slt :
    holdsNext (exec (.slt 10#5 8#5 9#5) (inExec 0x100#32 0xFFFFFFFF#32 1#32))
      (fun t => t.reg 10#5 = 1#32) = true := by decide
theorem test_sltu :
    holdsNext (exec (.sltu 10#5 8#5 9#5) (inExec 0x100#32 0xFFFFFFFF#32 1#32))
      (fun t => t.reg 10#5 = 0#32) = true := by decide
theorem test_sll :
    holdsNext (exec (.sll 10#5 9#5 4#5) (inExec 0x100#32 0#32 0x12345678#32))
      (fun t => t.reg 10#5 = 0x23456780#32) = true := by decide
theorem test_srl :
    holdsNext (exec (.srl 10#5 9#5 4#5) (inExec 0x100#32 0#32 0x87654321#32))
      (fun t => t.reg 10#5 = 0x08765432#32) = true := by decide
theorem test_sra :
    holdsNext (exec (.sra 10#5 9#5 4#5) (inExec 0x100#32 0#32 0x87654321#32))
      (fun t => t.reg 10#5 = 0xF8765432#32) = true := by decide
theorem test_sllv :
    holdsNext (exec (.sllv 10#5 9#5 8#5) (inExec 0x100#32 36#32 1#32))
      (fun t => t.reg 10#5 = 0x10#32) = true := by decide
theorem test_srlv :
    holdsNext (exec (.srlv 10#5 9#5 8#5) (inExec 0x100#32 31#32 0x80000000#32))
      (fun t => t.reg 10#5 = 1#32) = true := by decide
theorem test_srav :
    holdsNext (exec (.srav 10#5 9#5 8#5) (inExec 0x100#32 31#32 0x80000000#32))
      (fun t => t.reg 10#5 = 0xFFFFFFFF#32) = true := by decide
theorem test_mult :
    holdsNext (exec (.mult 8#5 9#5) (inExec 0x100#32 0xFFFFFFFE#32 3#32))
      (fun t => t.hi = 0xFFFFFFFF#32 && t.lo = 0xFFFFFFFA#32) = true := by decide
theorem test_mult_square :
    holdsNext (exec (.mult 8#5 9#5) (inExec 0x100#32 0x80000000#32 0x80000000#32))
      (fun t => t.hi = 0x40000000#32 && t.lo = 0#32) = true := by decide
theorem test_multu :
    holdsNext (exec (.multu 8#5 9#5) (inExec 0x100#32 0xFFFFFFFE#32 3#32))
      (fun t => t.hi = 2#32 && t.lo = 0xFFFFFFFA#32) = true := by decide
theorem test_div :
    holdsNext (exec (.div 8#5 9#5) (inExec 0x100#32 0xFFFFFFF9#32 2#32))
      (fun t => t.hi = 0xFFFFFFFF#32 && t.lo = 0xFFFFFFFD#32) = true := by decide
theorem test_div_sign :
    holdsNext (exec (.div 8#5 9#5) (inExec 0x100#32 7#32 0xFFFFFFFE#32))
      (fun t => t.hi = 1#32 && t.lo = 0xFFFFFFFD#32) = true := by decide
theorem test_divu :
    holdsNext (exec (.divu 8#5 9#5) (inExec 0x100#32 0xFFFFFFF9#32 2#32))
      (fun t => t.hi = 1#32 && t.lo = 0x7FFFFFFC#32) = true := by decide
theorem test_mfhi :
    holdsNext (exec (.mfhi 10#5) (withHiLo 0xAAAA#32 0xBBBB#32))
      (fun t => t.reg 10#5 = 0xAAAA#32) = true := by decide
theorem test_mthi :
    holdsNext (exec (.mthi 8#5) (withHiLo 0xAAAA#32 0xBBBB#32))
      (fun t => t.hi = 0x1234#32 && t.lo = 0xBBBB#32) = true := by decide
theorem test_mflo :
    holdsNext (exec (.mflo 10#5) (withHiLo 0xAAAA#32 0xBBBB#32))
      (fun t => t.reg 10#5 = 0xBBBB#32) = true := by decide
theorem test_mtlo :
    holdsNext (exec (.mtlo 8#5) (withHiLo 0xAAAA#32 0xBBBB#32))
      (fun t => t.hi = 0xAAAA#32 && t.lo = 0x1234#32) = true := by decide
theorem test_lb :
    holdsNext (exec (.lb 9#5 8#5 1#16) (withWord 0x200#32 0#32 0x8899AABB#32))
      (fun t => t.reg 9#5 = 0xFFFFFFAA#32) = true := by decide
theorem test_lh :
    holdsNext (exec (.lh 9#5 8#5 2#16) (withWord 0x200#32 0#32 0x8899AABB#32))
      (fun t => t.reg 9#5 = 0xFFFF8899#32) = true := by decide
theorem test_lwl :
    holdsNext (exec (.lwl 9#5 8#5 1#16) (withWord 0x200#32 0x11223344#32 0x8899AABB#32))
      (fun t => t.reg 9#5 = 0xAABB3344#32) = true := by decide
theorem test_lwl_word :
    holdsNext (exec (.lwl 9#5 8#5 3#16) (withWord 0x200#32 0x11223344#32 0x8899AABB#32))
      (fun t => t.reg 9#5 = 0x8899AABB#32) = true := by decide
theorem test_lw :
    holdsNext (exec (.lw 9#5 8#5 4#16) (withWord 0x1FC#32 0#32 0x8899AABB#32))
      (fun t => t.reg 9#5 = 0x8899AABB#32) = true := by decide
theorem test_lw_misaligned :
    holdsNext (exec (.lw 9#5 8#5 0#16) (withWord 0x1F801812#32 7#32 0x8899AABB#32))
      (fun t => t.faultCode = .addrLoad && t.faultAddr = 0x1F801812#32 && t.reg 9#5 = 7#32) = true := by decide
theorem test_lbu :
    holdsNext (exec (.lbu 9#5 8#5 1#16) (withWord 0x200#32 0#32 0x8899AABB#32))
      (fun t => t.reg 9#5 = 0xAA#32) = true := by decide
theorem test_lhu :
    holdsNext (exec (.lhu 9#5 8#5 2#16) (withWord 0x200#32 0#32 0x8899AABB#32))
      (fun t => t.reg 9#5 = 0x8899#32) = true := by decide
theorem test_lwr :
    holdsNext (exec (.lwr 9#5 8#5 1#16) (withWord 0x200#32 0x11223344#32 0x8899AABB#32))
      (fun t => t.reg 9#5 = 0x118899AA#32) = true := by decide
theorem test_sb :
    holdsNext (exec (.sb 9#5 8#5 1#16) (withWord 0x200#32 0x12345678#32 0x8899AABB#32))
      (fun t => readWord t.ram 0x200 = 0x889978BB#32) = true := by decide
theorem test_sh :
    holdsNext (exec (.sh 9#5 8#5 2#16) (withWord 0x200#32 0x12345678#32 0x8899AABB#32))
      (fun t => readWord t.ram 0x200 = 0x5678AABB#32) = true := by decide
theorem test_swl :
    holdsNext (exec (.swl 9#5 8#5 1#16) (withWord 0x200#32 0x12345678#32 0x8899AABB#32))
      (fun t => readWord t.ram 0x200 = 0x88991234#32) = true := by decide
theorem test_sw :
    holdsNext (exec (.sw 9#5 16#5 0x100#16) (inExec 0x100#32 0#32 55#32))
      (fun t => readWord t.ram 0x100 = 0x37#32) = true := by decide
theorem test_sw_callback :
    holdsNext (exec (.sw 9#5 8#5 0x1810#16) (inExec 0x100#32 0x1F800000#32 0xE1000400#32))
      (fun t => t.inCallback && t.reqValue = 0xE1000400#32 && t.reqAddress = 0x1F801810#32 && t.reqCounter = 9#32 && t.reqKind = 2#3) = true := by decide
theorem test_swr :
    holdsNext (exec (.swr 9#5 8#5 1#16) (withWord 0x200#32 0x12345678#32 0x8899AABB#32))
      (fun t => readWord t.ram 0x200 = 0x345678BB#32) = true := by decide
theorem test_j :
    holdsNext (exec (.j 0x4002#26) (inExec 0x80010000#32 0#32 0#32))
      (fun t => t.pc = 0x80010008#32 && t.cnt = 8#32 && t.dstate = .yield) = true := by decide
theorem test_jal :
    holdsNext (exec (.jal 0x4010#26) (inExec 0x80010010#32 0#32 0#32))
      (fun t => t.pc = 0x80010040#32 && t.reg 31#5 = 0x80010018#32) = true := by decide
theorem test_jr :
    holdsNext (exec (.jr 8#5) (inExec 0x100#32 0x80010018#32 0#32))
      (fun t => t.pc = 0x80010018#32) = true := by decide
theorem test_jalr :
    holdsNext (exec (.jalr 31#5 8#5) (inExec 0x100#32 0x2000#32 0#32))
      (fun t => t.pc = 0x2000#32 && t.reg 31#5 = 0x108#32) = true := by decide
theorem test_beq :
    holdsNext (exec (.beq 8#5 9#5 3#16) (inExec 0x100#32 1#32 1#32))
      (fun t => t.pc = 0x110#32) = true := by decide
theorem test_bne :
    holdsNext (exec (.bne 8#5 0#5 0xFFFD#16) (inExec 0x80010014#32 1#32 0#32))
      (fun t => t.pc = 0x8001000C#32) = true := by decide
theorem test_blez :
    holdsNext (exec (.blez 8#5 2#16) (inExec 0x100#32 0x80000000#32 0#32))
      (fun t => t.pc = 0x10C#32) = true := by decide
theorem test_bgtz :
    holdsNext (exec (.bgtz 8#5 2#16) (inExec 0x100#32 0#32 0#32))
      (fun t => t.pc = 0x108#32) = true := by decide
theorem test_bltz :
    holdsNext (exec (.bltz 8#5 2#16) (inExec 0x100#32 0x80000000#32 0#32))
      (fun t => t.pc = 0x10C#32) = true := by decide
theorem test_bgez :
    holdsNext (exec (.bgez 8#5 2#16) (inExec 0x100#32 0x80000000#32 0#32))
      (fun t => t.pc = 0x108#32) = true := by decide
theorem test_bltzal :
    holdsNext (exec (.bltzal 8#5 2#16) (inExec 0x200#32 1#32 0#32))
      (fun t => t.pc = 0x208#32 && t.reg 31#5 = 0x208#32) = true := by decide
theorem test_bgezal :
    holdsNext (exec (.bgezal 8#5 2#16) (inExec 0x200#32 0#32 0#32))
      (fun t => t.pc = 0x20C#32 && t.reg 31#5 = 0x208#32) = true := by decide

/-- The slot executes before the branch takes effect, on the registers as the branch found them (R310): `JALR`
links before its slot reads `x[31]`. -/
theorem test_jalr_slot :
    holdsNext (exec (.jalr 31#5 8#5) (withSlot 0x100#32 0x2000#32 0#32 0x03E04821#32))
      (fun t => t.pc = 0x2000#32 && t.reg 9#5 = 0x108#32) = true := by decide
/-- A fault in the slot is recorded at the branch (R375), here the `ADD` of program P7 of 95_test_vectors.md. -/
theorem test_slot_overflow :
    holdsNext (exec (.beq 0#5 0#5 4#16) (withSlot 0x100#32 0x7FFFFFFF#32 1#32 0x01095020#32))
      (fun t => t.faultCode = .overflow && t.faultPc = 0x100#32 && t.faultInstr = 0x01095020#32 && t.faultBd && t.cnt = 9#32) = true := by decide
theorem test_branch_in_slot :
    holdsNext (exec (.beq 0#5 0#5 4#16) (withSlot 0x100#32 0#32 0#32 0x08000000#32))
      (fun t => t.faultCode = .branchInDelay && t.faultBd && t.cnt = 10#32) = true := by decide
theorem test_syscall :
    holdsNext (exec (.syscall 0#20) (inExec 0x80010020#32 0#32 0#32))
      (fun t => t.faultCode = .syscall && t.faultPc = 0x80010020#32 && t.pc = 0x80010020#32 && t.life = .ready) = true := by decide
theorem test_break :
    holdsNext (exec (.brk 7#20) (inExec 0x100#32 0#32 0#32))
      (fun t => t.faultCode = .brk && t.faultInstr.extractLsb' 6 20 = 7#20) = true := by decide
theorem test_cop0 :
    holdsNext (exec (.cop0 0x0086000#26) (inExec 0x100#32 0#32 0#32))
      (fun t => t.faultCode = .coprocessor && t.faultInstr = 0x40086000#32 && t.response = some (.value (0#32 - 10#32))) = true := by decide
theorem test_swc2 :
    holdsNext (exec (.swc2 1#5 8#5 0#16) (inExec 0x100#32 0x1F801810#32 0#32))
      (fun t => t.faultCode = .coprocessor && !t.inCallback) = true := by decide

theorem test_init :
    holdsNext (exec (.init) (hosted .uninitialized []))
      (fun t => t.life = .ready && t.response = some .ack) = true := by decide
theorem test_delete : holdsNext (exec (.delete) (hosted .ready [])) (fun t => t.life = .destroyed) = true := by decide
theorem test_set_pc :
    holdsNext (exec (.setPc 0x80010000#32) (hosted .ready []))
      (fun t => t.pc = 0x80010000#32) = true := by decide
theorem test_set_next_event :
    holdsNext (exec (.setNextEvent 40#32) (hosted .ready []))
      (fun t => t.nextEvent = 40#32 && t.nePending) = true := by decide
theorem test_run :
    holdsNext (exec (.run 100#32) ({ hosted .ready [] with nextEvent := 40#32, nePending := true }))
      (fun t => t.cnt = 40#32 && t.c0 = 40#32 && t.budget = 100#32 && !t.nePending && t.life = .running) = true :=
        by decide
theorem test_run_refused :
    holdsNext (exec (.run 1#32) (hosted .destroyed []))
      (fun t => t.life = .destroyed && t.response = some (.value 0#32) && t.faultCode = .none) = true := by decide
theorem test_resolve :
    holdsNext (exec (.resolve 0xBFC00180#32) (hosted .ready []))
      (fun t => t.response = some (.resolution 2#32 0x180#32 1024#32)) = true := by decide
theorem test_is_valid :
    holdsNext (exec (.isValid 0#32) (hosted .ready []))
      (fun t => t.response = some (.value 0#32)) = true := by decide
theorem test_is_valid_refused :
    holdsNext (exec (.isValid 1280#32) (hosted .ready []))
      (fun t => t.response = some .refused && t.faultCode = .invalidState) = true := by decide
theorem test_ext_write_refused :
    holdsNext (exec (.extWrite 0xBFC00000#32 4#32 0#32) (hosted .ready []))
      (fun t => t.response = some .refused && t.faultCode = .invalidState) = true := by decide
theorem test_get_state :
    holdsNext (exec (.getState 34#6) ({ hosted .ready [] with pc := 0x44#32 }))
      (fun t => t.response = some (.value 0x44#32)) = true := by decide
theorem test_set_reg :
    holdsNext (exec (.setReg 33#6 5#32) (hosted .ready []))
      (fun t => t.lo = 5#32) = true := by decide

/-- `VALID` is cleared by `invalidate`, `ext_write` (its example, R157) and a store, set by `translate`. -/
theorem test_validity :
    holdsNext (exec (.invalidate 0#32) { hosted .ready [] with valid := [(0, true)] }) (fun t => !t.pageValid 0) = true ∧
    holdsNext (exec (.extWrite 0x80000010#32 4#32 0#32) { hosted .ready [] with valid := [(0, true)] })
      (fun t => !t.pageValid 0) = true ∧
    holdsNext (exec (.sw 9#5 8#5 0x100#16) { inExec 0x100#32 0x80010000#32 55#32 with valid := [(32, true), (33, true)] })
      (fun t => readWord t.ram 0x10100 = 0x37#32 && !t.pageValid 32 && t.pageValid 33) = true := by decide

/-! ## The dispatcher (R184, R185, R195, R160) -/

theorem test_yield_end :
    holdsNext (step (inYield 0#32)) (fun t => t.life = .ready && t.response = some (.value 0#32)) = true := by decide
theorem test_yield_on : holdsNext (step (inYield 1#32)) (fun t => t.dstate = .dispatch) = true := by decide
theorem test_dispatch_misaligned :
    holdsNext (step (inDispatch 0x102#32)) (fun t => t.faultCode = .pcMisaligned && t.faultAddr = 0x102#32) = true := by
  decide
theorem test_dispatch_unmapped :
    holdsNext (step (inDispatch 0x00200000#32)) (fun t => t.faultCode = .fetchUnmapped && t.faultPc = 0x00200000#32) = true := by
  decide
theorem test_dispatch_enter :
    holdsNext (step { inDispatch 0x80010000#32 with valid := [(32, true)] })
      (fun t => t.dstate = .execute && t.curPage = 32) = true := by decide
/-- A reserved command code (vector L19), and `get_state(41)` before `init` and after `delete` (vectors L1, L21). -/
theorem test_reserved_command :
    holdsNext (step (hosted .ready [⟨0xB#4, 0#32, 0#32, 0#32⟩])) (fun t => t.faultCode = .invalidState) = true ∧
    holdsNext (exec (.getState 41#6) (hosted .uninitialized [])) (fun t => t.response = some (.value 0#32)) = true ∧
    holdsNext (exec (.getState 41#6) (hosted .destroyed [])) (fun t => t.response = some (.value 3#32)) = true := by
  decide
theorem test_callback_reply :
    holdsNext (step (inCallback [.reply 39#32])) (fun t => t.cnt = 39#32 && !t.inCallback && t.pc = 0x104#32) = true := by
  decide
theorem test_slot_across_pages :
    holdsNext (exec (.j 0#26) (inExec 0x001FFFFC#32 0#32 0#32))
      (fun t => t.faultCode = .fetchUnmapped && t.faultAddr = 0x00200000#32 && t.faultBd && t.cnt = 10#32) = true := by
  decide

/-! ## Witnesses: a state and operands that meet the hypotheses of each obligation -/

theorem witness_EncodeOfDecode :
    decodeGuest 0x2109FFFD#32 = .instr (.addi 9#5 8#5 0xFFFD#16) := by decide
theorem witness_UnassignedEntriesReserved :
    ((opField 0x50000000#32).toNat = 0x14 ∧ (opField 0xFFFFFFFF#32).toNat = 0x3F) ∧
    (opField 0x00000001#32 = 0#6 ∧ (functField 0x00000001#32).toNat = 0x01) ∧
    (opField 0x0000003F#32 = 0#6 ∧ (functField 0x0000003F#32).toNat = 0x3F) ∧
    (opField 0x04020000#32 = 1#6 ∧ (rtField 0x04020000#32).toNat = 0x02) ∧
    (opField 0x041F0000#32 = 1#6 ∧ (rtField 0x041F0000#32).toNat = 0x1F) := by decide
theorem witness_MustBeZeroFieldsStrict :
    (opField 0x00200000#32 = 0#6 ∧ (functField 0x00200000#32).toNat = 0x00 ∧ rsField 0x00200000#32 ≠ 0#5) ∧
    (opField 0x00000044#32 = 0#6 ∧ (functField 0x00000044#32).toNat = 0x04 ∧ shamtField 0x00000044#32 ≠ 0#5) ∧
    (opField 0x00010008#32 = 0#6 ∧ (functField 0x00010008#32).toNat = 0x08 ∧ rtField 0x00010008#32 ≠ 0#5) ∧
    (opField 0x00000049#32 = 0#6 ∧ functField 0x00000049#32 = 0x09#6 ∧ shamtField 0x00000049#32 ≠ 0#5) ∧
    (opField 0x00200010#32 = 0#6 ∧ (functField 0x00200010#32).toNat = 0x10 ∧ rsField 0x00200010#32 ≠ 0#5) ∧
    (opField 0x00000818#32 = 0#6 ∧ (functField 0x00000818#32).toNat = 0x18 ∧ rdField 0x00000818#32 ≠ 0#5) ∧
    (opField 0x3C200000#32 = 0x0F#6 ∧ rsField 0x3C200000#32 ≠ 0#5) ∧
    (opField 0x18010000#32 = 0x06#6 ∧ rtField 0x18010000#32 ≠ 0#5) := by decide
theorem witness_StepRunsDecoded :
    ((inExec 0x100#32 0#32 0#32).life = .running ∧ (inExec 0x100#32 0#32 0#32).inCallback = false ∧
      (inExec 0x100#32 0#32 0#32).dstate = .execute ∧
      decodeGuest (fetchWord (inExec 0x100#32 0#32 0#32)) = .instr (.sll 0#5 0#5 0#5)) ∧
    ((hosted .ready [⟨0x4#4, 5#32, 0#32, 0#32⟩]).life ≠ .running ∧
      (hosted .ready [⟨0x4#4, 5#32, 0#32, 0#32⟩]).hostPort = [⟨0x4#4, 5#32, 0#32, 0#32⟩] ∧
      decodeCommand ⟨0x4#4, 5#32, 0#32, 0#32⟩ = .instr (.run 5#32)) ∧
    ((inCallback [.command ⟨0x9#4, 35#32, 0#32, 0#32⟩]).life = .running ∧
      (inCallback [.command ⟨0x9#4, 35#32, 0#32, 0#32⟩]).inCallback = true ∧
      (inCallback [.command ⟨0x9#4, 35#32, 0#32, 0#32⟩]).owner = [.command ⟨0x9#4, 35#32, 0#32, 0#32⟩] ∧
      decodeCommand ⟨0x9#4, 35#32, 0#32, 0#32⟩ = .instr (.getState 35#6)) := by decide
theorem witness_ReservedWordStops :
    reservedNext.life = .running ∧ reservedNext.inCallback = false ∧ reservedNext.dstate = .execute ∧
    decodeGuest (fetchWord reservedNext) = .reserved := by decide
theorem witness_RegisterZero :
    State.reset.life = .ready := by decide
theorem witness_TrappingResults :
    ((0x7FFFFFFF#32).toInt = ((inExec 0#32 0x7FFFFFFE#32 1#32).reg 8#5).toInt + (1#16).toInt) ∧
    ((0x7FFFFFFF#32).toInt = ((inExec 0#32 0x7FFFFFFE#32 1#32).reg 8#5).toInt + ((inExec 0#32 0x7FFFFFFE#32 1#32).reg 9#5).toInt) ∧
    ((0x80000000#32).toInt = ((inExec 0#32 0x80000001#32 1#32).reg 8#5).toInt - ((inExec 0#32 0x80000001#32 1#32).reg 9#5).toInt) := by decide
theorem witness_TrappingOverflows :
    (∀ v : Word, v.toInt ≠ ((inExec 0#32 0x7FFFFFFF#32 1#32).reg 8#5).toInt + (1#16).toInt) ∧
    (∀ v : Word, v.toInt ≠ ((inExec 0#32 0x7FFFFFFF#32 1#32).reg 8#5).toInt + ((inExec 0#32 0x7FFFFFFF#32 1#32).reg 9#5).toInt) ∧
    (∀ v : Word, v.toInt ≠ ((inExec 0#32 0x80000000#32 1#32).reg 8#5).toInt - ((inExec 0#32 0x80000000#32 1#32).reg 9#5).toInt) := by
  have hi : ∀ v : Word, v.toInt < 2147483648 := fun v => v.toInt_lt
  have lo : ∀ v : Word, -2147483648 ≤ v.toInt := fun v => v.le_toInt
  exact ⟨fun v => Int.ne_of_lt (hi v), fun v => Int.ne_of_lt (hi v), fun v => (Int.ne_of_lt (lo v)).symm⟩
theorem witness_DivideResults :
    ((inExec 0#32 0x80000000#32 1#32).reg 9#5 ≠ 0#32 ∧
      ¬((inExec 0#32 0x80000000#32 1#32).reg 8#5 = 0x80000000#32 ∧
        (inExec 0#32 0x80000000#32 1#32).reg 9#5 = 0xFFFFFFFF#32)) := by decide
theorem witness_DivideOpen :
    (inExec 0#32 7#32 0#32).reg 9#5 = 0#32 ∧
    ((inExec 0#32 0x80000000#32 0xFFFFFFFF#32).reg 8#5 = 0x80000000#32 ∧
      (inExec 0#32 0x80000000#32 0xFFFFFFFF#32).reg 9#5 = 0xFFFFFFFF#32) := by decide
theorem witness_MappedLoads :
    (atWord).params.Legal ∧
    (ea atWord).toNat % 4 = 0 ∧
    atWord.readAddr (ea atWord) = some 0xBB#8 ∧
    atWord.readAddr (ea atWord + 1#32) = some 0xAA#8 ∧
    atWord.readAddr (ea atWord + 2#32) = some 0x99#8 ∧
    atWord.readAddr (ea atWord + 3#32) = some 0x88#8 :=
  ⟨specDefault_legal, by decide⟩
/-- The first address past RAM. -/
theorem witness_UnmappedLoads :
    (inExec 0#32 0x00200000#32 0#32).params.Legal ∧
    resolve Params.specDefault (ea (inExec 0#32 0x00200000#32 0#32)) = .unmapped ∧
    (ea (inExec 0#32 0x00200000#32 0#32)).toNat % 4 = 0 :=
  ⟨specDefault_legal, by decide⟩
theorem witness_MisalignedLoads :
    (ea (inExec 0#32 0x001FFFFF#32 0#32)).toNat % 2 ≠ 0 ∧
    (ea (inExec 0#32 0x001FFFFE#32 0#32)).toNat % 4 ≠ 0 := by decide
theorem witness_PartialLoads :
    (atByte3).params.Legal ∧
    atByte3.readAddr ((ea atByte3) &&& 0xFFFFFFFC#32) = some 0xBB#8 ∧
    atByte3.readAddr (((ea atByte3) &&& 0xFFFFFFFC#32) + 1#32) = some 0xAA#8 ∧
    atByte3.readAddr (((ea atByte3) &&& 0xFFFFFFFC#32) + 2#32) = some 0x99#8 ∧
    atByte3.readAddr (((ea atByte3) &&& 0xFFFFFFFC#32) + 3#32) = some 0x88#8 :=
  ⟨specDefault_legal, by decide⟩
theorem witness_UnalignedWordLoad :
    (atByte1).params.Legal ∧
    9#5 ≠ 0#5 ∧ 9#5 ≠ 8#5 ∧ atByte1.readAddr (atByte1.reg 8#5) = some 0xAA#8 ∧
    atByte1.readAddr (atByte1.reg 8#5 + 1#32) = some 0x99#8 ∧
    atByte1.readAddr (atByte1.reg 8#5 + 2#32) = some 0x88#8 ∧
    atByte1.readAddr (atByte1.reg 8#5 + 3#32) = some 0x00#8 :=
  ⟨specDefault_legal, by decide⟩
/-- The last word of RAM. -/
theorem witness_RamStores :
    (inExec 0#32 0x801FFFFC#32 0#32).params.Legal ∧
    resolve Params.specDefault (ea (inExec 0#32 0x801FFFFC#32 0#32)) = .ram 0x1FFFFC 1023 ∧
    (ea (inExec 0#32 0x801FFFFC#32 0#32)).toNat % 4 = 0 :=
  ⟨specDefault_legal, by decide⟩
/-- The last word of the scratchpad. -/
theorem witness_ScratchpadStores :
    (inExec 0#32 0x9F8003FC#32 0#32).params.Legal ∧
    resolve Params.specDefault (ea (inExec 0#32 0x9F8003FC#32 0#32)) = .scratch 0x3FC ∧
    (ea (inExec 0#32 0x9F8003FC#32 0#32)).toNat % 4 = 0 :=
  ⟨specDefault_legal, by decide⟩
theorem witness_PartialStores :
    (inExec 0#32 0x801FFFFF#32 0#32).params.Legal ∧
    resolve Params.specDefault (ea (inExec 0#32 0x801FFFFF#32 0#32)) = .ram 0x1FFFFF 1023 ∧
    resolve Params.specDefault (ea (inExec 0#32 0x1F800000#32 0#32)) = .scratch 0 :=
  ⟨specDefault_legal, by decide⟩
theorem witness_CallbackStores :
    (resolve Params.specDefault (ea (inExec 0#32 0x1F801810#32 0#32)) = .unmapped ∧
      (ea (inExec 0#32 0x1F801810#32 0#32)).toNat % 4 = 0) ∧
    (resolve Params.specDefault (ea (inExec 0#32 0xBFC00000#32 0#32)) = .rom 0 1024 ∧
      (ea (inExec 0#32 0xBFC00000#32 0#32)).toNat % 4 = 0) := by decide
theorem witness_MisalignedStores :
    (ea (inExec 0#32 0x1F801811#32 0#32)).toNat % 2 ≠ 0 ∧
    (ea (inExec 0#32 0x1F801812#32 0#32)).toNat % 4 ≠ 0 := by decide
/-- Across a page. -/
theorem witness_UnalignedWordStore :
    (inExec 0#32 0x7FD#32 0#32).params.Legal ∧
    resolve Params.specDefault ((inExec 0#32 0x7FD#32 0#32).reg 8#5) = .ram 0x7FD 0 ∧
    resolve Params.specDefault ((inExec 0#32 0x7FD#32 0#32).reg 8#5 + 3#32) = .ram 0x800 1 :=
  ⟨specDefault_legal, by decide⟩
/-- Stored through one alias, loaded through another. -/
theorem witness_LoadAfterStore :
    (inExec 0#32 0x200#32 0x80000200#32).params.Legal ∧
    ∃ t, resolve Params.specDefault (ea (inExec 0#32 0x200#32 0x80000200#32)) = .ram 0x200 0 ∧
      (ea (inExec 0#32 0x200#32 0x80000200#32)).toNat % 4 = 0 ∧
      exec (.sw 9#5 8#5 0#16) (inExec 0#32 0x200#32 0x80000200#32) = .next t ∧
      resolve Params.specDefault (t.reg 9#5 + (0#16).signExtend 32) = resolve Params.specDefault (ea (inExec 0#32 0x200#32 0x80000200#32)) :=
        ⟨specDefault_legal, _, by decide, by decide, rfl, by decide⟩
/-- Inside a page, and at its last slot. -/
theorem witness_JumpsWithNop :
    slotWord (inExec 0x100#32 0#32 0#32) = some 0#32 ∧ slotWord (inExec 0x7FC#32 0#32 0#32) = some 0#32 := by decide
theorem witness_BranchesWithNop :
    slotWord (inExec 0x100#32 0#32 0#32) = some 0#32 ∧ slotWord (inExec 0x7FC#32 0#32 0#32) = some 0#32 := by decide
theorem witness_UnitRunsSlot :
    ∃ u v, (Instr.beq 0#5 0#5 4#16).isControlFlow = true ∧
      slotWord (withSlot 0x100#32 0x1F801810#32 1#32 0x25090001#32) = some 0x25090001#32 ∧
      decodeGuest 0x25090001#32 = .instr (.addiu 9#5 8#5 1#16) ∧ (Instr.addiu 9#5 8#5 1#16).isControlFlow = false ∧
      slotWordBody 0x25090001#32 (slotEntry (.beq 0#5 0#5 4#16) (withSlot 0x100#32 0x1F801810#32 1#32 0x25090001#32)) = .done u ∧
      decodeGuest 0xAD090000#32 = .instr (.sw 9#5 8#5 0#16) ∧
      slotWordBody 0xAD090000#32 (slotEntry (.beq 0#5 0#5 4#16) (withSlot 0x100#32 0x1F801810#32 1#32 0xAD090000#32)) = .call v := ⟨_, _, by decide, by decide, by decide, by decide, rfl, by decide, rfl⟩
theorem witness_BranchInDelayStops :
    (Instr.jr 8#5).isControlFlow = true ∧ slotWord (withSlot 0x100#32 0#32 0#32 0x03E00008#32) = some 0x03E00008#32 ∧
    decodeGuest 0x03E00008#32 = .instr (.jr 31#5) ∧ (Instr.jr 31#5).isControlFlow = true := by decide
theorem witness_SlotFetch :
    (inExec 0x100#32 0#32 0#32).params.Legal ∧
    ((inExec 0x100#32 0#32 0#32).pc.toNat % 4 = 0 ∧ slotIndex Params.specDefault (inExec 0x7F8#32 0#32 0#32).pc ≠ 511) ∧
    (slotIndex Params.specDefault (inExec 0x7FC#32 0#32 0#32).pc = 511 ∧ pageOf Params.specDefault ((inExec 0x7FC#32 0#32 0#32).pc + 4#32) = some 1 ∧
      (inExec 0x7FC#32 0#32 0#32).readAddr ((inExec 0x7FC#32 0#32 0#32).pc + 4#32) = some 0#8 ∧
      (inExec 0x7FC#32 0#32 0#32).readAddr ((inExec 0x7FC#32 0#32 0#32).pc + 4#32 + 1#32) = some 0#8 ∧
      (inExec 0x7FC#32 0#32 0#32).readAddr ((inExec 0x7FC#32 0#32 0#32).pc + 4#32 + 2#32) = some 0#8 ∧
      (inExec 0x7FC#32 0#32 0#32).readAddr ((inExec 0x7FC#32 0#32 0#32).pc + 4#32 + 3#32) = some 0#8) ∧
    (slotIndex Params.specDefault (inExec 0x001FFFFC#32 0#32 0#32).pc = 511 ∧
      pageOf Params.specDefault ((inExec 0x001FFFFC#32 0#32 0#32).pc + 4#32) = none) :=
  ⟨specDefault_legal, by decide⟩
theorem witness_SlotFaults :
    (Instr.jr 8#5).isControlFlow = true ∧
    (slotWord (withSlot 0x100#32 0x7FFFFFFF#32 1#32 0x01095020#32) = some 0x01095020#32 ∧
      isControlWord 0x01095020#32 = false ∧
      slotWordBody 0x01095020#32 (slotEntry (.jr 8#5) (withSlot 0x100#32 0x7FFFFFFF#32 1#32 0x01095020#32)) = .fault .overflow none) ∧
    (slotWord (withSlot 0x100#32 0#32 0#32 0xFFFFFFFF#32) = some 0xFFFFFFFF#32 ∧
      decodeGuest 0xFFFFFFFF#32 = .reserved) ∧
    (slotWord (withSlot 0x100#32 0#32 0#32 0x0000000C#32) = some 0x0000000C#32 ∧
      decodeGuest 0x0000000C#32 = .instr (.syscall 0#20)) ∧
    (slotWord (withSlot 0x100#32 0#32 0#32 0x000001CD#32) = some 0x000001CD#32 ∧
      decodeGuest 0x000001CD#32 = .instr (.brk 7#20)) := by decide
theorem witness_AddressMap :
    (0x80000000 ≤ (0x801FFFFF#32 : Word).toNat ∧ (0x801FFFFF#32 : Word).toNat ≤ 0x80000000 + 0x1FFFFF) ∧
    (0xA0000000 + 0x1F800000 ≤ (0xBF8003FF#32 : Word).toNat ∧
      (0xBF8003FF#32 : Word).toNat ≤ 0xA0000000 + 0x1F8003FF) ∧
    (0 + 0x1FC00000 ≤ (0x1FC00000#32 : Word).toNat ∧ (0x1FC00000#32 : Word).toNat ≤ 0 + 0x1FC7FFFF) ∧
    (∀ k ∈ [0, 0x80000000, 0xA0000000],
      ¬(k ≤ (0x00200000#32 : Word).toNat ∧ (0x00200000#32 : Word).toNat ≤ k + 0x1FFFFF) ∧
      ¬(k + 0x1F800000 ≤ (0x00200000#32 : Word).toNat ∧ (0x00200000#32 : Word).toNat ≤ k + 0x1F8003FF) ∧
      ¬(k + 0x1FC00000 ≤ (0x00200000#32 : Word).toNat ∧ (0x00200000#32 : Word).toNat ≤ k + 0x1FC7FFFF)) := by decide
theorem witness_Mirroring :
    ((0x80000010#32 : Word) &&& Params.specDefault.regionMask[((0x80000010#32 : Word).extractLsb' 29 3).toNat]! =
      (0xA0000010#32 : Word) &&& Params.specDefault.regionMask[((0xA0000010#32 : Word).extractLsb' 29 3).toNat]!) ∧
    State.reset.params.regionMask = Params.specDefault.regionMask ∧ (0x1FFFFFFF#32 : Word).toNat < 0x20000000 := by
  decide
theorem witness_InitCommand :
    State.powerOn.life = .uninitialized := by decide
theorem witness_DeleteCommand :
    State.reset.life = .ready := by decide
theorem witness_HostWrites :
    State.reset.life = .ready ∧ (31#6 : Selector).toNat < 32 ∧ (32#6 : Selector) = 32#6 ∧
      (33#6 : Selector) = 33#6 := by decide
theorem witness_RunCommand :
    (State.reset.life = .ready ∧ State.reset.nePending = false ∧ (0#32 : Word).toInt ≤ 0 ∧
      State.reset.inCallback = false) ∧
    ((withEvent 100#32).nePending = true ∧ (100#32 : Word).toInt ≤ (withEvent 100#32).nextEvent.toInt) ∧
    ((withEvent 99#32).nePending = true ∧ (withEvent 99#32).nextEvent.toInt < (100#32 : Word).toInt) ∧
    (inYield 1#32).life ≠ .ready := by decide
theorem witness_QueryCommands :
    (hosted .uninitialized []).life = .uninitialized ∧ (hosted .destroyed []).life = .destroyed ∧
    (hosted .ready []).life = .ready ∧ ((inCallback []).life = .running ∧ (inCallback []).inCallback = true) ∧
    (1279#32 : Word).toNat < State.reset.params.totalPages ∧ (31#6 : Selector).toNat < 32 := by decide
theorem witness_ExtWriteCommand :
    (hosted .ready []).params.Legal ∧
    (hosted .ready []).life = .ready ∧ (0x001FFFFC#32 : Word).toNat % (4#32 : Word).toNat = 0 ∧
    resolve Params.specDefault 0x001FFFFC#32 = .ram 0x1FFFFC 1023 ∧ (0x1F8003FF#32 : Word).toNat % (1#32 : Word).toNat = 0 ∧
    resolve Params.specDefault 0x1F8003FF#32 = .scratch 0x3FF :=
  ⟨specDefault_legal, by decide⟩
theorem witness_RefusedCommands :
    ((Instr.init).isCommand = true ∧ tableAccepts (hosted .ready []) .init = false) ∧
    ((Instr.run 5#32).isCommand = true ∧ tableAccepts (hosted .destroyed []) (.run 5#32) = false) ∧
    State.reset.params.totalPages ≤ (1280#32 : Word).toNat ∧ 42 ≤ (42#6 : Selector).toNat ∧ 34 ≤ (34#6 : Selector).toNat ∧
    (2#32 : Word).toNat % (4#32 : Word).toNat ≠ 0 ∧ resolve Params.specDefault 0x00200000#32 = .unmapped ∧
    resolve Params.specDefault 0x1FC00000#32 = .rom 0 1024 ∧
    (0xB ≤ (⟨0xB#4, 0#32, 0#32, 0#32⟩ : Packet).code.toNat ∧
      (hosted .ready [⟨0xB#4, 0#32, 0#32, 0#32⟩]).life ≠ .running ∧
      (hosted .ready [⟨0xB#4, 0#32, 0#32, 0#32⟩]).hostPort = [⟨0xB#4, 0#32, 0#32, 0#32⟩]) ∧
    (0xB ≤ (⟨0xF#4, 0#32, 0#32, 0#32⟩ : Packet).code.toNat ∧
      (inCallback [.command ⟨0xF#4, 0#32, 0#32, 0#32⟩]).life = .running ∧
      (inCallback [.command ⟨0xF#4, 0#32, 0#32, 0#32⟩]).inCallback = true ∧
      (inCallback [.command ⟨0xF#4, 0#32, 0#32, 0#32⟩]).owner = [.command ⟨0xF#4, 0#32, 0#32, 0#32⟩]) := by decide
theorem witness_YieldMoves :
    ((inYield 0#32).life = .running ∧ (inYield 0#32).inCallback = false ∧ (inYield 0#32).dstate = .yield ∧
      (inYield 0#32).cnt.toInt ≤ 0) ∧ (0 < (inYield 1#32).cnt.toInt) := by decide
theorem witness_DispatchMoves :
    ((inDispatch 0x102#32).life = .running ∧ (inDispatch 0x102#32).inCallback = false ∧
      (inDispatch 0x102#32).dstate = .dispatch ∧ (inDispatch 0x102#32).pc.toNat % 4 ≠ 0) ∧
    ((inDispatch 0x1FC80000#32).pc.toNat % 4 = 0 ∧ pageOf Params.specDefault (inDispatch 0x1FC80000#32).pc = none) ∧
    (pageOf Params.specDefault (inDispatch 0xBFC7FFFC#32).pc = some 1279 ∧
      ({ inDispatch 0xBFC7FFFC#32 with valid := [(1279, true)] } : State).pageValid 1279 = true) ∧
    (inDispatch 0xBFC7FFFC#32).pageValid 1279 = false := by decide
theorem witness_CallbackReply :
    ((inCallback [.reply 39#32]).life = .running ∧ (inCallback [.reply 39#32]).inCallback = true ∧
      (inCallback [.reply 39#32]).owner = [.reply 39#32]) ∧ (inCallback []).owner = [] := by decide
/-- A step that stores over a non-empty memory. -/
theorem witness_StepKeepsForm :
    (withWord 0x200#32 7#32 0x8899AABB#32).params.Legal ∧
    ∃ t, stepsTo { withWord 0x200#32 7#32 0x8899AABB#32 with blk := [(64, 0xA1090001#32)] } t ∧
      (withWord 0x200#32 7#32 0x8899AABB#32).memWf ∧ (withWord 0x200#32 7#32 0x8899AABB#32).validWf ∧
        sparseWf 0#32 (Params.specDefault.totalPages * Params.specDefault.pageInstrs) [(64, 0xA1090001#32)] :=
  ⟨specDefault_legal, _, rfl, by decide, by decide, by decide⟩

/-- Page 0 valid over an empty memory and an empty block store: both hold zero words. -/
def coherent : State := { inExec 0x7FC#32 0#32 0#32 with valid := [(0, true)] }

theorem witness_blockCoherent : coherent.blockCoherent := by
  intro p _ _ i _
  have hm : coherent.pageMem p = [] := by
    unfold State.pageMem
    split <;> rfl
  unfold State.pageWord
  rw [hm]
  show (0#32 : Word) = wordOfBytes 0#8 0#8 0#8 0#8
  decide

theorem witness_BlocksStayCoherent :
    coherent.params.Legal ∧ (∃ t, stepsTo coherent t ∧ coherent.blockCoherent ∧ coherent.pageValid 0 = true) ∧
    (∃ t, stepsTo (hosted .uninitialized [⟨0#4, 0#32, 0#32, 0#32⟩]) t ∧
      (hosted .uninitialized [⟨0#4, 0#32, 0#32, 0#32⟩]).life = .uninitialized ∧
        t.life = .ready) := ⟨specDefault_legal, ⟨_, rfl, witness_blockCoherent, by decide⟩, ⟨_, rfl, rfl, rfl⟩⟩
theorem witness_ExecuteStaysInPage :
    coherent.params.Legal ∧ (∃ t, stepsTo coherent t ∧ coherent.inPage ∧ coherent.resumeInPage ∧ coherent.callbackInRun) ∧
    (∃ t, stepsTo (inCallback [.reply 1#32]) t ∧ (inCallback [.reply 1#32]).inPage ∧
      (inCallback [.reply 1#32]).resumeInPage ∧
        (inCallback [.reply 1#32]).callbackInRun) :=
          ⟨specDefault_legal, ⟨_, rfl, fun _ _ => by decide, fun _ h => absurd h (by decide), fun _ h => absurd h (by decide)⟩,
    ⟨_, rfl, fun _ _ => by decide, fun _ _ _ => by decide, fun _ _ => by decide⟩⟩
theorem witness_ExecuteRunsMemory :
    coherent.params.Legal ∧ coherent.blockCoherent ∧ coherent.inPage ∧ coherent.life = .running ∧ coherent.dstate = .execute ∧
    coherent.pageValid coherent.curPage = true ∧ coherent.readAddr coherent.pc = some 0#8 ∧
    coherent.readAddr (coherent.pc + 1#32) = some 0#8 ∧ coherent.readAddr (coherent.pc + 2#32) = some 0#8 ∧
    coherent.readAddr (coherent.pc + 3#32) = some 0#8 :=
      ⟨specDefault_legal, witness_blockCoherent, fun _ _ => by decide, rfl, rfl, by decide, by decide, by decide, by decide, by decide⟩
theorem witness_RomAndBlocksUntouched :
    ∃ t, stepsTo (inYield 1#32) t ∧
      ¬((inYield 1#32).life = .running ∧ (inYield 1#32).inCallback = false ∧
        (inYield 1#32).dstate = .dispatch) := ⟨_, rfl, by decide⟩
theorem witness_ValidOnlyByTranslation :
    ∃ t, stepsTo (inDispatch 0x104#32) t ∧ t.pageValid 0 = true ∧
      (inDispatch 0x104#32).pageValid 0 = false :=
        ⟨(inDispatch 0x104#32).enterPage 0, rfl, by decide, by decide⟩
theorem witness_LifecycleMoves :
    (∃ t, stepsTo (hosted .ready [⟨0x1#4, 0#32, 0#32, 0#32⟩]) t ∧
      (hosted .ready [⟨0x1#4, 0#32, 0#32, 0#32⟩]).life ≠ .running ∧
      t.life ≠ (hosted .ready [⟨0x1#4, 0#32, 0#32, 0#32⟩]).life) := ⟨_, rfl, by decide, by decide⟩
theorem witness_RunAnswer :
    ∃ t, stepsTo (inYield 0#32) t ∧ (inYield 0#32).life = .running ∧ t.life = .ready := ⟨_, rfl, rfl, rfl⟩

end Sys2Proof.Tests
end

section
/-! The state after reset (R40, R411): the fields the invariants rest on, the values of R9 and R11, and the
invariants of R13, R39, R89 and R186 that a run starts from. -/
namespace Sys2Proof.Machine

/-- Reset leaves the block Ready (R40, R150). -/
@[simp] theorem reset_life : State.reset.life = .ready := rfl

/-- Reset leaves no callback request outstanding (R40). -/
@[simp] theorem reset_inCallback : State.reset.inCallback = false := rfl

/-- Reset leaves every page invalid, inside the table and beyond it (R40). -/
@[simp] theorem reset_pageValid (p : Nat) : State.reset.pageValid p = false := rfl

/-- The default cost table has no row, so that every word costs the default of R11. -/
theorem specDefault_cycleCost (w : Word) : Params.specDefault.cycleCost w = 1 := rfl

/-- No page is valid at reset, so that none has a block to disagree with its memory (R89). -/
theorem blockCoherent_reset : State.reset.blockCoherent := by
  intro p _ hvalid
  simp at hvalid

/-- Outside `run` the dispatcher is in no page (R186). -/
theorem inPage_of_not_running {s : State} (h : s.life ≠ .running) : s.inPage := fun hrun => absurd hrun h

/-- With no request outstanding there is nothing to resume (R160). -/
theorem resumeInPage_of_no_callback {s : State} (h : s.inCallback = false) : s.resumeInPage := by
  intro _ hcall
  simp [h] at hcall

/-- With no request outstanding, none is outstanding outside `run` (R160, R165). -/
theorem callbackInRun_of_no_callback {s : State} (h : s.inCallback = false) : s.callbackInRun := by
  intro _ hcall
  simp [h] at hcall

/-- Settles O50: each register by its value in `State.reset`, `x[0]` by R21, the costs by the empty table. -/
theorem resetValues : Obligations.ResetValues :=
  ⟨reset_life, reset_pageValid, rfl, reset_inCallback, rfl, reg_zero _, rfl, rfl, rfl, rfl, specDefault_cycleCost⟩

/-- Settles O51: the tables are empty, no page is valid, and the block is Ready with no request outstanding. -/
theorem invariantsAtReset : Obligations.InvariantsAtReset :=
  ⟨specDefault_legal, memWf_reset, validWf_reset, blkWf_reset, blockCoherent_reset,
    inPage_of_not_running (by simp), resumeInPage_of_no_callback reset_inCallback,
    callbackInRun_of_no_callback reset_inCallback⟩

end Sys2Proof.Machine
end

section
/-! Loads from an unmapped address (R74, R281 d, log 7): such a read draws a free value and moves the model's draw
counter only, so that the load completes as any register write does. -/
namespace Sys2Proof.Machine

/-- The bytes of draw `d` at an unmapped address: what `OPEN_BUS` gives, at the width of the access (R12, R74). -/
def openBusBytes (d : Nat) (a : Word) (n : Size) : BitVec (8 * sizeBytes n) :=
  (Config.openBus d a (sizeBytes n)).setWidth (8 * sizeBytes n)

/-- `MemRead` of an unmapped address is one draw of `OPEN_BUS`, zero-extended (R73, R74). -/
theorem memRead_unmapped (s : State) {a : Word} (h : resolve s.params a = .unmapped) (n : Size) :
    memRead s a n = ((openBusBytes s.draws a n).setWidth 32, { s with draws := s.draws + 1 }) := by
  unfold memRead
  rw [h]
  cases n with
  | byte => rfl
  | half => rfl
  | word => simp [lowBytes, openBusBytes, sizeBytes]

/-- A charge, a draw, a register write and the move of `PC` make a retired register write (R187, R188, R189). -/
theorem retiredWrite_of_draw (w : Word) (s : State) (d : Nat) (r : RegIdx) (v : Word) :
    retiredWrite { s with draws := d } (({ s.charge w with draws := d } : State).setReg r v).advance w r v :=
  ⟨rfl, fun q => reg_setReg { s.charge w with draws := d } r q v, fun _ => rfl⟩

/-- A plain load from an unmapped, aligned address completes: `rt` takes what the instruction makes of the bytes
drawn (R281). -/
theorem finish_loadBody_unmapped {s : State} {w ea v : Word} {rt : RegIdx} {n : Size} {ext : Word → Word}
    (hu : resolve s.params ea = .unmapped) (ha : misaligned ea n = false)
    (hv : ext ((openBusBytes s.draws ea n).setWidth 32) = v) :
    ∃ t, finish w s (loadBody w s rt ea n ext) = .next t ∧ retiredWrite { s with draws := t.draws } t w rt v := by
  have hread := memRead_unmapped (s.charge w) hu n
  unfold loadBody
  rw [if_neg (by simp [ha]), hread, ← hv]
  exact ⟨_, rfl, retiredWrite_of_draw w s _ rt _⟩

/-- `LWL` and `LWR` at an unmapped address read its aligned word, which is unmapped too, and complete with the
drawn word merged into `rt` (R281, R285, R289). -/
theorem finish_loadMergeBody_unmapped {s : State} (hl : s.params.Legal) {w ea : Word} {rt : RegIdx}
    {merge : BitVec 2 → Word → Word → Word} (hu : resolve s.params ea = .unmapped) :
    ∃ (v : Word) (t : State), finish w s (loadMergeBody w s rt ea merge) = .next t ∧
      retiredWrite { s with draws := t.draws } t w rt (merge (byteInWord ea) v (s.reg rt)) := by
  have hread := memRead_unmapped (s.charge w) (resolve_aligned_unmapped hl hu) .word
  unfold loadMergeBody
  rw [hread]
  exact ⟨_, _, rfl, retiredWrite_of_draw w s _ rt _⟩

/-- `LB` extends the byte that was read (R283). -/
theorem signExtByte_setWidth (b : Byte) : signExtByte (b.setWidth 32) = b.signExtend 32 := by simp [signExtByte]

/-- `LH` extends the halfword that was read (R284). -/
theorem signExtHalf_setWidth (h : BitVec 16) : signExtHalf (h.setWidth 32) = h.signExtend 32 := by
  simp [signExtHalf]

/-- Settles O19: each of the seven is one of the two load bodies in Execute, the bytes drawn its free value. -/
theorem unmappedLoads : Obligations.UnmappedLoads := by
  intro s rt rs imm hl hu
  refine ⟨?lb, ?lbu, fun h2 => ⟨?lh, ?lhu⟩, fun h4 => ?lw, ?lwl, ?lwr⟩
  case lb =>
    exact ⟨openBusBytes s.draws _ .byte, finish_loadBody_unmapped hu (misaligned_byte _) (signExtByte_setWidth _)⟩
  case lbu => exact ⟨openBusBytes s.draws _ .byte, finish_loadBody_unmapped hu (misaligned_byte _) rfl⟩
  case lh =>
    exact ⟨openBusBytes s.draws _ .half,
      finish_loadBody_unmapped hu ((misaligned_half_false _).2 h2) (signExtHalf_setWidth _)⟩
  case lhu =>
    exact ⟨openBusBytes s.draws _ .half, finish_loadBody_unmapped hu ((misaligned_half_false _).2 h2) rfl⟩
  case lw =>
    exact ⟨openBusBytes s.draws _ .word,
      finish_loadBody_unmapped hu ((misaligned_word_false _).2 h4) (BitVec.setWidth_eq _)⟩
  case lwl => exact finish_loadMergeBody_unmapped hl hu
  case lwr => exact finish_loadMergeBody_unmapped hl hu

end Sys2Proof.Machine
end

section
/-! What no command and no guest instruction writes: ROM, the configuration and the block store (R34, R36, R79);
and the canonical form of the tables, kept by every step (R39, R83, R91, log 3). -/
namespace Sys2Proof.Machine

/-- ROM, the configuration and the block store are as they were. -/
structure StoresFixed (s t : State) : Prop where
  rom : t.rom = s.rom
  params : t.params = s.params
  blk : t.blk = s.blk

/-- No command writes ROM, the configuration or the block store: `init` and `delete` leave them too (R34, R79). -/
theorem storesFixed_of_command {s t : State} {p : Packet} (h : CommandEffect s p t) : StoresFixed s t := by
  cases h with
  | refused r => exact ⟨rfl, rfl, rfl⟩
  | answered r => exact ⟨rfl, rfl, rfl⟩
  | init h hp => exact ⟨rfl, rfl, rfl⟩
  | delete h hp => exact ⟨rfl, rfl, rfl⟩
  | run h n hp => exact ⟨rfl, rfl, rfl⟩
  | hostWrite h regs hi lo pc nextEvent nePending => exact ⟨rfl, rfl, rfl⟩
  | invalidate q hq => exact ⟨rfl, rfl, rfl⟩
  | extRam a n v off page hr hn ha => exact ⟨rfl, rfl, rfl⟩
  | extScratch a n v off hr hn ha => exact ⟨rfl, rfl, rfl⟩

/-- No guest instruction writes ROM, the configuration or the block store (R34, R79): no body does, and neither
its completion nor the fault stop adds to what the body wrote. -/
theorem storesFixed_of_execute {s t : State} (h : ExecuteEffect s t) : StoresFixed s t := by
  cases h with
  | done u hf hm hc => exact ⟨hf.rom, hf.params, hf.blk⟩
  | call u hf hm hc => exact ⟨hf.rom, hf.params, hf.blk⟩
  | unitDone u next hf hm hc => exact ⟨hf.rom, hf.params, hf.blk⟩
  | unitCall u next hf hm hc => exact ⟨hf.rom, hf.params, hf.blk⟩
  | stop regs cnt c instr addr bd => exact ⟨rfl, rfl, rfl⟩

/-- Entry into a page is the page's translation, where it is invalid, with the dispatcher moved (R185). -/
theorem enterPage_cases (s : State) (p : Nat) :
    (s.enterPage p = { s with curPage := p, dstate := .execute }) ∨
    (s.enterPage p = { s.translate p with curPage := p, dstate := .execute }) := by
  unfold State.enterPage
  split
  · exact .inl rfl
  · exact .inr rfl

/-- A step is the entry into a page from Dispatch, or leaves ROM, the configuration and the block store (R158). -/
theorem enterPage_or_storesFixed {s t : State} (h : StepEffect s t) :
    (s.life = .running ∧ s.inCallback = false ∧ s.dstate = .dispatch ∧
      ∃ p, t = s.enterPage p) ∨ StoresFixed s t := by
  cases h with
  | idle h => exact .inr ⟨rfl, rfl, rfl⟩
  | host h p rest hp t ht =>
    obtain ⟨hrom, hparams, hblk⟩ := storesFixed_of_command ht
    exact .inr ⟨hrom, hparams, hblk⟩
  | ownerFree h hi c d => exact .inr ⟨rfl, rfl, rfl⟩
  | ownerReply h hi c rest => exact .inr ⟨rfl, rfl, rfl⟩
  | ownerCommand h hi p rest t ht =>
    obtain ⟨hrom, hparams, hblk⟩ := storesFixed_of_command ht
    exact .inr ⟨hrom, hparams, hblk⟩
  | yieldEnd h hi hd => exact .inr ⟨rfl, rfl, rfl⟩
  | yieldOn h hi hd => exact .inr ⟨rfl, rfl, rfl⟩
  | dispatchStop h hi hd c => exact .inr ⟨rfl, rfl, rfl⟩
  | enter h hi hd p ha hp => exact .inl ⟨h, hi, hd, p, rfl⟩
  | execute h hi hd t ht => exact .inr (storesFixed_of_execute ht)

/-- Entry into a page leaves ROM and the configuration: `translate` writes the block store and `VALID` (R79, R158). -/
theorem enterPage_rom_params (s : State) (p : Nat) :
    (s.enterPage p).rom = s.rom ∧ (s.enterPage p).params = s.params := by
  rcases enterPage_cases s p with h | h <;> rw [h] <;> exact ⟨rfl, rfl⟩

/-- The three memories, the validity table and the block store, each in canonical form within its size (log 3). -/
structure State.tablesWf (s : State) : Prop where
  mem : s.memWf
  valid : s.validWf
  blk : s.blkWf

/-- The canonical form rests on the tables and the configuration only. -/
theorem State.tablesWf.congr {s t : State} (h : s.tablesWf) (hf : StoresFixed s t) (hram : t.ram = s.ram)
    (hscratch : t.scratch = s.scratch) (hvalid : t.valid = s.valid) : t.tablesWf := by
  obtain ⟨hrom, hparams, hblk⟩ := hf
  obtain ⟨hmem, hval, hbl⟩ := h
  refine ⟨?_, ?_, ?_⟩
  · rwa [State.memWf, hram, hscratch, hrom]
  · rwa [State.validWf, hparams, hvalid]
  · rwa [State.blkWf, hparams, hblk]

/-- A RAM whose canonical form is kept, with a page of RAM invalidated: what a store and `ext_write` leave (R77). -/
theorem State.tablesWf.write_ram {s : State} (hl : s.params.Legal) (h : s.tablesWf) {a : Word} {off page : Nat} {m : Memory}
    (hr : resolve s.params a = .ram off page) (hm : Memory.wf Config.ramBytes m) :
    ({ s with ram := m }.invalidatePage page).tablesWf := by
  obtain ⟨⟨-, hscratch, hrom⟩, hvalid, hblk⟩ := h
  exact ⟨⟨hm, hscratch, hrom⟩, validWf_invalidatePage hvalid (ram_page_total hl hr), hblk⟩

/-- A scratchpad whose canonical form is kept (R78). -/
theorem State.tablesWf.write_scratch {s : State} (h : s.tablesWf) {m : Memory} (hm : Memory.wf Config.scratchBytes m) :
    ({ s with scratch := m } : State).tablesWf := by
  obtain ⟨⟨hram, -, hrom⟩, hvalid, hblk⟩ := h
  exact ⟨⟨hram, hm, hrom⟩, hvalid, hblk⟩

/-- A body keeps the canonical form: its one store, if it makes one, lands inside its region (R76 to R78). -/
theorem State.tablesWf.body {s u : State} (hl : s.params.Legal) (h : s.tablesWf) (hf : BodyFrame s u)
    (hm : MemoryEffect s u) : u.tablesWf := by
  have fixed : StoresFixed s u := ⟨hf.rom, hf.params, hf.blk⟩
  obtain ⟨hramWf, hscratchWf, -⟩ := h.mem
  rcases hm with ⟨hram, hscratch, hvalid⟩ | ⟨off, page, a, v, kind, hr, ha, hram, hscratch, hvalid⟩ |
    ⟨off, a, v, kind, hr, ha, hscratch, hram, hvalid⟩
  · exact h.congr fixed hram hscratch hvalid
  · have hstore := Memory.wf_storeInto (v := v) hramWf (ram_bounds hr).1 rfl (ram_off_mod hl hr).2 ha
    exact (h.write_ram hl hr hstore).congr ⟨fixed.rom, fixed.params, fixed.blk⟩ hram hscratch hvalid
  · have hstore := Memory.wf_storeInto (v := v) hscratchWf (scratch_bounds hr) rfl (scratch_off_mod hl hr) ha
    exact (h.write_scratch hstore).congr ⟨fixed.rom, fixed.params, fixed.blk⟩ hram hscratch hvalid

/-- Every command keeps the canonical form: `init` empties `VALID`, `invalidate` and `ext_write` write inside their
tables, no other command writes one (R150, R156, R157). -/
theorem State.tablesWf.command {s t : State} {p : Packet} (hl : s.params.Legal) (h : s.tablesWf)
    (ht : CommandEffect s p t) : t.tablesWf := by
  obtain ⟨hramWf, hscratchWf, -⟩ := h.mem
  cases ht with
  | refused r => exact ⟨h.mem, h.valid, h.blk⟩
  | answered r => exact ⟨h.mem, h.valid, h.blk⟩
  | init hlife hp => exact ⟨h.mem, sparseWf_nil _ _, h.blk⟩
  | delete hlife hp => exact ⟨h.mem, h.valid, h.blk⟩
  | run hlife n hp => exact ⟨h.mem, h.valid, h.blk⟩
  | hostWrite hlife regs hi lo pc nextEvent nePending => exact ⟨h.mem, h.valid, h.blk⟩
  | invalidate q hq => exact ⟨h.mem, validWf_invalidatePage h.valid hq, h.blk⟩
  | extRam a n v off page hr hn ha =>
    have hram := Memory.wf_writeLow (v := v) hramWf (ram_bounds hr).1 rfl (ram_off_mod hl hr).2 hn ha
    obtain ⟨hmem, hvalid, hblk⟩ := h.write_ram hl hr hram
    exact ⟨hmem, hvalid, hblk⟩
  | extScratch a n v off hr hn ha =>
    have hscratch := Memory.wf_writeLow (v := v) hscratchWf (scratch_bounds hr) rfl (scratch_off_mod hl hr) hn ha
    obtain ⟨hmem, hvalid, hblk⟩ := h.write_scratch hscratch
    exact ⟨hmem, hvalid, hblk⟩

/-- Every guest instruction keeps the canonical form: its body does, and its completion writes no table. -/
theorem State.tablesWf.execute {s t : State} (hl : s.params.Legal) (h : s.tablesWf) (ht : ExecuteEffect s t) :
    t.tablesWf := by
  cases ht with
  | done u hf hm hc =>
    obtain ⟨hmem, hvalid, hblk⟩ := h.body hl hf hm
    exact ⟨hmem, hvalid, hblk⟩
  | call u hf hm hc =>
    obtain ⟨hmem, hvalid, hblk⟩ := h.body hl hf (.inl hm)
    exact ⟨hmem, hvalid, hblk⟩
  | unitDone u next hf hm hc =>
    obtain ⟨hmem, hvalid, hblk⟩ := h.body hl hf hm
    exact ⟨hmem, hvalid, hblk⟩
  | unitCall u next hf hm hc =>
    obtain ⟨hmem, hvalid, hblk⟩ := h.body hl hf (.inl hm)
    exact ⟨hmem, hvalid, hblk⟩
  | stop regs cnt c instr addr bd => exact ⟨h.mem, h.valid, h.blk⟩

/-- Entry into a page of the validity table keeps the canonical form: `translate` writes `BLK` and `VALID` at places
of that page (R90, R158). -/
theorem State.tablesWf.enterPage {s : State} {p : Nat} (h : s.tablesWf) (hp : p < s.params.totalPages) :
    (s.enterPage p).tablesWf := by
  rcases enterPage_cases s p with he | he
  · rw [he]
    exact ⟨h.mem, h.valid, h.blk⟩
  · rw [he]
    exact ⟨h.mem, validWf_translate h.valid hp, blkWf_translate h.blk hp⟩

/-- Every step keeps the canonical form. -/
theorem State.tablesWf.step {s t : State} (hl : s.params.Legal) (h : s.tablesWf) (ht : StepEffect s t) :
    t.tablesWf := by
  cases ht with
  | idle hlife => exact h
  | host hlife p rest hport t ht =>
    exact State.tablesWf.command (s := { s with hostPort := rest }) hl ⟨h.mem, h.valid, h.blk⟩ ht
  | ownerFree hlife hi c d => exact ⟨h.mem, h.valid, h.blk⟩
  | ownerReply hlife hi c rest => exact ⟨h.mem, h.valid, h.blk⟩
  | ownerCommand hlife hi p rest t ht =>
    exact State.tablesWf.command (s := { s with owner := rest }) hl ⟨h.mem, h.valid, h.blk⟩ ht
  | yieldEnd hlife hi hd => exact ⟨h.mem, h.valid, h.blk⟩
  | yieldOn hlife hi hd => exact ⟨h.mem, h.valid, h.blk⟩
  | dispatchStop hlife hi hd c => exact ⟨h.mem, h.valid, h.blk⟩
  | enter hlife hi hd p ha hp => exact h.enterPage (pageOf_lt hl hp)
  | execute hlife hi hd t ht => exact h.execute hl ht

/-- Settles O52, by the inversion of a step: each of its effects writes inside the tables, or writes none. -/
theorem stepKeepsForm : Obligations.StepKeepsForm := by
  intro s t hstep hl hmem hvalid hblk
  obtain ⟨hmem', hvalid', hblk'⟩ := State.tablesWf.step hl ⟨hmem, hvalid, hblk⟩ (stepEffect_of_stepsTo hstep)
  exact ⟨hmem', hvalid', hblk'⟩

/-- Settles O57: entry into a page happens in Dispatch and writes neither ROM nor the configuration, any other
effect of a step none of the three. -/
theorem romAndBlocksUntouched : Obligations.RomAndBlocksUntouched := by
  intro s t hstep
  rcases enterPage_or_storesFixed (stepEffect_of_stepsTo hstep) with
    ⟨hrun, hcall, hdisp, p, rfl⟩ | ⟨hrom, hparams, hblk⟩
  · obtain ⟨hrom, hparams⟩ := enterPage_rom_params s p
    exact ⟨hrom, hparams, fun hnot => absurd ⟨hrun, hcall, hdisp⟩ hnot⟩
  · exact ⟨hrom, hparams, fun _ => hblk⟩

end Sys2Proof.Machine
end

section
/-! The lifecycle (R31, R165): what a command and a step can do to `LIFE`. -/
namespace Sys2Proof.Machine

/-- The command `p` moves `LIFE` from `l` to `l'`: `init`, `delete` and `run` are the only ones that do (R165). -/
def lifeCommand (p : Packet) (l l' : Life) : Prop :=
  (l = .uninitialized ∧ l' = .ready ∧ decodeCommand p = .instr .init) ∨
  (l = .ready ∧ l' = .destroyed ∧ decodeCommand p = .instr .delete) ∨
  (l = .ready ∧ l' = .running ∧ ∃ n, decodeCommand p = .instr (.run n))

/-- A lifecycle state to itself is no move. -/
@[simp] theorem lifeMove_self (l : Life) : lifeMove l l = true := by cases l <;> rfl

/-- The commands move `LIFE` along the table. -/
theorem lifeMove_of_lifeCommand {p : Packet} {l l' : Life} (h : lifeCommand p l l') : lifeMove l l' = true := by
  rcases h with ⟨rfl, rfl, -⟩ | ⟨rfl, rfl, -⟩ | ⟨rfl, rfl, -⟩ <;> rfl

/-- No command moves `LIFE` of a block that is Running (R165). -/
theorem not_lifeCommand_running {p : Packet} {l : Life} : ¬ lifeCommand p .running l := by simp [lifeCommand]

/-- A command leaves `LIFE`, or moves it as `init`, `delete` or `run` does (R150, R151, R181). -/
theorem life_of_command {s t : State} {p : Packet} (h : CommandEffect s p t) :
    t.life = s.life ∨ lifeCommand p s.life t.life := by
  cases h with
  | refused r => exact .inl rfl
  | answered r => exact .inl rfl
  | init h hp => exact .inr (.inl ⟨h, rfl, hp⟩)
  | delete h hp => exact .inr (.inr (.inl ⟨h, rfl, hp⟩))
  | run h n hp => exact .inr (.inr (.inr ⟨h, rfl, n, hp⟩))
  | hostWrite h regs hi lo pc nextEvent nePending => exact .inl rfl
  | invalidate q hq => exact .inl rfl
  | extRam a n v off page hr hn ha => exact .inl rfl
  | extScratch a n v off hr hn ha => exact .inl rfl

/-- A guest instruction leaves `LIFE`, or stops on a fault and makes it Ready (R372). -/
theorem life_of_execute {s t : State} (h : ExecuteEffect s t) : t.life = s.life ∨ t.life = .ready := by
  cases h with
  | done u hf hm hc => exact .inl hf.life
  | call u hf hm hc => exact .inl hf.life
  | unitDone u next hf hm hc => exact .inl hf.life
  | unitCall u next hf hm hc => exact .inl hf.life
  | stop regs cnt c instr addr bd => exact .inr rfl

/-- All that a step can do to `LIFE`: leave it, move it by a command from the host's port, or return from `run`
(R165, R195, R372). -/
theorem life_of_step {s t : State} (h : StepEffect s t) :
    t.life = s.life ∨
    (∃ p rest, s.hostPort = p :: rest ∧ lifeCommand p s.life t.life) ∨
    (s.life = .running ∧ t.life = .ready) := by
  cases h with
  | idle h => exact .inl rfl
  | host h p rest hp t ht => exact (life_of_command ht).imp id fun hmove => .inl ⟨p, rest, hp, hmove⟩
  | ownerFree h hi c d => exact .inl rfl
  | ownerReply h hi c rest => exact .inl rfl
  | ownerCommand h hi p rest t ht =>
    refine .inl ((life_of_command ht).resolve_right fun hmove => ?_)
    rw [h] at hmove
    exact not_lifeCommand_running hmove
  | yieldEnd h hi hd => exact .inr (.inr ⟨h, rfl⟩)
  | yieldOn h hi hd => exact .inl rfl
  | dispatchStop h hi hd c => exact .inr (.inr ⟨h, rfl⟩)
  | enter h hi hd p ha hp =>
    left
    unfold State.enterPage
    split <;> rfl
  | execute h hi hd t ht => exact (life_of_execute ht).imp id fun hready => .inr ⟨h, hready⟩

/-- Settles O59: `LIFE` stays, moves by a command of the host's port, or returns from Running to Ready. -/
theorem lifecycleMoves : Obligations.LifecycleMoves := by
  intro s t hstep
  rcases life_of_step (stepEffect_of_stepsTo hstep) with hsame | ⟨p, rest, hport, hmove⟩ | ⟨hrun, hready⟩
  · exact ⟨by rw [hsame, lifeMove_self], fun _ hne => absurd hsame hne⟩
  · exact ⟨lifeMove_of_lifeCommand hmove, fun _ _ => ⟨p, rest, hport, hmove⟩⟩
  · exact ⟨by rw [hrun, hready]; rfl, fun hnot => absurd hrun hnot⟩

end Sys2Proof.Machine
end

section
/-! `x[0]` (R21), the commands that only read, and `invalidate` (R126, R127, R154 to R156, R162, R163). -/
namespace Sys2Proof.Machine

/-- An accepted `set_reg` writes what its selector names and is acknowledged (R163). -/
theorem exec_setReg_ready {s : State} (h : s.life = .ready) {sel : Selector} (hsel : selectorWritable sel = true)
    (v : Word) : exec (.setReg sel v) s = .next ((s.writeSelected sel v).answer .ack) := by
  simp [exec, execSetReg, h, hsel]

/-- Selector 0 names `x[0]`, whose write is dropped (R21, R163). -/
@[simp] theorem writeSelected_zero (s : State) (v : Word) : s.writeSelected 0#6 v = s := setReg_zero s v

/-- Settles O8: reads and writes of `x[0]` by the register laws, `set_reg` as a write of selector 0. -/
theorem registerZero : Obligations.RegisterZero := by
  intro s v
  refine ⟨reg_zero s, fun r => reg_zero (s.setReg r v), setReg_zero s v, fun hready => ?_⟩
  rw [exec_setReg_ready hready (by decide), writeSelected_zero]
  rfl

/-- Where the block takes a command: Ready, or Running with a callback outstanding (R154, R165). -/
theorem openToCommands_iff (s : State) :
    s.openToCommands = true ↔ s.life = .ready ∨ s.life = .running ∧ s.inCallback = true := by
  simp [State.openToCommands]

/-- `resolve` where it is accepted answers the resolution and changes nothing else (R154). -/
theorem exec_resolve_open {s : State} (h : s.openToCommands = true) (a : Word) :
    exec (.resolve a) s = .next (s.answer (resolutionResponse (resolve s.params a))) := if_pos h

/-- `is_valid` of a page of the table answers its bit and changes nothing else (R84, R155). -/
theorem exec_isValid_open {s : State} (h : s.openToCommands = true) {page : Word}
    (hp : page.toNat < s.params.totalPages) :
    exec (.isValid page) s = .next (s.answer (.value (boolWord (s.pageValid page.toNat)))) := by
  simp [exec, execIsValid, pageInRange, h, hp]

/-- `invalidate` of a page of the table clears its bit and is acknowledged (R85, R156). -/
theorem exec_invalidate_open {s : State} (h : s.openToCommands = true) {page : Word}
    (hp : page.toNat < s.params.totalPages) :
    exec (.invalidate page) s = .next ((s.invalidatePage page.toNat).answer .ack) := by
  simp [exec, execInvalidate, pageInRange, h, hp]

/-- An accepted `get_state` answers what its selector names and changes nothing else (R162). -/
theorem exec_getState {s : State} {sel : Selector} (h : s.acceptsGet sel = true) :
    exec (.getState sel) s = .next (s.answer (.value (s.selected sel))) := if_pos h

/-- A block open to commands answers every selector that is not reserved (R127, R162). -/
theorem acceptsGet_open {s : State} (h : s.openToCommands = true) {sel : Selector} (hsel : sel.toNat ≤ 41) :
    s.acceptsGet sel = true := by
  simp [State.acceptsGet, selectorReadable, h, hsel]

/-- A block open to commands answers the register its selector names, and changes nothing else (R127, R162). -/
theorem exec_getState_open {s : State} (h : s.openToCommands = true) (sel : Selector) (hsel : sel.toNat ≤ 41) :
    exec (.getState sel) s = .next (s.answer (.value (s.selected sel))) := exec_getState (acceptsGet_open h hsel)

/-- `LIFE` is answered before `init` and after `delete` too (R162, R165). -/
theorem acceptsGet_life {s : State} (h : s.life = .uninitialized ∨ s.life = .destroyed) :
    s.acceptsGet 41#6 = true := by
  simp [State.acceptsGet, h]

/-- Selectors 0 to 31 name the general registers (R127). -/
theorem selected_reg (s : State) {sel : Selector} (h : sel.toNat < 32) : s.selected sel = s.reg (sel.setWidth 5) :=
  if_pos h

/-- Outside Ready and Running `get_state(41)` answers the code of `LIFE` (R31, R162). -/
theorem exec_getState_life {s : State} (h : s.life = .uninitialized ∨ s.life = .destroyed) :
    exec (.getState 41#6) s = .next (s.answer (.value (lifeCode s.life))) := exec_getState (acceptsGet_life h)

/-- Settles O44: each command by its equation where it is accepted, each selector by the register it names. -/
theorem queryCommands : Obligations.QueryCommands := by
  refine ⟨fun s hlife => ?before, fun s hlife => ?after, fun s a page sel hopen => ?_⟩
  case before =>
    have hcode : lifeCode s.life = 0#32 := congrArg lifeCode hlife
    rw [exec_getState_life (.inl hlife), hcode]
    rfl
  case after =>
    have hcode : lifeCode s.life = 3#32 := congrArg lifeCode hlife
    rw [exec_getState_life (.inr hlife), hcode]
    rfl
  rw [← openToCommands_iff] at hopen
  have get := exec_getState_open hopen
  refine ⟨?resolve, fun hp => exec_isValid_open hopen hp, fun hp => ?invalidate, fun hsel => ?reg,
    get 32#6 (by decide), get 33#6 (by decide), get 34#6 (by decide), get 35#6 (by decide), get 36#6 (by decide),
    get 37#6 (by decide), get 38#6 (by decide), get 39#6 (by decide), get 40#6 (by decide), get 41#6 (by decide)⟩
  case resolve =>
    rw [exec_resolve_open hopen]
    cases resolve s.params a <;> rfl
  case invalidate =>
    exact ⟨_, exec_invalidate_open hopen hp, fun q => pageValid_invalidatePage s page.toNat q, rfl⟩
  case reg =>
    rw [get sel (by omega), selected_reg s hsel]
    rfl

end Sys2Proof.Machine
end

section
/-! The bytes a store can reach: those of its own word (R75, R77, R78), and `ext_write` as one of the stores (R98,
R157). -/
namespace Sys2Proof.Machine

/-- A store of any kind, aligned as its kind needs, stays inside the word of its address. -/
theorem store_inside_word {a : Word} {kind : StoreKind} (h : storeAligned a kind) :
    storeBack a kind ≤ a.toNat % 4 ∧ a.toNat % 4 + storeLength a kind ≤ storeBack a kind + 4 := by
  cases kind with
  | b => simp only [storeBack, storeLength]; omega
  | h => simp only [storeBack, storeLength, storeAligned] at *; omega
  | w => simp only [storeBack, storeLength, storeAligned] at *; omega
  | wl => simp only [storeBack, storeLength]; omega
  | wr => simp only [storeBack, storeLength]; omega

/-- A store leaves every byte outside the word of its address. -/
theorem readByte_storeInto_otherWord {m : Memory} {off j : Nat} {a v : Word} {kind : StoreKind}
    (h4 : off % 4 = a.toNat % 4) (ha : storeAligned a kind) (hj : j / 4 ≠ off / 4) :
    readByte (storeInto m off a v kind) j = readByte m j := by
  have hin := store_inside_word ha
  exact readByte_storeInto_outside m off a v kind j h4 (by omega)

/-- The kind of store that `ext_write` of `n` bytes is, `n` in 1, 2, 4 (R157). -/
def extKind (n : Word) : StoreKind := if n = 1#32 then .b else if n = 2#32 then .h else .w

/-- `ext_write` leaves what a store of its kind leaves, at any address (R98, R157). -/
theorem writeLow_eq_storeInto (m : Memory) (off : Nat) (a n v : Word) :
    writeLow m off n v = storeInto m off a v (extKind n) := by
  unfold writeLow extKind
  split
  · rfl
  · split
    · rfl
    · rfl

/-- `ext_write` of `n` bytes writes the low `n` bytes of its operand, from its address on (R157). -/
theorem extKind_extent (a : Word) {n : Word} (hn : sizeLegal n = true) :
    storeLength a (extKind n) = n.toNat ∧ storeBack a (extKind n) = 0 ∧ storeShift a (extKind n) = 0 := by
  simp only [sizeLegal, Bool.or_eq_true, decide_eq_true_eq] at hn
  rcases hn with (rfl | rfl) | rfl <;> exact ⟨rfl, rfl, rfl⟩

/-- The alignment `ext_write` checks is that of its kind of store (R157). -/
theorem storeAligned_extKind {a n : Word} (hn : sizeLegal n = true) (ha : sizeAligned a n = true) :
    storeAligned a (extKind n) := by
  simp only [sizeLegal, Bool.or_eq_true, decide_eq_true_eq] at hn
  simp only [sizeAligned, decide_eq_true_eq] at ha
  rcases hn with (rfl | rfl) | rfl
  · trivial
  · exact ha
  · exact ha

end Sys2Proof.Machine
end

section
/-! The promise of the validity table (R83 to R89): a step other than the entry into a page makes no page valid and
changes no word of a page that stays valid; the entry into a page translates it. -/
namespace Sys2Proof.Machine

/-- No page became valid, and the words of a page still valid are as they were. -/
structure PagesKept (s t : State) : Prop where
  valid : ∀ p, t.pageValid p = true → s.pageValid p = true
  words : s.params.Legal → ∀ p, t.pageValid p = true → ∀ i < s.params.pageInstrs, t.pageWord p i = s.pageWord p i

/-- The pages rest on RAM, ROM, the validity table and the configuration only. -/
theorem PagesKept.of_same {s t : State} (hram : t.ram = s.ram) (hrom : t.rom = s.rom) (hparams : t.params = s.params)
    (hvalid : t.valid = s.valid) : PagesKept s t where
  valid p hp := by rwa [State.pageValid, hvalid] at hp
  words _ _ _ _ _ := pageWord_congr hparams hrom fun _ _ _ _ => by rw [hram]

/-- A word of a RAM page is the word of no address in another page. -/
theorem word_ne_of_page_ne {c : Params} (hl : c.Legal) {p i j off : Nat} (hi : i < c.pageInstrs)
    (hlo : p * c.pageBytes + 4 * i ≤ j) (hhi : j < p * c.pageBytes + 4 * i + 4) (hp : p ≠ off / c.pageBytes) :
    j / 4 ≠ off / 4 := by
  intro hword
  have hsize := pageInstrs_mul hl
  have hpage : j / c.pageBytes = p :=
    Nat.div_eq_of_lt_le (by omega) (by rw [Nat.succ_mul]; omega)
  exact hp (hpage ▸ div_pageBytes_congr hl hword)

/-- A write inside one word of RAM, with its page invalidated, keeps every page that stays valid (R77). -/
theorem PagesKept.of_ramWrite {s t : State} {a : Word} {off page : Nat} (hr : resolve s.params a = .ram off page)
    (hparams : t.params = s.params) (hrom : t.rom = s.rom) (hvalid : t.valid = (s.invalidatePage page).valid)
    (hram : s.params.Legal → ∀ j, j / 4 ≠ off / 4 → readByte t.ram j = readByte s.ram j) : PagesKept s t := by
  have hpages : ∀ p, t.pageValid p = true → s.pageValid p = true ∧ p ≠ page := by
    intro p hp
    have hinv : t.pageValid p = (s.invalidatePage page).pageValid p := by rw [State.pageValid, hvalid]; rfl
    rw [hinv, pageValid_invalidatePage] at hp
    simpa using hp
  refine ⟨fun p hp => (hpages p hp).1, fun hl p hp i hi => pageWord_congr hparams hrom fun _ j hlo hhi => ?_⟩
  have hne : p ≠ off / s.params.pageBytes := (ram_bounds hr).2 ▸ (hpages p hp).2
  exact hram hl j (word_ne_of_page_ne hl hi hlo hhi hne)

/-- A completed body keeps the pages: a store to RAM invalidates the page it writes, a store to the scratchpad
writes no page (R77, R78). -/
theorem PagesKept.of_body {s u : State} (hf : BodyFrame s u) (hm : MemoryEffect s u) : PagesKept s u := by
  rcases hm with ⟨hram, -, hvalid⟩ | ⟨off, page, a, v, kind, hr, ha, hram, -, hvalid⟩ |
    ⟨off, a, v, kind, -, -, -, hram, hvalid⟩
  · exact .of_same hram hf.rom hf.params hvalid
  · refine .of_ramWrite hr hf.params hf.rom hvalid fun hl j hj => ?_
    rw [hram, readByte_storeInto_otherWord (ram_off_mod hl hr).2 ha hj]
  · exact .of_same hram hf.rom hf.params hvalid

/-- Every guest instruction keeps the pages: its body does, and its completion writes none of their tables. -/
theorem PagesKept.of_execute {s t : State} (ht : ExecuteEffect s t) : PagesKept s t := by
  cases ht with
  | done u hf hm hc =>
    obtain ⟨hvalid, hwords⟩ := PagesKept.of_body hf hm
    exact ⟨hvalid, hwords⟩
  | call u hf hm hc =>
    obtain ⟨hvalid, hwords⟩ := PagesKept.of_body hf (.inl hm)
    exact ⟨hvalid, hwords⟩
  | unitDone u next hf hm hc =>
    obtain ⟨hvalid, hwords⟩ := PagesKept.of_body hf hm
    exact ⟨hvalid, hwords⟩
  | unitCall u next hf hm hc =>
    obtain ⟨hvalid, hwords⟩ := PagesKept.of_body hf (.inl hm)
    exact ⟨hvalid, hwords⟩
  | stop regs cnt c instr addr bd => exact .of_same rfl rfl rfl rfl

/-- Every command keeps the pages: `init` and `invalidate` make pages invalid, `ext_write` into RAM the page it
writes (R98, R150, R156, R157). -/
theorem PagesKept.of_command {s t : State} {p : Packet} (ht : CommandEffect s p t) : PagesKept s t := by
  cases ht with
  | refused r => exact .of_same rfl rfl rfl rfl
  | answered r => exact .of_same rfl rfl rfl rfl
  | init hlife hp => exact ⟨nofun, nofun⟩
  | delete hlife hp => exact .of_same rfl rfl rfl rfl
  | run hlife n hp => exact .of_same rfl rfl rfl rfl
  | hostWrite hlife regs hi lo pc nextEvent nePending => exact .of_same rfl rfl rfl rfl
  | invalidate q hq =>
    refine ⟨fun p hp => ?_, fun _ _ _ _ _ => rfl⟩
    rw [answer_pageValid, pageValid_invalidatePage, Bool.and_eq_true] at hp
    exact hp.1
  | extRam a n v off page hr hn ha =>
    refine .of_ramWrite hr rfl rfl rfl fun hl j hj => ?_
    exact writeLow_eq_storeInto s.ram off a n v ▸
      readByte_storeInto_otherWord (ram_off_mod hl hr).2 (storeAligned_extKind hn ha) hj
  | extScratch a n v off hr hn ha => exact .of_same rfl rfl rfl rfl

/-- A step is the entry into the page at an aligned `PC` from Dispatch, or it keeps the pages (R86, R185). -/
theorem enterPage_or_pagesKept {s t : State} (h : StepEffect s t) :
    (s.life = .running ∧ s.inCallback = false ∧ s.dstate = .dispatch ∧ s.pc.toNat % 4 = 0 ∧
      ∃ p, pageOf s.params s.pc = some p ∧ t = s.enterPage p) ∨ PagesKept s t := by
  cases h with
  | idle h => exact .inr (.of_same rfl rfl rfl rfl)
  | host h p rest hp t ht =>
    obtain ⟨hvalid, hwords⟩ := PagesKept.of_command ht
    exact .inr ⟨hvalid, hwords⟩
  | ownerFree h hi c d => exact .inr (.of_same rfl rfl rfl rfl)
  | ownerReply h hi c rest => exact .inr (.of_same rfl rfl rfl rfl)
  | ownerCommand h hi p rest t ht =>
    obtain ⟨hvalid, hwords⟩ := PagesKept.of_command ht
    exact .inr ⟨hvalid, hwords⟩
  | yieldEnd h hi hd => exact .inr (.of_same rfl rfl rfl rfl)
  | yieldOn h hi hd => exact .inr (.of_same rfl rfl rfl rfl)
  | dispatchStop h hi hd c => exact .inr (.of_same rfl rfl rfl rfl)
  | enter h hi hd p ha hp => exact .inl ⟨h, hi, hd, ha, p, hp, rfl⟩
  | execute h hi hd t ht => exact .inr (.of_execute ht)

/-- A block that is kept, of pages that are kept, stays coherent. -/
theorem State.blockCoherent.kept {s t : State} (h : s.blockCoherent) (hl : s.params.Legal) (hf : StoresFixed s t)
    (hk : PagesKept s t) : t.blockCoherent := by
  obtain ⟨-, hparams, hblk⟩ := hf
  intro p hp hvalid i hi
  rw [hparams] at hp hi
  calc t.blkWord p i = s.blkWord p i := by rw [State.blkWord, hblk, hparams]; rfl
    _ = s.pageWord p i := h p hp (hk.valid p hvalid) i hi
    _ = t.pageWord p i := (hk.words hl p hvalid i hi).symm

/-- `VALID` after the entry into a page: that page is valid, every other as it was (R159, R185). -/
theorem pageValid_enterPage (s : State) (p q : Nat) :
    (s.enterPage p).pageValid q = (s.pageValid q || q = p) := by
  rw [show (s.enterPage p).pageValid q = (if s.pageValid p then s else s.translate p).pageValid q from rfl]
  split
  · rename_i hvalid
    by_cases hq : q = p
    · simp [hq, hvalid]
    · simp [hq]
  · exact pageValid_translate s p q

/-- `BLK` after the entry into a page: the words of the page if it was invalid, else as it was (R158, R185). -/
theorem blkWord_enterPage (s : State) (p q : Nat) {i : Nat} (hi : i < s.params.pageInstrs) :
    (s.enterPage p).blkWord q i = if q = p ∧ s.pageValid p = false then s.pageWord p i else s.blkWord q i := by
  rw [show (s.enterPage p).blkWord q i = (if s.pageValid p then s else s.translate p).blkWord q i from rfl]
  split
  · rename_i hvalid
    simp [hvalid]
  · rename_i hvalid
    simp [hvalid, blkWord_translate s p q i hi]

/-- The entry into a page writes no memory (R158). -/
@[simp] theorem pageWord_enterPage (s : State) (p q i : Nat) : (s.enterPage p).pageWord q i = s.pageWord q i := by
  rcases enterPage_cases s p with h | h <;> rw [h] <;> rfl

/-- The entry into a page keeps the block coherent: a page it makes valid it has translated (R158, R159). -/
theorem State.blockCoherent.enterPage {s : State} (h : s.blockCoherent) (p : Nat) : (s.enterPage p).blockCoherent := by
  intro q hq hvalid i hi
  rw [(enterPage_rom_params s p).2] at hq hi
  rw [pageWord_enterPage, blkWord_enterPage s p q hi]
  split
  · rename_i hnew
    rw [hnew.1]
  · rename_i hold
    refine h q hq ?_ i hi
    rw [pageValid_enterPage, Bool.or_eq_true, decide_eq_true_eq] at hvalid
    rcases hvalid with hvalid | rfl
    · exact hvalid
    · simpa using hold

/-- The step that takes `init` in a block not yet initialized leaves no page valid (R150). -/
theorem pageValid_of_init {s t : State} (hstep : stepsTo s t) (hs : s.life = .uninitialized) (ht : t.life = .ready)
    (p : Nat) : t.pageValid p = false := by
  obtain ⟨-, hmoves⟩ := lifecycleMoves s t hstep
  obtain ⟨q, rest, hport, hcmd⟩ := hmoves (by simp [hs]) (by simp [hs, ht])
  have hinit : decodeCommand q = .instr .init := by simpa [hs, ht] using hcmd
  have hmove : step s = .next (({ s with
      hostPort := rest, valid := [], nePending := false, inCallback := false, faultCode := .none,
      life := .ready } : State).answer .ack) := by
    simp [step, move, hs, hostMove, hport, takeCommand, hinit, exec, execInit]
  cases hmove.symm.trans hstep
  rfl

/-- Settles O53: a step enters a page, which it translates, or keeps the block store and the pages; and after `init`
no page is valid. -/
theorem blocksStayCoherent : Obligations.BlocksStayCoherent := by
  intro s t hstep hl h
  rcases h with h | ⟨hs, ht⟩
  · have heffect := stepEffect_of_stepsTo hstep
    rcases enterPage_or_pagesKept heffect with ⟨-, -, -, -, p, -, rfl⟩ | hk
    · exact h.enterPage p
    · rcases enterPage_or_storesFixed heffect with ⟨-, -, -, p, rfl⟩ | hf
      · exact h.enterPage p
      · exact h.kept hl hf hk
  · intro p _ hvalid
    rw [pageValid_of_init hstep hs ht p] at hvalid
    cases hvalid

/-- Settles O58: only the entry into a page makes one valid, and it makes valid the page it has translated. -/
theorem validOnlyByTranslation : Obligations.ValidOnlyByTranslation := by
  intro s t p hstep hvalid hinvalid
  rcases enterPage_or_pagesKept (stepEffect_of_stepsTo hstep) with ⟨hrun, hcall, hdisp, ha, q, hq, rfl⟩ | hk
  · obtain rfl : p = q := by simpa [pageValid_enterPage, hinvalid] using hvalid
    refine ⟨hrun, hcall, hdisp, ha, hq, rfl, rfl, fun k hk => ?_⟩
    rw [blkWord_enterPage s p p hk, if_pos ⟨rfl, hinvalid⟩, pageWord_enterPage]
  · simp [hk.valid p hvalid] at hinvalid

end Sys2Proof.Machine
end

section
/-! The words the dispatcher runs are the words in memory (R65, R89, R186). -/
namespace Sys2Proof.Machine

/-- The place of an aligned address in its page is its offset in the page's memory (R65, R186). -/
theorem page_add_slotIndex {c : Params} (hl : c.Legal) {a : Word} {off : Nat} (h4 : a.toNat % 4 = 0)
    (hoff : off % c.pageBytes = a.toNat % c.pageBytes) : off / c.pageBytes * c.pageBytes + 4 * slotIndex c a = off := by
  have hmod := mod_pageBytes_mod hl a.toNat
  have hdiv := Nat.div_add_mod' off c.pageBytes
  unfold slotIndex
  omega

/-- A word read at an aligned address of a page is that page's word at the address's place (R65, R73). -/
theorem memRead_pageWord {s : State} (hl : s.params.Legal) {a : Word} {p : Nat} (h4 : a.toNat % 4 = 0)
    (hp : pageOf s.params a = some p) : (memRead s a .word).1 = s.pageWord p (slotIndex s.params a) := by
  unfold pageOf at hp
  unfold memRead State.pageWord State.pageMem pageBase
  cases hr : resolve s.params a with
  | ram off page =>
    obtain rfl : page = p := by simpa [hr] using hp
    rw [if_pos (ram_page_lt hl hr), if_pos (ram_page_lt hl hr), (ram_bounds hr).2,
      page_add_slotIndex hl h4 (ram_off_mod hl hr).1]
    rfl
  | scratch off => simp [hr] at hp
  | rom off page =>
    obtain rfl : page = p := by simpa [hr] using hp
    have hge := Nat.not_lt.2 (rom_page_lt hl hr).1
    rw [if_neg hge, if_neg hge, (rom_bounds hr).2, Nat.add_sub_cancel_left,
      page_add_slotIndex hl h4 (rom_off_mod hl hr).1]
    rfl
  | unmapped => simp [hr] at hp

/-- Settles O55: the word Execute runs is the page's word at `PC` by coherence, and that word is the one in memory. -/
theorem executeRunsMemory : Obligations.ExecuteRunsMemory := by
  intro s b0 b1 b2 b3 hl hcoh hin hrun hexec hvalid h0 h1 h2 h3
  obtain ⟨h4, hpage⟩ := hin hrun hexec
  have hread := memRead_pageWord hl h4 hpage
  rw [memRead_word hl h4 h0 h1 h2 h3] at hread
  calc fetchWord s = s.pageWord s.curPage (slotIndex s.params s.pc) :=
        hcoh _ (pageOf_lt hl hpage) hvalid _ (slotIndex_lt hl s.pc)
    _ = wordOfBytes b0 b1 b2 b3 := hread.symm
    _ = (b3 ++ b2 ++ b1 ++ b0 : BitVec 32) := wordOfBytes_eq b0 b1 b2 b3

end Sys2Proof.Machine
end

section
/-! The address map (R60 to R70): the router in the numbers of the spec, and mirroring. -/
namespace Sys2Proof.Machine

/-- The masked address, its mask read from the table by the address's top three bits (R61, R62). -/
theorem maskAddress_eq (c : Params) (a : Word) :
    maskAddress c a = a &&& c.regionMask[(a.extractLsb' 29 3).toNat]! := by
  unfold maskAddress Params.mask
  rw [getElem!_pos]

/-- What an address resolves to rests on its masked address only (R67, R68). -/
theorem resolve_congr {c : Params} {a b : Word} (h : maskAddress c a = maskAddress c b) : resolve c a = resolve c b := by
  unfold resolve
  rw [h]

/-- The masks are all the router takes from the region table (R61). -/
theorem maskAddress_of_regionMask {c d : Params} (h : c.regionMask = d.regionMask) (a : Word) :
    maskAddress c a = maskAddress d a := by
  rw [maskAddress_eq, maskAddress_eq, h]

/-- The low 29 bits under the top three: the mirrors of an address below `0x20000000` (R62, R70). -/
theorem toNat_or_region {a : Word} (h : a.toNat < 536870912) (r : Nat) (hr : r < 8) :
    (a ||| BitVec.ofNat 32 (r <<< 29)).toNat = 536870912 * r + a.toNat := by
  have hsplit := Nat.shiftLeft_add_eq_or_of_lt (i := 29) h r
  rw [BitVec.toNat_or, BitVec.toNat_ofNat, Nat.mod_eq_of_lt (by rw [Nat.shiftLeft_eq]; omega), Nat.or_comm, ← hsplit,
    Nat.shiftLeft_eq]
  omega

/-- Under the default masks the mirrors of an address below `0x20000000` in regions 4 and 5 are masked to it (R62). -/
theorem maskAddress_mirror {a : Word} (h : a.toNat < 536870912) :
    maskAddress Params.specDefault (a ||| 0x80000000#32) = maskAddress Params.specDefault a ∧
    maskAddress Params.specDefault (a ||| 0xA0000000#32) = maskAddress Params.specDefault a := by
  have h4 : (a ||| 0x80000000#32).toNat = 2147483648 + a.toNat := toNat_or_region h 4 (by omega)
  have h5 : (a ||| 0xA0000000#32).toNat = 2684354560 + a.toNat := toNat_or_region h 5 (by omega)
  have h0 : (maskAddress Params.specDefault a).toNat = a.toNat := by
    rw [toNat_maskAddress_default, if_neg (by omega), if_neg (by omega)]
  refine ⟨BitVec.eq_of_toNat_eq ?_, BitVec.eq_of_toNat_eq ?_⟩
  · rw [h0, toNat_maskAddress_default, if_pos (by omega)]
    omega
  · rw [h0, toNat_maskAddress_default, if_neg (by omega), if_pos (by omega)]
    omega

/-- Settles O39: the router reads the masked address only, and the default masks take both mirrors to the address. -/
theorem mirroring : Obligations.Mirroring := by
  refine ⟨fun c a b h => resolve_congr ?_, fun c a hmasks ha => ?_⟩
  · rwa [maskAddress_eq, maskAddress_eq]
  · obtain ⟨h4, h5⟩ := maskAddress_mirror ha
    have hc := maskAddress_of_regionMask hmasks
    exact ⟨resolve_congr (by rw [hc, hc, h4]), resolve_congr (by rw [hc, hc, h5])⟩

/-- The router's four answers for the masked address `m`, each by its extent (R63 to R66). -/
theorem resolve_extents {c : Params} {a : Word} {m : Nat} (hm : (maskAddress c a).toNat = m) :
    (m < 2097152 → resolve c a = .ram m (m / 2 ^ c.pageShift)) ∧
    (2097152 ≤ m → c.scratchBase.toNat ≤ m → m < c.scratchBase.toNat + 1024 →
      resolve c a = .scratch (m - c.scratchBase.toNat)) ∧
    (2097152 ≤ m → ¬(c.scratchBase.toNat ≤ m ∧ m < c.scratchBase.toNat + 1024) →
      (c.romBase.toNat ≤ m ∧ m < c.romBase.toNat + 524288 → resolve c a =
        .rom (m - c.romBase.toNat) (2097152 / 2 ^ c.pageShift + (m - c.romBase.toNat) / 2 ^ c.pageShift)) ∧
      (¬(c.romBase.toNat ≤ m ∧ m < c.romBase.toNat + 524288) → resolve c a = .unmapped)) := by
  subst hm
  refine ⟨fun h => ?ram, fun h hlo hhi => ?scratch, fun h hs => ⟨fun hr => ?rom, fun hr => ?unmapped⟩⟩
  case ram => exact resolve_eq_ram.2 ⟨rfl, h, rfl⟩
  case scratch => exact resolve_eq_scratch.2 (by omega)
  case rom => exact resolve_eq_rom.2 ⟨by omega, by omega, rfl, h, hs⟩
  case unmapped => exact resolve_eq_unmapped.2 (by omega)

/-- The masked address of a place in one of the three mirrors under the default masks (R62, R70). -/
theorem toNat_maskAddress_mirror {a : Word} {k : Nat} (hk : k = 0 ∨ k = 0x80000000 ∨ k = 0xA0000000)
    (hlo : k ≤ a.toNat) (hhi : a.toNat < k + 0x20000000) :
    (maskAddress Params.specDefault a).toNat = a.toNat - k := by
  rw [toNat_maskAddress_default]
  rcases hk with rfl | rfl | rfl
  · rw [if_neg (by omega), if_neg (by omega), Nat.sub_zero]
  · rw [if_pos (by omega)]
  · rw [if_neg (by omega), if_pos (by omega)]

/-- Every address is masked as a place in one of the three mirrors, the first reaching up to `0xFFFFFFFF` (R62). -/
theorem exists_mirror_base (a : Word) :
    ∃ k ∈ [0, 0x80000000, 0xA0000000], (maskAddress Params.specDefault a).toNat = a.toNat - k ∧ k ≤ a.toNat := by
  rw [toNat_maskAddress_default]
  split
  · exact ⟨0x80000000, by simp, rfl, by omega⟩
  · split
    · exact ⟨0xA0000000, by simp, rfl, by omega⟩
    · exact ⟨0, by simp, rfl, Nat.zero_le _⟩

/-- The bases and the page size of the defaults in numbers (R9, R10). -/
theorem specDefault_extents : Params.specDefault.scratchBase.toNat = 0x1F800000 ∧
    Params.specDefault.romBase.toNat = 0x1FC00000 ∧ Params.specDefault.pageBytes = 2048 ∧
    Params.specDefault.ramPages = 1024 := by decide

/-- Settles O38: the router by its extents, and under the defaults the masked address of each range and of what lies
outside them. -/
theorem addressMap : Obligations.AddressMap := by
  obtain ⟨hscratch, hrom, hpage, hramPages⟩ := specDefault_extents
  refine ⟨fun c a m hm => resolve_extents (by rw [maskAddress_eq, hm]),
    fun a => ⟨fun k hk => ?mapped, fun hout => ?unmapped⟩⟩
  case mapped =>
    have hk : k = 0 ∨ k = 0x80000000 ∨ k = 0xA0000000 := by simpa using hk
    have hm := toNat_maskAddress_mirror (a := a) hk
    refine ⟨fun h => ?ram, fun h => ?scratch, fun h => ?rom⟩
    case ram => exact resolve_eq_ram.2 ⟨hm h.1 (by omega), by omega, by rw [hpage]⟩
    case scratch =>
      rw [resolve_eq_scratch, hm (by omega) (by omega), hscratch]
      omega
    case rom =>
      rw [resolve_eq_rom, hm (by omega) (by omega), hscratch, hrom, hpage, hramPages]
      omega
  case unmapped =>
    obtain ⟨k, hk, hm, hle⟩ := exists_mirror_base a
    have hranges := hout k hk
    rw [resolve_eq_unmapped, hm, hscratch, hrom]
    omega

end Sys2Proof.Machine
end

section
/-! Loads from mapped addresses (R72, R73, R281): the value read is the bytes in memory, lowest address first, and the
load completes as any register write does. -/
namespace Sys2Proof.Machine

/-- A charge, a register write and the move of `PC` make a retired register write (R187, R188, R189). -/
theorem retiredWrite_of_setReg (w : Word) (s : State) (r : RegIdx) (v : Word) :
    retiredWrite s ((s.charge w).setReg r v).advance w r v :=
  ⟨rfl, fun q => reg_setReg (s.charge w) r q v, fun _ => rfl⟩

/-- A plain load of an aligned address whose read draws nothing completes: `rt` takes what the instruction makes of
the value read (R281). -/
theorem finish_loadBody_mapped {s : State} {w ea m v : Word} {rt : RegIdx} {n : Size} {ext : Word → Word}
    (ha : misaligned ea n = false) (hread : memRead (s.charge w) ea n = (m, s.charge w)) (hv : ext m = v) :
    ∃ t, finish w s (loadBody w s rt ea n ext) = .next t ∧ retiredWrite s t w rt v := by
  unfold loadBody
  rw [if_neg (by simp [ha]), hread, ← hv]
  exact ⟨_, rfl, retiredWrite_of_setReg w s rt _⟩

/-- `LW` of four mapped bytes at an aligned address completes with the word they make (R286). -/
theorem exec_lw_mapped {s : State} (hl : s.params.Legal) {rt rs : RegIdx} {imm : Imm16} {b0 b1 b2 b3 : Byte}
    (h4 : (s.reg rs + imm.signExtend 32).toNat % 4 = 0) (h0 : s.readAddr (s.reg rs + imm.signExtend 32) = some b0)
    (h1 : s.readAddr (s.reg rs + imm.signExtend 32 + 1#32) = some b1)
    (h2 : s.readAddr (s.reg rs + imm.signExtend 32 + 2#32) = some b2)
    (h3 : s.readAddr (s.reg rs + imm.signExtend 32 + 3#32) = some b3) :
    ∃ t, exec (.lw rt rs imm) s = .next t ∧
      retiredWrite s t (instrWord (.lw rt rs imm)) rt (b3 ++ b2 ++ b1 ++ b0 : BitVec 32) :=
  finish_loadBody_mapped ((misaligned_word_false _).2 h4)
    (memRead_word (s := s.charge _) hl h4 h0 h1 h2 h3) (wordOfBytes_eq b0 b1 b2 b3)

/-- Settles O18: each of the five is a plain load in Execute, of the bytes `MemRead` finds. -/
theorem mappedLoads : Obligations.MappedLoads := by
  intro s rt rs imm b0 b1 b2 b3 hl h0
  refine ⟨?lb, ?lbu, fun h1 h2 => ?half, fun h1 h2 h3 h4 => exec_lw_mapped hl h4 h0 h1 h2 h3⟩
  case lb =>
    exact finish_loadBody_mapped (misaligned_byte _) (memRead_byte (s := s.charge _) h0) (signExtByte_setWidth b0)
  case lbu => exact finish_loadBody_mapped (misaligned_byte _) (memRead_byte (s := s.charge _) h0) rfl
  case half =>
    have ha := (misaligned_half_false _).2 h2
    rw [← halfOfBytes_eq]
    exact ⟨finish_loadBody_mapped ha (memRead_half (s := s.charge _) hl h2 h0 h1) (signExtHalf_setWidth _),
      finish_loadBody_mapped ha (memRead_half (s := s.charge _) hl h2 h0 h1) rfl⟩

end Sys2Proof.Machine
end

section
/-! Stores (R76 to R81, R282): what a completed store leaves in RAM and in the scratchpad, for every kind, what one
that waits for its callback leaves, and a word loaded back. -/
namespace Sys2Proof.Machine

/-- Where a store's bytes go: from `first` on, `n` of them, byte `k` being `byte k` (R72, R292, R294). -/
structure StorePlace (ea v : Word) (kind : StoreKind) (first : Word) (n : Nat) (byte : Nat → Byte) : Prop where
  aligned : storeAligned ea kind
  first : first.toNat = ea.toNat - storeBack ea kind
  length : storeLength ea kind = n
  bytes : ∀ k, byteOf v (storeShift ea kind + k) = byte k

/-- `SB` writes one byte (R290). -/
theorem storePlace_b (ea v : Word) : StorePlace ea v .b ea 1 (regByte v) :=
  ⟨trivial, rfl, rfl, fun k => congrArg (byteOf v) (Nat.zero_add k)⟩

/-- `SH` writes the low two bytes (R291). -/
theorem storePlace_h {ea : Word} (h : ea.toNat % 2 = 0) (v : Word) : StorePlace ea v .h ea 2 (regByte v) :=
  ⟨h, rfl, rfl, fun k => congrArg (byteOf v) (Nat.zero_add k)⟩

/-- `SW` writes all four bytes (R293). -/
theorem storePlace_w {ea : Word} (h : ea.toNat % 4 = 0) (v : Word) : StorePlace ea v .w ea 4 (regByte v) :=
  ⟨h, rfl, rfl, fun k => congrArg (byteOf v) (Nat.zero_add k)⟩

/-- `SWL` writes the most significant bytes, from the aligned word's first byte up to `ea` (R292). -/
theorem storePlace_wl (ea v : Word) : StorePlace ea v .wl (ea &&& 0xFFFFFFFC#32) (ea.toNat % 4 + 1)
    (fun k => regByte v (3 - ea.toNat % 4 + k)) :=
  ⟨trivial, toNat_alignedWord ea, rfl, fun _ => rfl⟩

/-- `SWR` writes the least significant bytes, from `ea` to the aligned word's last byte (R294). -/
theorem storePlace_wr (ea v : Word) : StorePlace ea v .wr ea (4 - ea.toNat % 4) (regByte v) :=
  ⟨trivial, rfl, rfl, fun k => congrArg (byteOf v) (Nat.zero_add k)⟩

/-- `ext_write` writes the low `n` bytes (R157). -/
theorem storePlace_ext {a n : Word} (hn : sizeLegal n = true) (ha : sizeAligned a n = true) (v : Word) :
    StorePlace a v (extKind n) a n.toNat (regByte v) := by
  obtain ⟨hlength, hback, hshift⟩ := extKind_extent a hn
  exact ⟨storeAligned_extKind hn ha, by rw [hback, Nat.sub_zero], hlength, fun k => by rw [hshift, Nat.zero_add]; rfl⟩

section Stored
variable {s t : State} {ea v first : Word} {kind : StoreKind} {n off page : Nat} {byte : Nat → Byte}

/-- What every address reads after a store into RAM. -/
theorem StorePlace.stored_ram (h : StorePlace ea v kind first n byte) (hl : s.params.Legal)
    (hr : resolve s.params ea = .ram off page) (hparams : t.params = s.params)
    (hram : t.ram = storeInto s.ram off ea v kind) (hscratch : t.scratch = s.scratch) (hrom : t.rom = s.rom) :
    storedBytes s t first n byte := by
  obtain ⟨ha, hfirst, rfl, hbytes⟩ := h
  rw [← funext hbytes]
  exact storedBytes_ram hl hparams hr hfirst ha hram hscratch hrom

/-- What every address reads after a store into the scratchpad. -/
theorem StorePlace.stored_scratch (h : StorePlace ea v kind first n byte) (hl : s.params.Legal)
    (hr : resolve s.params ea = .scratch off) (hparams : t.params = s.params)
    (hscratch : t.scratch = storeInto s.scratch off ea v kind) (hram : t.ram = s.ram) (hrom : t.rom = s.rom) :
    storedBytes s t first n byte := by
  obtain ⟨ha, hfirst, rfl, hbytes⟩ := h
  rw [← funext hbytes]
  exact storedBytes_scratch hl hparams hr hfirst ha hscratch hram hrom

/-- A store into RAM completes: its bytes, its page invalid, and nothing else (R77). -/
theorem finish_memWrite_ram (h : StorePlace ea v kind first n byte) (hl : s.params.Legal)
    (hr : resolve s.params ea = .ram off page) (w : Word) :
    ∃ t, finish w s (memWrite (s.charge w) ea v kind) = .next t ∧ retiredRamStore s t w page first n byte := by
  unfold memWrite
  rw [charge_params, hr]
  exact ⟨_, rfl, rfl, fun q => pageValid_invalidatePage s page q, h.stored_ram hl hr rfl rfl rfl rfl⟩

/-- A store into the scratchpad completes: its bytes, and nothing else (R78). -/
theorem finish_memWrite_scratch (h : StorePlace ea v kind first n byte) (hl : s.params.Legal)
    (hr : resolve s.params ea = .scratch off) (w : Word) :
    ∃ t, finish w s (memWrite (s.charge w) ea v kind) = .next t ∧ retiredScratchStore s t w first n byte := by
  unfold memWrite
  rw [charge_params, hr]
  exact ⟨_, rfl, rfl, h.stored_scratch hl hr rfl rfl rfl rfl⟩

end Stored

/-- A store to ROM or an unmapped address waits for its callback (R79, R80, R160). -/
theorem finish_memWrite_callback {s : State} {ea : Word}
    (hr : resolve s.params ea = .unmapped ∨ ∃ off page, resolve s.params ea = .rom off page) (w v : Word)
    (kind : StoreKind) :
    finish w s (memWrite (s.charge w) ea v kind) = .next (awaitingCallback s w v ea (storeKindCode kind)) := by
  unfold memWrite
  rw [charge_params]
  rcases hr with hr | ⟨off, page, hr⟩
  · rw [hr]
    rfl
  · rw [hr]
    rfl

/-- An aligned store is its charge and its `MemWrite` (R282). -/
theorem storeBody_aligned {ea : Word} {n : Size} (h : misaligned ea n = false) (w : Word) (s : State) (rt : RegIdx)
    (kind : StoreKind) : storeBody w s rt ea n kind = memWrite (s.charge w) ea (s.reg rt) kind := by
  simp [storeBody, h]

section Exec
variable {s : State} {rs : RegIdx} {imm : Imm16}

/-- `SB` is its `MemWrite`, completed (R290). -/
theorem exec_sb (rt : RegIdx) : exec (.sb rt rs imm) s = finish (instrWord (.sb rt rs imm)) s
    (memWrite (s.charge (instrWord (.sb rt rs imm))) (s.reg rs + imm.signExtend 32) (s.reg rt) .b) := rfl

/-- An aligned `SH` is its `MemWrite`, completed (R291). -/
theorem exec_sh (h : (s.reg rs + imm.signExtend 32).toNat % 2 = 0) (rt : RegIdx) :
    exec (.sh rt rs imm) s = finish (instrWord (.sh rt rs imm)) s
      (memWrite (s.charge (instrWord (.sh rt rs imm))) (s.reg rs + imm.signExtend 32) (s.reg rt) .h) :=
  congrArg (finish _ s) (storeBody_aligned ((misaligned_half_false _).2 h) _ s rt .h)

/-- An aligned `SW` is its `MemWrite`, completed (R293). -/
theorem exec_sw (h : (s.reg rs + imm.signExtend 32).toNat % 4 = 0) (rt : RegIdx) :
    exec (.sw rt rs imm) s = finish (instrWord (.sw rt rs imm)) s
      (memWrite (s.charge (instrWord (.sw rt rs imm))) (s.reg rs + imm.signExtend 32) (s.reg rt) .w) :=
  congrArg (finish _ s) (storeBody_aligned ((misaligned_word_false _).2 h) _ s rt .w)

/-- `SWL` is its `MemWrite`, completed (R292). -/
theorem exec_swl (rt : RegIdx) : exec (.swl rt rs imm) s = finish (instrWord (.swl rt rs imm)) s
    (memWrite (s.charge (instrWord (.swl rt rs imm))) (s.reg rs + imm.signExtend 32) (s.reg rt) .wl) := rfl

/-- `SWR` is its `MemWrite`, completed (R294). -/
theorem exec_swr (rt : RegIdx) : exec (.swr rt rs imm) s = finish (instrWord (.swr rt rs imm)) s
    (memWrite (s.charge (instrWord (.swr rt rs imm))) (s.reg rs + imm.signExtend 32) (s.reg rt) .wr) := rfl

end Exec

/-- Settles O23: each of the three is its `MemWrite` into RAM, completed. -/
theorem ramStores : Obligations.RamStores := by
  intro s rt rs imm off page hl hr
  refine ⟨?sb, fun h2 => ?sh, fun h4 => ?sw⟩
  case sb => exact exec_sb rt ▸ finish_memWrite_ram (storePlace_b _ _) hl hr _
  case sh => exact exec_sh h2 rt ▸ finish_memWrite_ram (storePlace_h h2 _) hl hr _
  case sw => exact exec_sw h4 rt ▸ finish_memWrite_ram (storePlace_w h4 _) hl hr _

/-- Settles O24: each of the three is its `MemWrite` into the scratchpad, completed. -/
theorem scratchpadStores : Obligations.ScratchpadStores := by
  intro s rt rs imm off hl hr
  refine ⟨?sb, fun h2 => ?sh, fun h4 => ?sw⟩
  case sb => exact exec_sb rt ▸ finish_memWrite_scratch (storePlace_b _ _) hl hr _
  case sh => exact exec_sh h2 rt ▸ finish_memWrite_scratch (storePlace_h h2 _) hl hr _
  case sw => exact exec_sw h4 rt ▸ finish_memWrite_scratch (storePlace_w h4 _) hl hr _

/-- Settles O25: each of the two is its `MemWrite`, completed, in RAM and in the scratchpad. -/
theorem partialStores : Obligations.PartialStores := by
  intro s rt rs imm hl
  refine ⟨fun off page hr => ⟨?ramLeft, ?ramRight⟩, fun off hr => ⟨?scratchLeft, ?scratchRight⟩⟩
  case ramLeft => exact exec_swl rt ▸ finish_memWrite_ram (storePlace_wl _ _) hl hr _
  case ramRight => exact exec_swr rt ▸ finish_memWrite_ram (storePlace_wr _ _) hl hr _
  case scratchLeft => exact exec_swl rt ▸ finish_memWrite_scratch (storePlace_wl _ _) hl hr _
  case scratchRight => exact exec_swr rt ▸ finish_memWrite_scratch (storePlace_wr _ _) hl hr _

/-- Settles O26: each of the five is its `MemWrite` to ROM or nowhere, which waits for the callback. -/
theorem callbackStores : Obligations.CallbackStores := by
  intro s rt rs imm hr
  have await := finish_memWrite_callback hr
  exact ⟨(exec_sb rt).trans (await _ _ .b), fun h2 => (exec_sh h2 rt).trans (await _ _ .h),
    fun h4 => (exec_sw h4 rt).trans (await _ _ .w), (exec_swl rt).trans (await _ _ .wl),
    (exec_swr rt).trans (await _ _ .wr)⟩

/-- `ext_write` where it is accepted, into RAM (R98, R157). -/
theorem exec_extWrite_ram {s : State} {a n : Word} {off page : Nat} (h : s.openToCommands = true)
    (hn : sizeLegal n = true) (ha : sizeAligned a n = true) (hr : resolve s.params a = .ram off page) (v : Word) :
    exec (.extWrite a n v) s =
      .next (({ s with ram := writeLow s.ram off n v }.invalidatePage page).answer .ack) := by
  simp [exec, execExtWrite, h, hn, ha, hr]

/-- `ext_write` where it is accepted, into the scratchpad (R157). -/
theorem exec_extWrite_scratch {s : State} {a n : Word} {off : Nat} (h : s.openToCommands = true)
    (hn : sizeLegal n = true) (ha : sizeAligned a n = true) (hr : resolve s.params a = .scratch off) (v : Word) :
    exec (.extWrite a n v) s = .next ({ s with scratch := writeLow s.scratch off n v }.answer .ack) := by
  simp [exec, execExtWrite, h, hn, ha, hr]

/-- Settles O45: `ext_write` leaves what a store of its kind leaves, and is acknowledged. -/
theorem extWriteCommand : Obligations.ExtWriteCommand := by
  intro s a n v hl hopen hn ha
  rw [← openToCommands_iff] at hopen
  have hlegal : sizeLegal n = true := by simpa [sizeLegal, or_assoc] using hn
  have haligned : sizeAligned a n = true := by simpa [sizeAligned] using ha
  have place := storePlace_ext hlegal haligned v
  refine ⟨fun off page hr => ?ram, fun off hr => ?scratch⟩
  case ram =>
    have hram := writeLow_eq_storeInto s.ram off a n v
    exact ⟨_, exec_extWrite_ram hopen hlegal haligned hr v, place.stored_ram hl hr rfl hram rfl rfl,
      fun q => pageValid_invalidatePage s page q, rfl⟩
  case scratch =>
    have hscratch := writeLow_eq_storeInto s.scratch off a n v
    exact ⟨_, exec_extWrite_scratch hopen hlegal haligned hr v, place.stored_scratch hl hr rfl hscratch rfl rfl, rfl⟩

/-- A store of a word into RAM or the scratchpad completes, its four bytes in place and the configuration as it
was (R77, R78, R293). -/
theorem exec_sw_stored {s : State} (hl : s.params.Legal) {rs : RegIdx} {imm : Imm16}
    (hr : (∃ off page, resolve s.params (s.reg rs + imm.signExtend 32) = .ram off page) ∨
      ∃ off, resolve s.params (s.reg rs + imm.signExtend 32) = .scratch off)
    (h4 : (s.reg rs + imm.signExtend 32).toNat % 4 = 0) (rt : RegIdx) :
    ∃ t, exec (.sw rt rs imm) s = .next t ∧ t.params = s.params ∧
      storedBytes s t (s.reg rs + imm.signExtend 32) 4 (regByte (s.reg rt)) := by
  rcases hr with ⟨off, page, hr⟩ | ⟨off, hr⟩
  · obtain ⟨-, -, hsw⟩ := ramStores s rt rs imm off page hl hr
    obtain ⟨t, ht, heq, -, hstored⟩ := hsw h4
    exact ⟨t, ht, by rw [heq]; rfl, hstored⟩
  · obtain ⟨-, -, hsw⟩ := scratchpadStores s rt rs imm off hl hr
    obtain ⟨t, ht, heq, hstored⟩ := hsw h4
    exact ⟨t, ht, by rw [heq]; rfl, hstored⟩

/-- Two addresses of one word of RAM or the scratchpad are aligned together, and their bytes are the same (R68). -/
theorem resolve_word_congr {c : Params} (hl : c.Legal) {a b : Word}
    (hr : (∃ off page, resolve c a = .ram off page) ∨ ∃ off, resolve c a = .scratch off) (h4 : a.toNat % 4 = 0)
    (h : resolve c b = resolve c a) : b.toNat % 4 = 0 ∧
      ∀ k < 4, resolve c (b + BitVec.ofNat 32 k) = resolve c (a + BitVec.ofNat 32 k) := by
  rcases hr with ⟨off, page, hr⟩ | ⟨off, hr⟩
  · have hb := h.trans hr
    have hb4 : b.toNat % 4 = 0 := by rw [← (ram_off_mod hl hb).2, (ram_off_mod hl hr).2, h4]
    exact ⟨hb4, fun k hk => by rw [resolve_add_ram hl hb (by omega), resolve_add_ram hl hr (by omega)]⟩
  · have hb := h.trans hr
    have hb4 : b.toNat % 4 = 0 := by rw [← scratch_off_mod hl hb, scratch_off_mod hl hr, h4]
    exact ⟨hb4, fun k hk => by rw [resolve_add_scratch hl hb (by omega), resolve_add_scratch hl hr (by omega)]⟩

/-- The four bytes of a register make it up again (R71). -/
theorem append_regBytes (v : Word) : (regByte v 3 ++ regByte v 2 ++ regByte v 1 ++ regByte v 0 : BitVec 32) = v :=
  (wordOfBytes_eq _ _ _ _).symm.trans (wordOfBytes_byteOf v)

/-- Settles O29: the store leaves the register's bytes wherever an address resolves alike, and the load reads the word they make. -/
theorem loadAfterStore : Obligations.LoadAfterStore := by
  intro s t rt rs rd rb imm imm' hl hr h4 hsw hsame
  obtain ⟨t', ht', hparams, hstored⟩ := exec_sw_stored hl hr h4 rt
  cases ht'.symm.trans hsw
  obtain ⟨hb4, hbytes⟩ := resolve_word_congr hl hr h4 hsame
  have hread : ∀ k < 4, t.readAddr (t.reg rb + imm'.signExtend 32 + BitVec.ofNat 32 k) = some (regByte (s.reg rt) k) :=
    fun k hk => (hstored _).1 k hk (hbytes k hk)
  have h0 := hread 0 (by omega)
  rw [BitVec.add_zero] at h0
  rw [← append_regBytes (s.reg rt)]
  exact exec_lw_mapped (hparams ▸ hl) hb4 h0 (hread 1 (by omega)) (hread 2 (by omega)) (hread 3 (by omega))

end Sys2Proof.Machine
end

section
/-! The encoding (R111 to R119, R124, R125): the decoder and the encoder are inverse on instructions and on the words
that decode, and what R113 to R116 give no meaning is `RESERVED`. -/
namespace Sys2Proof

/-! ## The decoder's submaps and its must-be-zero check -/

/-- Step 3 of R117, passed. -/
@[simp] theorem mustBeZero_true (i : Instr) : mustBeZero true i = .instr i := rfl

/-- Step 3 of R117, failed. -/
@[simp] theorem mustBeZero_false (i : Instr) : mustBeZero false i = .reserved := rfl

/-- A failed check leaves no instruction, whichever it would have been (R116). -/
theorem mustBeZero_of_ne {zero : Bool} (h : zero ≠ true) (i : Instr) : mustBeZero zero i = .reserved := if_neg h

/-- `op = 0` is the SPECIAL map (R113, R114). -/
theorem decodeGuest_special {w : Word} (h : opField w = 0#6) : decodeGuest w = decodeSpecial w := by
  simp [decodeGuest, h]

/-- `op = 1` is the REGIMM map (R113, R115). -/
theorem decodeGuest_regimm {w : Word} (h : opField w = 1#6) : decodeGuest w = decodeRegimm w := by
  simp [decodeGuest, h]

@[simp] theorem decodeGuest_rWord (rs rt rd : RegIdx) (sh : BitVec 5) (fn : BitVec 6) :
    decodeGuest (rWord 0#6 rs rt rd sh fn) = decodeSpecial (rWord 0#6 rs rt rd sh fn) :=
  decodeGuest_special (opField_rWord ..)

@[simp] theorem decodeGuest_codeWord (code : Code20) (fn : BitVec 6) :
    decodeGuest (codeWord code fn) = decodeSpecial (codeWord code fn) := decodeGuest_special (opField_codeWord ..)

/-! ## Decoding an encoding -/

/-- Settles O1, by the map that holds the instruction: SPECIAL, REGIMM, the commands, else the primary map; the
decoder finds in each field what the encoder put there. -/
theorem decodeOfEncode : Obligations.DecodeOfEncode := by
  intro i
  cases i with
  | add | addu | sub | subu | and | or | xor | nor | slt | sltu | sll | srl | sra | sllv | srlv | srav | mult | multu
  | div | divu | mfhi | mthi | mflo | mtlo | jr | jalr | syscall | brk => simp [encode, decode, decodeSpecial]
  | bltz | bgez | bltzal | bgezal => simp [encode, decode, decodeGuest, decodeRegimm]
  | init | delete | setPc | setNextEvent | run | resolve | isValid | invalidate | extWrite | getState | setReg =>
    simp [encode, decode, decodeCommand]
  | _ => simp [encode, decode, decodeGuest]

/-- A word an instruction encodes to decodes to that instruction. -/
theorem decodeGuest_of_encode {i : Instr} {w : Word} (h : encode i = .word w) : decodeGuest w = .instr i := by
  have hdecode := decodeOfEncode i
  rwa [h] at hdecode

/-- Settles O3: each word is the encoding R124 assembles. -/
theorem workedEncodings : Obligations.WorkedEncodings := by
  refine ⟨?addiu, ?addu, ?bne, ?j, ?sw, ?lui, ?jr, ?syscall⟩
  all_goals exact decodeGuest_of_encode (by decide)

/-! ## A word is its fields

The fields the decoder matches on as numbers stand here as numbers too. -/

/-- The R format (R111). -/
theorem rWord_eq_iff {op fn : BitVec 6} {rs rt rd : RegIdx} {sh : BitVec 5} {w : Word} :
    rWord op rs rt rd sh fn = w ↔ (opField w).toNat = op.toNat ∧ rsField w = rs ∧ rtField w = rt ∧ rdField w = rd ∧
      shamtField w = sh ∧ (functField w).toNat = fn.toNat := by
  constructor
  · rintro rfl
    simp
  · rintro ⟨hop, rfl, rfl, rfl, rfl, hfn⟩
    rw [← BitVec.eq_of_toNat_eq hop, ← BitVec.eq_of_toNat_eq hfn, rWord_fields]

/-- The I format (R111). -/
theorem iWord_eq_iff {op : BitVec 6} {rs rt : RegIdx} {imm : Imm16} {w : Word} :
    iWord op rs rt imm = w ↔
      (opField w).toNat = op.toNat ∧ rsField w = rs ∧ (rtField w).toNat = rt.toNat ∧ immField w = imm := by
  constructor
  · rintro rfl
    simp
  · rintro ⟨hop, rfl, hrt, rfl⟩
    rw [← BitVec.eq_of_toNat_eq hop, ← BitVec.eq_of_toNat_eq hrt, iWord_fields]

/-- The J format (R111). -/
theorem jWord_eq_iff {op : BitVec 6} {target : Target26} {w : Word} :
    jWord op target = w ↔ (opField w).toNat = op.toNat ∧ targetField w = target := by
  constructor
  · rintro rfl
    simp
  · rintro ⟨hop, rfl⟩
    rw [← BitVec.eq_of_toNat_eq hop, jWord_fields]

/-- The words of `SYSCALL` and `BREAK` (R111). -/
theorem codeWord_eq_iff {code : Code20} {fn : BitVec 6} {w : Word} :
    codeWord code fn = w ↔ opField w = 0#6 ∧ codeField w = code ∧ (functField w).toNat = fn.toNat := by
  constructor
  · rintro rfl
    simp
  · rintro ⟨hop, rfl, hfn⟩
    rw [← BitVec.eq_of_toNat_eq hfn, codeWord_fields w hop]

/-! ## Encoding what a word decodes to -/

/-- An answer of the decoder to the word `w` that is faithful to it: an instruction only if `w` is its encoding. -/
def Decoded.EncodesTo (w : Word) (d : Decoded) : Prop := ∀ i, d = .instr i → encode i = .word w

namespace Decoded

@[simp] theorem encodesTo_instr {w : Word} {i : Instr} : EncodesTo w (.instr i) ↔ encode i = .word w := by
  simp [EncodesTo]

@[simp] theorem encodesTo_reserved (w : Word) : EncodesTo w .reserved := by simp [EncodesTo]

@[simp] theorem encodesTo_mustBeZero {w : Word} {zero : Bool} {i : Instr} :
    EncodesTo w (mustBeZero zero i) ↔ (zero = true → encode i = .word w) := by
  cases zero <;> simp

end Decoded

/-- The SPECIAL map: its fields are those of the R format, or the `code` field of arms 9 and 10, `SYSCALL` and
`BREAK` (R114). -/
theorem encodesTo_decodeSpecial {w : Word} (h : opField w = 0#6) : (decodeSpecial w).EncodesTo w := by
  unfold decodeSpecial
  dsimp only
  split
  case h_9 | h_10 => simp [encode, codeWord_eq_iff, *]
  case h_29 => exact Decoded.encodesTo_reserved w
  all_goals simp +contextual [encode, rWord_eq_iff, *]

/-- The REGIMM map: the I format with `rt` as its function code (R115). -/
theorem encodesTo_decodeRegimm {w : Word} (h : opField w = 1#6) : (decodeRegimm w).EncodesTo w := by
  unfold decodeRegimm
  split
  case h_5 => exact Decoded.encodesTo_reserved w
  all_goals simp [encode, iWord_eq_iff, *]

/-- The primary map: the two submaps, the J format for `J`, `JAL` and `COP0` to `COP3`, else the I format (R113). -/
theorem encodesTo_decodeGuest (w : Word) : (decodeGuest w).EncodesTo w := by
  unfold decodeGuest
  dsimp only
  split
  case h_1 hop => exact encodesTo_decodeSpecial (BitVec.eq_of_toNat_eq hop)
  case h_2 hop => exact encodesTo_decodeRegimm (BitVec.eq_of_toNat_eq hop)
  case h_3 | h_4 | h_17 | h_18 | h_19 | h_20 => simp [encode, jWord_eq_iff, *]
  case h_41 => exact Decoded.encodesTo_reserved w
  all_goals simp +contextual [encode, iWord_eq_iff, *]

/-- Settles O2: every arm of the decoder answers faithfully, a word being its fields and each field either an
operand, a number the arm matches on, or checked to be zero. -/
theorem encodeOfDecode : Obligations.EncodeOfDecode := encodesTo_decodeGuest

/-! ## Words without a meaning -/

/-- Settles O4: the number is none of those the map's arms match on, so that its last arm answers. -/
theorem unassignedEntriesReserved : Obligations.UnassignedEntriesReserved := by
  intro w
  refine ⟨fun hop => ?primary, fun hop hfn => ?special, fun hop hrt => ?regimm⟩
  case primary =>
    unfold decodeGuest
    split
    case h_41 => rfl
    all_goals
      rename_i harm
      exact absurd hop (by rw [harm]; decide)
  case special =>
    rw [decodeGuest_special hop]
    unfold decodeSpecial
    split
    case h_29 => rfl
    all_goals
      rename_i harm
      exact absurd (by rw [harm]; decide) hfn
  case regimm =>
    rw [decodeGuest_regimm hop]
    unfold decodeRegimm
    split
    case h_5 => rfl
    all_goals
      rename_i harm
      exact absurd (by rw [harm]; decide) hrt

/-- Settles O5: the arms of one clause make the same check, and its non-zero field fails it. -/
theorem mustBeZeroFieldsStrict : Obligations.MustBeZeroFieldsStrict := by
  intro w
  refine ⟨fun hop => ?special, fun hop hrs => ?lui, fun hop hrt => ?branch⟩
  case lui => simp [decodeGuest, hop, hrs]
  case branch => rcases hop with hop | hop <;> simp [decodeGuest, hop, hrt]
  case special =>
    rw [decodeGuest_special hop]
    unfold decodeSpecial
    generalize functField w = fn
    refine ⟨?shift, ?alu, ?jr, ?jalr, ?moveFrom, ?mulDiv⟩
    all_goals intro hfn hne
    case jalr =>
      subst hfn
      exact mustBeZero_of_ne (by simpa [imp_iff_not_or] using hne) _
    all_goals
      generalize fn.toNat = n at hfn
      fin_cases hfn
      all_goals exact mustBeZero_of_ne (by simpa [imp_iff_not_or, or_assoc] using hne) _

end Sys2Proof
end

section
/-! One step of the block (R165, R186, R187, R194): which move it is, and that the move runs the decoded
instruction; and the host commands that write registers (R152, R153, R163). -/
namespace Sys2Proof.Machine

/-! ## Which move a step is -/

/-- Outside `run` a step is the host's (R165). -/
theorem step_of_not_running {s : State} (h : s.life ≠ .running) : step s = hostMove s := by
  unfold step move
  cases hlife : s.life with
  | running => exact absurd hlife h
  | uninitialized | ready | destroyed => rfl

/-- Inside a callback a step is its owner's (R160, R161). -/
theorem step_of_callback {s : State} (h : s.life = .running) (hc : s.inCallback = true) : step s = ownerMove s := by
  simp [step, move, h, hc]

/-- In Execute, with no callback outstanding, a step is Execute's (R187). -/
theorem step_of_execute {s : State} (h : s.life = .running) (hc : s.inCallback = false) (hd : s.dstate = .execute) :
    step s = executeMove s := by
  simp [step, move, runMove, h, hc, hd]

/-! ## What runs -/

/-- Execute runs the instruction its word decodes to (R186, R187). -/
theorem executeMove_of_decode {s : State} {i : Instr} (h : decodeGuest (fetchWord s) = .instr i) :
    executeMove s = exec i s := by
  simp [executeMove, h]

/-- A packet on a port runs as the command it decodes to (R125). -/
theorem takeCommand_of_decode {p : Packet} {i : Instr} (h : decodeCommand p = .instr i) (s : State) :
    takeCommand p s = exec i s := by
  simp [takeCommand, h]

/-- The host's move takes the command at the head of its port (R165, log 11). -/
theorem hostMove_cons {s : State} {p : Packet} {rest : List Packet} (h : s.hostPort = p :: rest) :
    hostMove s = takeCommand p { s with hostPort := rest } := by
  simp [hostMove, h]

/-- The owner's move takes the command it has queued (R161, log 10). -/
theorem ownerMove_command {s : State} {p : Packet} {rest : List OwnerMove} (h : s.owner = .command p :: rest) :
    ownerMove s = takeCommand p { s with owner := rest } := by
  simp [ownerMove, h]

/-- Settles O6: the move the state makes, then what that move runs. -/
theorem stepRunsDecoded : Obligations.StepRunsDecoded := by
  intro s i
  refine ⟨fun hlife hcall hexec hdec => ?execute, fun p rest hlife hport hdec => ?host,
    fun p rest hlife hcall howner hdec => ?owner⟩
  case execute => rw [step_of_execute hlife hcall hexec, executeMove_of_decode hdec]
  case host => rw [step_of_not_running hlife, hostMove_cons hport, takeCommand_of_decode hdec]
  case owner => rw [step_of_callback hlife hcall, ownerMove_command howner, takeCommand_of_decode hdec]

/-! ## The commands that write registers -/

/-- An accepted `set_pc` writes `PC` and is acknowledged (R152). -/
theorem exec_setPc_ready {s : State} (h : s.life = .ready) (a : Word) :
    exec (.setPc a) s = .next ({ s with pc := a }.answer .ack) := if_pos h

/-- An accepted `set_next_event` records the event as pending and is acknowledged (R153). -/
theorem exec_setNextEvent_ready {s : State} (h : s.life = .ready) (n : Word) :
    exec (.setNextEvent n) s = .next ({ s with nextEvent := n, nePending := true }.answer .ack) := if_pos h

/-- Selectors 0 to 31 write the general registers (R127, R163). -/
theorem writeSelected_reg (s : State) {sel : Selector} (h : sel.toNat < 32) (v : Word) :
    s.writeSelected sel v = s.setReg (sel.setWidth 5) v := if_pos h

/-- Settles O42: each command by its equation in Ready, `set_reg` by the register its selector names. -/
theorem hostWrites : Obligations.HostWrites := by
  intro s v sel hready
  refine ⟨exec_setPc_ready hready v, exec_setNextEvent_ready hready v, fun hsel => ?reg, ?hi, ?lo⟩
  case reg =>
    have hw : selectorWritable sel = true := by
      simp only [selectorWritable, decide_eq_true_eq]
      omega
    rw [exec_setReg_ready hready hw, writeSelected_reg s hsel]
    exact ⟨_, rfl, fun q => reg_setReg s (sel.setWidth 5) q v, rfl⟩
  case hi =>
    rintro rfl
    exact exec_setReg_ready hready (by decide) v
  case lo =>
    rintro rfl
    exact exec_setReg_ready hready (by decide) v

end Sys2Proof.Machine
end

section
/-! The dispatcher's stay in Execute (R160, R185 to R190): the three invariants of R186 as one, which an outstanding
callback and every command on a port keep. -/
namespace Sys2Proof.Machine

/-- R186 through callbacks: `PC` is inside the page resolved, a waiting store goes on inside it, and a request is
outstanding only in Execute. -/
structure State.staysInPage (s : State) : Prop where
  inPage : s.inPage
  resumeInPage : s.resumeInPage
  callbackInRun : s.callbackInRun

/-- Outside Execute the dispatcher is in no page (R186). -/
theorem inPage_of_not_execute {s : State} (h : s.dstate ≠ .execute) : s.inPage := fun _ hexec => absurd hexec h

/-- With no request outstanding the page is all there is to keep. -/
theorem State.inPage.staysInPage {s : State} (h : s.inPage) (hc : s.inCallback = false) : s.staysInPage :=
  ⟨h, resumeInPage_of_no_callback hc, callbackInRun_of_no_callback hc⟩

/-- Outside `run` with no request outstanding, as `init`, Yield and a fault stop leave the block (R150, R195, R372). -/
theorem staysInPage_of_not_running {s : State} (h : s.life ≠ .running) (hc : s.inCallback = false) : s.staysInPage :=
  (inPage_of_not_running h).staysInPage hc

/-- A block that is Ready waits for no callback (R160, R165). -/
theorem State.callbackInRun.ready {s : State} (h : s.callbackInRun) (hready : s.life = .ready) :
    s.inCallback = false := by
  cases hcall : s.inCallback with
  | false => rfl
  | true =>
    obtain ⟨hrun, -⟩ := h (.inl hready) hcall
    simp [hready] at hrun

/-- A request outstanding inside `run` is outstanding in Execute (R160). -/
theorem State.callbackInRun.execute {s : State} (h : s.callbackInRun) (hrun : s.life = .running)
    (hcall : s.inCallback = true) : s.dstate = .execute := (h (.inr hrun) hcall).2

/-- Every command keeps the invariant: those that write `PC`, `LIFE` or `DSTATE` are taken outside `run`, where no
request is outstanding, and `run` starts in Yield (R150 to R166, R183). -/
theorem State.staysInPage.command {s t : State} {p : Packet} (h : s.staysInPage) (ht : CommandEffect s p t) :
    t.staysInPage := by
  obtain ⟨hpage, hresume, hcall⟩ := h
  cases ht with
  | refused r => exact ⟨hpage, hresume, hcall⟩
  | answered r => exact ⟨hpage, hresume, hcall⟩
  | init hlife hp => exact staysInPage_of_not_running (by simp) rfl
  | delete hlife hp => exact ⟨fun hrun => by simp at hrun, fun hrun => by simp at hrun, fun hopen => by simp at hopen⟩
  | run hlife n hp => exact (inPage_of_not_execute (by simp [State.startRun])).staysInPage (hcall.ready hlife)
  | hostWrite hlife regs hi lo pc nextEvent nePending =>
    exact staysInPage_of_not_running (by simp [hlife]) (hcall.ready hlife)
  | invalidate q hq => exact ⟨hpage, hresume, hcall⟩
  | extRam a n v off page hr hn ha => exact ⟨hpage, hresume, hcall⟩
  | extScratch a n v off hr hn ha => exact ⟨hpage, hresume, hcall⟩

/-- The end of a callback keeps the invariant: the store goes on inside the page or a boundary follows it (R160). -/
theorem State.staysInPage.adoptReply {s : State} (h : s.staysInPage) (hrun : s.life = .running)
    (hcall : s.inCallback = true) (c : Word) : (s.adoptReply c).staysInPage := by
  refine State.inPage.staysInPage ?_ rfl
  cases hyield : s.resumeYield with
  | true => exact inPage_of_not_execute (by simp [State.adoptReply, hyield])
  | false => exact fun _ _ => h.resumeInPage hrun hcall hyield

/-- The word after an instruction of the page is in the page too, unless a boundary comes before it (R187, R190 b). -/
theorem next_in_page {c : Params} (hl : c.Legal) {a : Word} {p : Nat} (ha : a.toNat % 4 = 0) (hp : pageOf c a = some p)
    (h : slotIndex c (a + 4#32) ≠ 0) : (a + 4#32).toNat % 4 = 0 ∧ pageOf c (a + 4#32) = some p :=
  ⟨by bv_omega, by rw [pageOf_add_four hl ha h, hp]⟩

/-- Every guest instruction keeps the invariant: one that is not control flow goes on at the next word of the page or
meets a boundary, a control-flow unit ends the block (R187, R190), and a fault stop ends `run` (R372). -/
theorem State.staysInPage.execute {s t : State} (hl : s.params.Legal) (h : s.staysInPage) (hrun : s.life = .running)
    (hcall : s.inCallback = false) (hexec : s.dstate = .execute) (ht : ExecuteEffect s t) : t.staysInPage := by
  obtain ⟨ha, hp⟩ := h.inPage hrun hexec
  cases ht with
  | done u hf hm hc =>
    refine State.inPage.staysInPage (fun _ hstay => ?_) (hc.trans hcall)
    have hnext : slotIndex s.params (s.pc + 4#32) ≠ 0 := by
      intro hzero
      simp [hf.params, hf.pc, hzero] at hstay
    simpa [hf.params, hf.pc, hf.curPage] using next_in_page hl ha hp hnext
  | call u hf hm hc =>
    refine ⟨fun _ _ => ?page, fun _ _ hstay => ?resume, fun _ _ => ⟨hf.life.trans hrun, hf.dstate.trans hexec⟩⟩
    case page => simpa [hf.params, hf.pc, hf.curPage] using And.intro ha hp
    case resume =>
      have hnext : slotIndex s.params (s.pc + 4#32) ≠ 0 := by simpa using hstay
      simpa [hf.params, hf.curPage] using next_in_page hl ha hp hnext
  | unitDone u next hf hm hc => exact (inPage_of_not_execute (by simp)).staysInPage (hc.trans hcall)
  | unitCall u next hf hm hc =>
    refine ⟨fun _ _ => ?page, fun _ _ hstay => by simp at hstay,
      fun _ _ => ⟨hf.life.trans hrun, hf.dstate.trans hexec⟩⟩
    case page => simpa [hf.params, hf.pc, hf.curPage] using And.intro ha hp
  | stop regs cnt c instr addr bd => exact staysInPage_of_not_running (by simp) hcall

/-- Entry into a page from Dispatch begins a stay in it (R185). -/
theorem staysInPage_enterPage {s : State} {p : Nat} (hcall : s.inCallback = false) (ha : s.pc.toNat % 4 = 0)
    (hp : pageOf s.params s.pc = some p) : (s.enterPage p).staysInPage := by
  rcases enterPage_cases s p with he | he
  · rw [he]
    exact State.inPage.staysInPage (fun _ _ => ⟨ha, hp⟩) hcall
  · rw [he]
    exact State.inPage.staysInPage (fun _ _ => ⟨ha, hp⟩) hcall

/-- Every step keeps the invariant. -/
theorem State.staysInPage.step {s t : State} (hl : s.params.Legal) (h : s.staysInPage) (ht : StepEffect s t) :
    t.staysInPage := by
  cases ht with
  | idle hlife => exact h
  | host hlife p rest hport t ht =>
    exact State.staysInPage.command (s := { s with hostPort := rest }) ⟨h.inPage, h.resumeInPage, h.callbackInRun⟩ ht
  | ownerFree hlife hi c d =>
    obtain ⟨hpage, hresume, hcall⟩ := h.adoptReply hlife hi c
    exact ⟨hpage, hresume, hcall⟩
  | ownerReply hlife hi c rest =>
    obtain ⟨hpage, hresume, hcall⟩ := h.adoptReply hlife hi c
    exact ⟨hpage, hresume, hcall⟩
  | ownerCommand hlife hi p rest t ht =>
    exact State.staysInPage.command (s := { s with owner := rest }) ⟨h.inPage, h.resumeInPage, h.callbackInRun⟩ ht
  | yieldEnd hlife hi hd => exact staysInPage_of_not_running (by simp [State.endRun]) hi
  | yieldOn hlife hi hd => exact (inPage_of_not_execute (by simp)).staysInPage hi
  | dispatchStop hlife hi hd c => exact staysInPage_of_not_running (by simp [State.dispatchFault]) hi
  | enter hlife hi hd p ha hp => exact staysInPage_enterPage hi ha hp
  | execute hlife hi hd t ht => exact h.execute hl hlife hi hd ht

/-- Settles O54, by the inversion of a step: each of its effects stays in the page, leaves Execute, or enters a
page. -/
theorem executeStaysInPage : Obligations.ExecuteStaysInPage := by
  intro s t hstep hl hpage hresume hcall
  obtain ⟨hpage', hresume', hcall'⟩ := State.staysInPage.step hl ⟨hpage, hresume, hcall⟩ (stepEffect_of_stepsTo hstep)
  exact ⟨hpage', hresume', hcall'⟩

end Sys2Proof.Machine
end

section
/-! The commands of the lifecycle (R150, R151, R181 to R183), the refused ones (R165, R166, R390), the end of a callback
(R160), and that every instruction and every step has a next state (R166, R372). -/
namespace Sys2Proof.Machine

/-! ## `init`, `delete` and `run` -/

/-- Settles O40: the accepted arm of `init`; an empty validity table reads 0 at every page. -/
theorem initCommand : Obligations.InitCommand := by
  intro s hlife
  exact ⟨_, if_pos hlife, fun p => rfl, rfl⟩

/-- Settles O41: the accepted arm of `delete`; an address reads from the memories and the configuration, which stand. -/
theorem deleteCommand : Obligations.DeleteCommand := by
  intro s hlife
  exact ⟨_, if_pos hlife, fun a => rfl, rfl⟩

/-- An accepted `run` starts, and is not answered yet (R181 to R183). -/
theorem exec_run_ready {s : State} (h : s.life = .ready) (n : Word) : exec (.run n) s = .next (s.startRun n) := if_pos h

/-- `run` counts from its operand, or from a pending event that comes before it (R182). -/
theorem startCount_eq {s : State} {n c : Word}
    (h : (s.nePending = false ∧ c = n) ∨ (s.nePending = true ∧ n.toInt ≤ s.nextEvent.toInt ∧ c = n) ∨
      (s.nePending = true ∧ s.nextEvent.toInt < n.toInt ∧ c = s.nextEvent)) : s.startCount n = c := by
  rcases h with ⟨hnone, rfl⟩ | ⟨hpend, hle, rfl⟩ | ⟨hpend, hlt, rfl⟩
  · simp [State.startCount, hnone]
  · simp [State.startCount, minSigned, hpend, hle]
  · simp [State.startCount, minSigned, hpend, not_le.2 hlt]

/-- In Yield, with no callback outstanding and the counter spent, a step ends `run` (R184, R195). -/
theorem step_of_yield_spent {s : State} (h : s.life = .running) (hc : s.inCallback = false) (hd : s.dstate = .yield)
    (hcnt : s.cnt.toInt ≤ 0) : step s = .next s.endRun := by
  simp [step, move, runMove, yieldMove, h, hc, hd, hcnt]

/-! ## Refused commands -/

/-- What a refused command leaves is what R166 says. -/
theorem refuse_eq_refusedState (s : State) (r : Response) : s.refuse r = refusedState s r := by
  simp only [State.refuse, refusedState, openToCommands_iff]

/-- A refused `run` answers 0 (R165, R166). -/
theorem exec_run_refused {s : State} (h : s.life ≠ .ready) (n : Word) :
    exec (.run n) s = .next (refusedState s (.value 0#32)) := by
  rw [← refuse_eq_refusedState]
  exact if_neg h

/-- What a query of a page needs: a block open to commands and a page of the table (R155, R156). -/
theorem pageQuery_eq_false {s : State} {page : Word}
    (h : s.openToCommands = false ∨ s.params.totalPages ≤ page.toNat) :
    (s.openToCommands && pageInRange s.params page) = false := by
  rcases h with h | h
  · simp [h]
  · simp [pageInRange, h]

/-- `is_valid` in a block that is not open, or of a page past the table, is refused (R155, R165, R166). -/
theorem exec_isValid_refused {s : State} {page : Word}
    (h : s.openToCommands = false ∨ s.params.totalPages ≤ page.toNat) :
    exec (.isValid page) s = .next (refusedState s .refused) := by
  rw [← refuse_eq_refusedState]
  exact if_neg (ne_true_of_eq_false (pageQuery_eq_false h))

/-- `invalidate` in a block that is not open, or of a page past the table, is refused (R156, R165, R166). -/
theorem exec_invalidate_refused {s : State} {page : Word}
    (h : s.openToCommands = false ∨ s.params.totalPages ≤ page.toNat) :
    exec (.invalidate page) s = .next (refusedState s .refused) := by
  rw [← refuse_eq_refusedState]
  exact if_neg (ne_true_of_eq_false (pageQuery_eq_false h))

/-- `get_state` that is not accepted is refused (R162, R166). -/
theorem exec_getState_refused {s : State} {sel : Selector} (h : s.acceptsGet sel = false) :
    exec (.getState sel) s = .next (refusedState s .refused) := by
  rw [← refuse_eq_refusedState]
  exact if_neg (ne_true_of_eq_false h)

/-- `get_state` is not accepted where the table of R165 does not take it, and for no reserved selector (R127, R162,
log 14). -/
theorem acceptsGet_eq_false {s : State} {sel : Selector}
    (h : tableAccepts s (.getState sel) = false ∨ 42 ≤ sel.toNat) : s.acceptsGet sel = false := by
  rcases h with h | h
  · have hsel : sel.toNat = 41 ↔ sel = 41#6 := BitVec.toNat_inj (y := 41#6)
    simp only [tableAccepts, Bool.or_eq_false_iff] at h
    obtain ⟨hclosed, hlife⟩ := h
    simp [State.acceptsGet, State.openToCommands, hclosed, hsel, hlife]
  · simp [State.acceptsGet, selectorReadable, show ¬ sel.toNat ≤ 41 by omega, show sel.toNat ≠ 41 by omega]

/-- `set_reg` in a block that is not Ready, or of a selector it does not take, is refused (R163, R165, R166). -/
theorem exec_setReg_refused {s : State} {sel : Selector} (h : s.life ≠ .ready ∨ 34 ≤ sel.toNat) (v : Word) :
    exec (.setReg sel v) s = .next (refusedState s .refused) := by
  rw [← refuse_eq_refusedState]
  refine if_neg ?_
  rcases h with h | h
  · simp [h]
  · simp [selectorWritable, show ¬ sel.toNat ≤ 33 by omega]

/-- `ext_write` in a block that is not open, misaligned, or to an address it does not write is refused, whatever its
size (R157, R165, R166, log 13). -/
theorem exec_extWrite_refused {s : State} {a n : Word}
    (h : s.openToCommands = false ∨ a.toNat % n.toNat ≠ 0 ∨ resolve s.params a = .unmapped ∨
      ∃ off page, resolve s.params a = .rom off page) (v : Word) :
    exec (.extWrite a n v) s = .next (refusedState s .refused) := by
  rw [← refuse_eq_refusedState]
  rcases h with h | h | h | ⟨off, page, h⟩
  · exact if_neg (by simp [h])
  · exact if_neg (by simp [sizeAligned, h])
  · simp [exec, execExtWrite, h]
  · simp [exec, execExtWrite, h]

/-- A packet with one of the codes 0xB to 0xF is no command (R125). -/
theorem decodeCommand_reserved {p : Packet} (h : 0xB ≤ p.code.toNat) : decodeCommand p = .reservedCommand := by
  unfold decodeCommand
  split
  case h_12 => rfl
  all_goals omega

/-- A packet with a reserved code is refused (R125, R166). -/
theorem takeCommand_reserved {p : Packet} (h : 0xB ≤ p.code.toNat) (s : State) :
    takeCommand p s = .next (refusedState s .refused) := by
  simp [takeCommand, decodeCommand_reserved h, refuse_eq_refusedState]

/-- Settles O46: a command by the table or by its operand, a packet by its code at either port. -/
theorem refusedCommands : Obligations.RefusedCommands := by
  intro s
  refine ⟨fun i hi h => ?table,
    fun page h => ⟨exec_isValid_refused (.inr h), exec_invalidate_refused (.inr h)⟩,
    fun sel h => exec_getState_refused (acceptsGet_eq_false (.inr h)), fun sel v h => exec_setReg_refused (.inr h) v,
    fun a n v h => exec_extWrite_refused (.inr (.inl h)) v, fun a n v h => exec_extWrite_refused (.inr (.inr h)) v,
    fun p rest hcode hlife hport => ?host, fun p rest hcode hlife hcall howner => ?owner⟩
  case table =>
    cases i with
    | init | delete | setPc | setNextEvent =>
      rw [← refuse_eq_refusedState]
      exact if_neg (of_decide_eq_false h)
    | run n => exact exec_run_refused (of_decide_eq_false h) n
    | resolve a =>
      rw [← refuse_eq_refusedState]
      exact if_neg (ne_true_of_eq_false h)
    | isValid page => exact exec_isValid_refused (.inl h)
    | invalidate page => exact exec_invalidate_refused (.inl h)
    | extWrite a n v => exact exec_extWrite_refused (.inl h) v
    | getState sel => exact exec_getState_refused (acceptsGet_eq_false (.inl h))
    | setReg sel v => exact exec_setReg_refused (.inl (of_decide_eq_false h)) v
    | _ => cases hi
  case host => rw [step_of_not_running hlife, hostMove_cons hport, takeCommand_reserved hcode]
  case owner => rw [step_of_callback hlife hcall, ownerMove_command howner, takeCommand_reserved hcode]

/-- Settles O43: the start of `run` by its count, its end in Yield at a spent one, and its refusal. -/
theorem runCommand : Obligations.RunCommand := by
  intro s n c
  refine ⟨fun hready hcount => ⟨?start, fun hspent hcall => ?spent⟩, fun hlife => exec_run_refused hlife n⟩
  case start => rw [exec_run_ready hready, State.startRun, startCount_eq hcount]
  case spent => exact step_of_yield_spent rfl hcall rfl hspent

/-! ## The end of a callback -/

/-- A reply queued for the owner is adopted (R160). -/
theorem ownerMove_reply {s : State} {c : Word} {rest : List OwnerMove} (h : s.owner = .reply c :: rest) :
    ownerMove s = .next { s.adoptReply c with owner := rest } := by
  simp [ownerMove, h]

/-- With no move queued the owner replies a free value (R160, log 10). -/
theorem ownerMove_nil {s : State} (h : s.owner = []) :
    ownerMove s = .next { s.adoptReply (Config.callbackReply s.draws) with draws := s.draws + 1 } := by
  simp [ownerMove, h]

/-- Settles O49: a step inside a callback is its owner's move, a reply queued or a free one. -/
theorem callbackReply : Obligations.CallbackReply := by
  intro s hrun hcall
  refine ⟨fun c rest howner => ?queued, fun howner => ?free⟩
  case queued => exact (step_of_callback hrun hcall).trans (ownerMove_reply howner)
  case free => exact ⟨_, (step_of_callback hrun hcall).trans (ownerMove_nil howner), rfl⟩

/-! ## Every instruction and every step has a next state -/

/-- A command is encoded as a packet (R125). -/
theorem encode_command {i : Instr} (h : i.isCommand = true) : ∃ p, encode i = .packet p := by
  cases i with
  | init | delete | setPc | setNextEvent | run | resolve | isValid | invalidate | extWrite | getState | setReg =>
    exact ⟨_, rfl⟩
  | _ => cases h

/-- Every command has a next state, accepted or refused: it runs as its own packet does (R125, R166). -/
theorem exec_command_next {i : Instr} (h : i.isCommand = true) (s : State) : ∃ t, exec i s = .next t := by
  obtain ⟨p, hp⟩ := encode_command h
  have hdecode : decodeCommand p = .instr i := by
    have hround := decodeOfEncode i
    rwa [hp] at hround
  obtain ⟨t, ht, -⟩ := takeCommand_cases s p
  exact ⟨t, by rw [← takeCommand_of_decode hdecode, ht]⟩

/-- Settles O56: a command is answered or refused, a guest instruction completes, waits or stops on a fault. -/
theorem stepAlwaysAnswers : Obligations.StepAlwaysAnswers := by
  refine ⟨fun i s => ?instr, fun s => ?step⟩
  case instr =>
    cases hi : i.isCommand with
    | true => exact exec_command_next hi s
    | false =>
      obtain ⟨t, ht, -⟩ := exec_guest_cases s hi
      exact ⟨t, ht⟩
  case step =>
    obtain ⟨t, ht, -⟩ := step_cases s
    exact ⟨t, ht⟩

end Sys2Proof.Machine
end

section
/-! The control-flow unit (R191, R192, R310 to R323): where its slot's word comes from, that it runs the slot's body as
Execute would, and the twelve branches and jumps with a `NOP` in the slot. -/
namespace Sys2Proof.Machine

/-- A fault stop at `PC` is what the statements call one (R372). -/
theorem stoppedAt_faultStop (s : State) (c : FaultCode) (instr addr : Option Word) (bd : Bool) :
    stoppedAt s (s.faultStop c s.pc instr addr bd) c instr addr bd := by
  refine ⟨rfl, ?_, ?_, fun _ => rfl⟩
  · rintro w rfl
    rfl
  · rintro a rfl
    rfl

/-! ## The slot's word -/

/-- Inside its page a branch finds its slot in the block (R191). -/
theorem slotWord_of_inside {s : State} (h : slotIndex s.params s.pc ≠ s.params.pageInstrs - 1) :
    slotWord s = some (s.blkWord s.curPage (slotIndex s.params s.pc + 1)) := if_neg h

/-- An address executes from a page where it is in RAM or ROM (R66). -/
theorem pageOf_eq_some {c : Params} {a : Word} {p : Nat} :
    pageOf c a = some p ↔ (∃ off, resolve c a = .ram off p) ∨ ∃ off, resolve c a = .rom off p := by
  unfold pageOf
  cases resolve c a <;> simp

/-- An address executes from no page where it is in the scratchpad or unmapped (R66). -/
theorem pageOf_eq_none {c : Params} {a : Word} :
    pageOf c a = none ↔ (∃ off, resolve c a = .scratch off) ∨ resolve c a = .unmapped := by
  unfold pageOf
  cases resolve c a <;> simp

/-- In the last slot of its page a branch reads its slot from memory, where `b + 4` is in RAM or ROM (R192). -/
theorem slotWord_of_last_mapped {s : State} {p : Nat} (h : slotIndex s.params s.pc = s.params.pageInstrs - 1)
    (hp : pageOf s.params (s.pc + 4#32) = some p) : slotWord s = some (memRead s (s.pc + 4#32) .word).1 := by
  unfold slotWord memRead
  rw [if_pos h]
  rcases pageOf_eq_some.1 hp with ⟨off, hr⟩ | ⟨off, hr⟩
  · simp [hr, readSized]
  · simp [hr, readSized]

/-- In the last slot of its page a branch has no slot's word where `b + 4` is not in RAM or ROM (R192). -/
theorem slotWord_of_last_unmapped {s : State} (h : slotIndex s.params s.pc = s.params.pageInstrs - 1)
    (hp : pageOf s.params (s.pc + 4#32) = none) : slotWord s = none := by
  unfold slotWord
  rw [if_pos h]
  rcases pageOf_eq_none.1 hp with ⟨off, hr⟩ | hr
  · simp [hr]
  · simp [hr]

/-- A control-flow unit without a slot's word stops with `FetchUnmapped` (R192, R310 step 1). -/
theorem exec_control_of_no_slot {i : Instr} {s : State} (h : i.isControlFlow = true) (hslot : slotWord s = none) :
    exec i s = .next (s.faultStop .fetchUnmapped s.pc (some (instrWord i)) (some (s.pc + 4#32)) true) := by
  rcases exec_control_cases s h with ⟨-, he⟩ | ⟨d, hd, -⟩ | ⟨d, hd, -⟩
  · exact he
  · simp [hslot] at hd
  · simp [hslot] at hd

/-- Settles O34: the block's word, the word of memory that `MemRead` finds at `b + 4`, or the fault stop. -/
theorem slotFetch : Obligations.SlotFetch := by
  intro i s hl hi h4
  refine ⟨slotWord_of_inside, fun hlast p b0 b1 b2 b3 hp h0 h1 h2 h3 => ?memory, fun hlast hp => ?unmapped⟩
  case memory =>
    have hnext : (s.pc + 4#32).toNat % 4 = 0 := by bv_omega
    rw [slotWord_of_last_mapped hlast hp, memRead_word hl hnext h0 h1 h2 h3, wordOfBytes_eq]
  case unmapped =>
    exact ⟨_, exec_control_of_no_slot hi (slotWord_of_last_unmapped hlast hp), stoppedAt_faultStop s _ _ _ _⟩

/-! ## The slot's body -/

/-- The word of a decoded instruction is the word it was decoded from (R116, log 21). -/
theorem instrWord_of_decode {d : Word} {j : Instr} (h : decodeGuest d = .instr j) : instrWord j = d :=
  congrArg Encoded.bits (encodeOfDecode d j h)

/-- A slot's word is of the class of its instruction (R118). -/
theorem isControlWord_of_decode {d : Word} {j : Instr} (h : decodeGuest d = .instr j) :
    isControlWord d = j.isControlFlow := by
  simp [isControlWord, h]

/-- A slot's word runs as the body of its instruction (R311). -/
theorem slotWordBody_of_decode {d : Word} {j : Instr} (h : decodeGuest d = .instr j) (s : State) :
    slotWordBody d s = slotBody j s := by
  simp [slotWordBody, h]

/-- A control-flow unit whose slot holds no branch or jump comes to what its slot comes to, from the charged and
linked state (R310). -/
theorem exec_control_of_slot {i : Instr} {s : State} {d : Word} (h : i.isControlFlow = true)
    (hslot : slotWord s = some d) (hd : isControlWord d = false) :
    exec i s = finishUnit d (slotEntry i s) (unitTarget s i) (slotWordBody d (slotEntry i s)) := by
  rcases exec_control_cases s h with ⟨hd', -⟩ | ⟨d', hd', hc, -⟩ | ⟨d', hd', -, he⟩
  · simp [hslot] at hd'
  · cases hslot.symm.trans hd'
    simp [hd] at hc
  · cases hslot.symm.trans hd'
    exact he

/-- Settles O32: Execute and the slot complete one body, and the unit's outcome is `unitTarget` of the state before
it. -/
theorem unitRunsSlot : Obligations.UnitRunsSlot := by
  intro i j s d hi hslot hdec hj
  have hunit := exec_control_of_slot hi hslot ((isControlWord_of_decode hdec).trans hj)
  refine ⟨fun v => ?plain, fun u hu => ?done, fun u hu => ?call⟩
  case plain =>
    rw [exec_plain v hj (decodeGuest_not_command hdec), slotWordBody_of_decode hdec, instrWord_of_decode hdec]
  case done =>
    rw [hunit, hu]
    rfl
  case call =>
    rw [hunit, hu]
    rfl

/-! ## A `NOP` in the slot -/

/-- The word 0 is `SLL x0, x0, 0`, which decodes and is not control flow: it only charges (R21, R240). -/
theorem slotWordBody_nop (s : State) : slotWordBody 0#32 s = .done (s.charge 0#32) := by
  have hdec : decodeGuest 0#32 = .instr (.sll 0#5 0#5 0#5) := by decide
  have hbody : slotBody (.sll 0#5 0#5 0#5) s = .done ((s.charge (instrWord (.sll 0#5 0#5 0#5))).setReg 0#5 _) := rfl
  rw [slotWordBody_of_decode hdec, hbody, setReg_zero, instrWord_of_decode hdec]

section Nop
variable {i : Instr} {s : State} {next : Word}

/-- A control-flow unit with a `NOP` in its slot completes, with the registers its link leaves (R310). -/
theorem exec_control_nop (h : i.isControlFlow = true) (hslot : slotWord s = some 0#32) (hnext : unitTarget s i = next) :
    ∃ t, exec i s = .next t ∧ (∀ q, t.reg q = (slotEntry i s).reg q) ∧ unitWithNop s t (instrWord i) next := by
  have hexec : exec i s = .next { (slotEntry i s).charge 0#32 with pc := next, dstate := .yield } := by
    rw [exec_control_of_slot h hslot (by decide), slotWordBody_nop, hnext]
    rfl
  obtain ⟨regs, hentry⟩ := slotEntry_eq i s
  refine ⟨_, hexec, fun q => rfl, ?_⟩
  rw [hentry]
  exact ⟨rfl, fun _ => rfl⟩

/-- Such a unit that links no register leaves them all. -/
theorem exec_control_nop_unlinked (h : i.isControlFlow = true) (hslot : slotWord s = some 0#32)
    (hlink : linkRegister i = none) (hnext : unitTarget s i = next) :
    ∃ t, exec i s = .next t ∧ (∀ q, t.reg q = s.reg q) ∧ unitWithNop s t (instrWord i) next := by
  obtain ⟨t, ht, hreg, hunit⟩ := exec_control_nop h hslot hnext
  have hentry : slotEntry i s = s.charge (instrWord i) := by rw [slotEntry, hlink]; rfl
  exact ⟨t, ht, fun q => by rw [hreg, hentry]; rfl, hunit⟩

/-- Such a unit that links a register writes `b + 8` to it (R310 step 5). -/
theorem exec_control_nop_linked (h : i.isControlFlow = true) (hslot : slotWord s = some 0#32) {r : RegIdx}
    (hlink : linkRegister i = some r) (hnext : unitTarget s i = next) :
    ∃ t, exec i s = .next t ∧ wroteReg s t r (s.pc + 8#32) ∧ unitWithNop s t (instrWord i) next := by
  obtain ⟨t, ht, hreg, hunit⟩ := exec_control_nop h hslot hnext
  have hentry : slotEntry i s = (s.charge (instrWord i)).setReg r (s.pc + 8#32) := by rw [slotEntry, hlink]; rfl
  exact ⟨t, ht, fun q => by rw [hreg, hentry]; exact reg_setReg _ r q _, hunit⟩

end Nop

/-- Settles O30: each jump by its target and its link. -/
theorem jumpsWithNop : Obligations.JumpsWithNop := by
  intro s target rd rs hslot
  exact ⟨exec_control_nop_unlinked rfl hslot rfl rfl, exec_control_nop_linked rfl hslot rfl rfl,
    exec_control_nop_unlinked rfl hslot rfl rfl, exec_control_nop_linked rfl hslot rfl rfl⟩

/-- Settles O31: each branch by its target and its link; `BNE` alone states its condition the other way round. -/
theorem branchesWithNop : Obligations.BranchesWithNop := by
  intro s rs rt imm hslot
  have unlinked {i : Instr} (hi : i.isControlFlow = true) (hlink : linkRegister i = none) :=
    exec_control_nop_unlinked (next := unitTarget s i) hi hslot hlink rfl
  have linked {i : Instr} (hi : i.isControlFlow = true) (hlink : linkRegister i = some 31#5) :=
    exec_control_nop_linked (next := unitTarget s i) hi hslot hlink rfl
  exact ⟨unlinked rfl rfl, exec_control_nop_unlinked rfl hslot rfl (ite_not _ _ _), unlinked rfl rfl, unlinked rfl rfl,
    unlinked rfl rfl, unlinked rfl rfl, linked rfl rfl, linked rfl rfl⟩

end Sys2Proof.Machine
end

section
/-! The dispatcher (R184, R185, R380, R381), and what `run` answers when it ends (R195, R197). -/
namespace Sys2Proof.Machine

/-! ## Yield -/

/-- In Yield, with no callback outstanding and cycles left, a step goes to Dispatch (R184). -/
theorem step_of_yield_left {s : State} (h : s.life = .running) (hc : s.inCallback = false) (hd : s.dstate = .yield)
    (hcnt : 0 < s.cnt.toInt) : step s = .next { s with dstate := .dispatch } := by
  simp [step, move, runMove, yieldMove, h, hc, hd, not_le.2 hcnt]

/-- Settles O47: the two arms of Yield. -/
theorem yieldMoves : Obligations.YieldMoves :=
  fun _ hrun hcall hyield => ⟨step_of_yield_spent hrun hcall hyield, step_of_yield_left hrun hcall hyield⟩

/-! ## Dispatch -/

/-- In Dispatch, with no callback outstanding, a step is Dispatch's (R185). -/
theorem step_of_dispatch {s : State} (h : s.life = .running) (hc : s.inCallback = false) (hd : s.dstate = .dispatch) :
    step s = .next (dispatchMove s) := by
  simp [step, move, runMove, h, hc, hd]

/-- Dispatch at a misaligned `PC` (R380). -/
theorem dispatchMove_misaligned {s : State} (h : s.pc.toNat % 4 ≠ 0) :
    dispatchMove s = s.dispatchFault .pcMisaligned := if_pos ((lowBits_ne s.pc).2 h)

/-- Dispatch at an aligned `PC` outside RAM and ROM (R381). -/
theorem dispatchMove_unmapped {s : State} (h : s.pc.toNat % 4 = 0) (hp : pageOf s.params s.pc = none) :
    dispatchMove s = s.dispatchFault .fetchUnmapped := by
  unfold dispatchMove
  rw [if_neg ((lowBits_ne s.pc).not_left.2 h)]
  rcases pageOf_eq_none.1 hp with ⟨off, hr⟩ | hr
  · simp [hr]
  · simp [hr]

/-- Dispatch at an aligned `PC` in RAM or ROM enters its page (R185). -/
theorem dispatchMove_enter {s : State} {p : Nat} (h : s.pc.toNat % 4 = 0) (hp : pageOf s.params s.pc = some p) :
    dispatchMove s = s.enterPage p := by
  unfold dispatchMove
  rw [if_neg ((lowBits_ne s.pc).not_left.2 h)]
  rcases pageOf_eq_some.1 hp with ⟨off, hr⟩ | ⟨off, hr⟩
  · simp [hr]
  · simp [hr]

/-- Entry into a valid page moves the dispatcher only (R185). -/
theorem enterPage_of_valid {s : State} {p : Nat} (h : s.pageValid p = true) :
    s.enterPage p = { s with curPage := p, dstate := .execute } := by
  simp [State.enterPage, h]

/-- Entry into any page writes the block store, the validity table and the dispatcher's place only (R158, R185). -/
theorem enterPage_frame (s : State) (p : Nat) :
    s.enterPage p =
      { s with blk := (s.enterPage p).blk, valid := (s.enterPage p).valid, curPage := p, dstate := .execute } := by
  rcases enterPage_cases s p with h | h
  · rw [h]
  · rw [h]
    rfl

/-- Settles O48: the arm of Dispatch by `PC`, and the entry into a page by its validity bit. -/
theorem dispatchMoves : Obligations.DispatchMoves := by
  intro s hrun hcall hdisp
  rw [step_of_dispatch hrun hcall hdisp]
  refine ⟨fun h => ?misaligned, fun h hp => ?unmapped, fun p h hp hvalid => ?valid, fun p h hp hvalid => ?invalid⟩
  case misaligned => exact ⟨_, congrArg Host.Outcome.next (dispatchMove_misaligned h), stoppedAt_faultStop s _ _ _ _⟩
  case unmapped => exact ⟨_, congrArg Host.Outcome.next (dispatchMove_unmapped h hp), stoppedAt_faultStop s _ _ _ _⟩
  case valid => rw [dispatchMove_enter h hp, enterPage_of_valid hvalid]
  case invalid =>
    refine ⟨_, congrArg Host.Outcome.next (dispatchMove_enter h hp), enterPage_frame s p, fun k hk => ?_,
      fun q hq k hk => ?_, pageValid_enterPage s p⟩
    · rw [blkWord_enterPage s p p hk, if_pos ⟨rfl, hvalid⟩]
    · rw [blkWord_enterPage s p q hk, if_neg (fun hsame => hq hsame.1)]

/-! ## What `run` answers -/

/-- In `t` a run of `s` has answered `(C0 - CNT) - BUDGET`, with `CNT` as `t` has it (R195). -/
structure RunAnswered (s t : State) : Prop where
  response : t.response = some (.value (t.c0 - t.cnt - t.budget))
  c0 : t.c0 = s.c0
  budget : t.budget = s.budget

/-- A guest instruction stays inside `run`, or stops on a fault and answers (R197, R372). -/
theorem life_or_answer_of_execute {s t : State} (h : ExecuteEffect s t) : t.life = s.life ∨ RunAnswered s t := by
  cases h with
  | done u hf hm hc => exact .inl hf.life
  | call u hf hm hc => exact .inl hf.life
  | unitDone u next hf hm hc => exact .inl hf.life
  | unitCall u next hf hm hc => exact .inl hf.life
  | stop regs cnt c instr addr bd => exact .inr ⟨rfl, rfl, rfl⟩

/-- A step from Running stays inside `run`, or ends it with its answer, no callback being outstanding (R195, R197). -/
theorem running_or_answer_of_step {s t : State} (h : StepEffect s t) (hrun : s.life = .running) :
    t.life = .running ∨ (RunAnswered s t ∧ s.inCallback = false) := by
  cases h with
  | idle h => exact absurd hrun h
  | host h p rest hp t ht => exact absurd hrun h
  | ownerFree h hi c d => exact .inl hrun
  | ownerReply h hi c rest => exact .inl hrun
  | ownerCommand h hi p rest t ht =>
    rcases life_of_command ht with hsame | hmove
    · exact .inl (hsame.trans hrun)
    · rw [hrun] at hmove
      exact absurd hmove not_lifeCommand_running
  | yieldEnd h hi hd => exact .inr ⟨⟨rfl, rfl, rfl⟩, hi⟩
  | yieldOn h hi hd => exact .inl hrun
  | dispatchStop h hi hd c => exact .inr ⟨⟨rfl, rfl, rfl⟩, hi⟩
  | enter h hi hd p ha hp =>
    rw [enterPage_frame]
    exact .inl hrun
  | execute h hi hd t ht => exact (life_or_answer_of_execute ht).imp (·.trans hrun) fun hans => ⟨hans, hi⟩

/-- Settles O60, by the inversion of a step: one that leaves Running has answered. -/
theorem runAnswer : Obligations.RunAnswer := by
  intro s t hstep hrun hready
  rcases running_or_answer_of_step (stepEffect_of_stepsTo hstep) hrun with hstay | ⟨⟨hresponse, hc0, hbudget⟩, hcall⟩
  · simp [hready] at hstay
  · exact ⟨hresponse, hc0, hbudget, hcall⟩

end Sys2Proof.Machine
end

section
/-! The arithmetic, logical, comparison and shift instructions in Execute (R220 to R245): what the model's operands,
conditions and shift amounts are in the statements' terms, and how a body that writes one register completes. -/
namespace Sys2Proof.Machine

/-! ## Conditions (R221, R246) -/

/-- A signed comparison's result, on the signed values (R224, R238, R246). -/
theorem boolWord_lessSigned (a b : Word) : boolWord (lessSigned a b) = if a.toInt < b.toInt then 1#32 else 0#32 := by
  simp [boolWord, lessSigned]

/-- An unsigned comparison's result, on the unsigned values (R225, R239, R246). -/
theorem boolWord_lessUnsigned (a b : Word) :
    boolWord (lessUnsigned a b) = if a.toNat < b.toNat then 1#32 else 0#32 := by
  simp [boolWord, lessUnsigned]

/-- The rule's condition on the sign bits of an addition is that its signed result leaves the range (R221). -/
theorem overflowAdd_eq_saddOverflow (a b : Word) : overflowAdd a b = a.saddOverflow b :=
  (BitVec.saddOverflow_eq a b).symm

/-- The rule's condition on the sign bits of a subtraction is that its signed result leaves the range (R221). -/
theorem overflowSub_eq_ssubOverflow (a b : Word) : overflowSub a b = a.ssubOverflow b := by
  rw [BitVec.ssubOverflow_eq, overflowSub]
  cases a.msb <;> cases b.msb <;> simp

/-- An addition overflows exactly when no word is the true signed sum (R221). -/
theorem overflowAdd_eq_false_iff {a b : Word} : overflowAdd a b = false ↔ ∃ v : Word, v.toInt = a.toInt + b.toInt := by
  rw [overflowAdd_eq_saddOverflow]
  constructor
  · exact fun h => ⟨a + b, BitVec.toInt_add_of_not_saddOverflow (by simp [h])⟩
  · rintro ⟨v, hv⟩
    have hi := v.toInt_lt
    have lo := v.le_toInt
    simp only [BitVec.saddOverflow, Bool.or_eq_false_iff, decide_eq_false_iff_not]
    omega

/-- A subtraction overflows exactly when no word is the true signed difference (R221). -/
theorem overflowSub_eq_false_iff {a b : Word} : overflowSub a b = false ↔ ∃ v : Word, v.toInt = a.toInt - b.toInt := by
  rw [overflowSub_eq_ssubOverflow]
  constructor
  · exact fun h => ⟨a - b, BitVec.toInt_sub_of_not_ssubOverflow (by simp [h])⟩
  · rintro ⟨v, hv⟩
    have hi := v.toInt_lt
    have lo := v.le_toInt
    simp only [BitVec.ssubOverflow, Bool.or_eq_false_iff, decide_eq_false_iff_not]
    omega

/-- The word of the true signed sum is the sum modulo 2^32. -/
theorem add_eq_of_toInt {a b v : Word} (h : v.toInt = a.toInt + b.toInt) : a + b = v := by
  rw [← BitVec.ofInt_toInt (x := v), h, BitVec.ofInt_add, BitVec.ofInt_toInt, BitVec.ofInt_toInt]

/-- The word of the true signed difference is the difference modulo 2^32. -/
theorem sub_eq_of_toInt {a b v : Word} (h : v.toInt = a.toInt - b.toInt) : a - b = v :=
  BitVec.sub_eq_iff_eq_add.2 (add_eq_of_toInt (by omega)).symm

/-! ## Operands (R112) -/

/-- Sign extension keeps the immediate's signed value (R112 a). -/
@[simp] theorem toInt_signExtImm (imm : Imm16) : (signExtImm imm).toInt = imm.toInt :=
  BitVec.toInt_signExtend_of_le (by decide)

/-- The immediate of `LUI` stands above 16 zero bits (R112 c, R229). -/
theorem upperImm_eq_append (imm : Imm16) : upperImm imm = (imm ++ 0#16 : BitVec 32) := by
  simpa [upperImm] using
    (BitVec.setWidth_append_eq_shiftLeft_setWidth_or (w'' := 32) (b := imm) (b' := 0#16)).symm

/-- The amount of a variable shift is the register modulo 32 (R112 g, R243). -/
@[simp] theorem toNat_shiftAmount (v : Word) : (shiftAmount v).toNat = v.toNat % 32 := by
  simp [shiftAmount, BitVec.extractLsb'_toNat]

/-! ## Bodies that write one register (R187, R189, R220) -/

/-- A body that charges and writes one register completes with that write and nothing else (R187, R189, R220). -/
theorem finish_writeBody {x v : Word} (hv : x = v) (w : Word) (s : State) (r : RegIdx) :
    ∃ t, finish w s (writeBody w s r x) = .next t ∧ retiredWrite s t w r v :=
  ⟨_, rfl, hv ▸ retiredWrite_of_setReg w s r x⟩

/-- A trapping body without overflow completes as the plain write (R221). -/
theorem finish_trapBody_fits {overflow : Bool} {x v : Word} (hov : overflow = false) (hv : x = v) (w : Word) (s : State)
    (r : RegIdx) : ∃ t, finish w s (trapBody w s overflow r x) = .next t ∧ retiredWrite s t w r v := by
  rw [trapBody, hov]
  exact finish_writeBody hv w s r

/-! ## The instructions -/

/-- Settles O12: a result some word holds does not overflow, and that word is the sum or difference modulo 2^32. -/
theorem trappingResults : Obligations.TrappingResults := by
  intro s rd rs rt imm v
  refine ⟨fun h => ?addi, fun h => ?add, fun h => ?sub⟩
  case addi =>
    rw [← toInt_signExtImm] at h
    exact finish_trapBody_fits (overflowAdd_eq_false_iff.2 ⟨v, h⟩) (add_eq_of_toInt h) _ s rt
  case add => exact finish_trapBody_fits (overflowAdd_eq_false_iff.2 ⟨v, h⟩) (add_eq_of_toInt h) _ s rd
  case sub => exact finish_trapBody_fits (overflowSub_eq_false_iff.2 ⟨v, h⟩) (sub_eq_of_toInt h) _ s rd

/-- Settles O9: each of the seven writes one register in Execute, a value that is the rule's. -/
theorem immediateResults : Obligations.ImmediateResults := by
  intro s rt rs imm
  refine ⟨finish_writeBody rfl _ s rt, ?slti, finish_writeBody (boolWord_lessUnsigned _ _) _ s rt,
    finish_writeBody rfl _ s rt, finish_writeBody rfl _ s rt, finish_writeBody rfl _ s rt,
    finish_writeBody (upperImm_eq_append imm) _ s rt⟩
  case slti =>
    rw [← toInt_signExtImm]
    exact finish_writeBody (boolWord_lessSigned _ _) _ s rt

/-- Settles O10: each of the eight writes one register in Execute, a value that is the rule's. -/
theorem registerResults : Obligations.RegisterResults := by
  intro s rd rs rt
  have write {w x : Word} := finish_writeBody (x := x) rfl w s rd
  exact ⟨write, write, write, write, write, write, finish_writeBody (boolWord_lessSigned _ _) _ s rd,
    finish_writeBody (boolWord_lessUnsigned _ _) _ s rd⟩

/-- Settles O11: each shift writes one register in Execute; the amount a register gives is its value modulo 32. -/
theorem shiftResults : Obligations.ShiftResults := by
  intro s rd rt rs sh
  have write {w x : Word} := finish_writeBody (x := x) rfl w s rd
  rw [← toNat_shiftAmount]
  exact ⟨write, write, write, write, write, write⟩

end Sys2Proof.Machine
end

section
/-! The multiply and divide instructions and the moves to and from `HI` and `LO` in Execute (R260 to R269): the values
the model's products, quotients and remainders have as numbers, and how a body that writes `HI` and `LO` completes. -/
namespace Sys2Proof.Machine

/-! ## Products (R261, R262) -/

/-- The two halves of a product are its 64-bit two's complement form (R261). -/
theorem highWord_append_lowWord (p : Int) : (highWord p ++ lowWord p : BitVec 64) = BitVec.ofInt 64 p :=
  BitVec.extractLsb'_append_extractLsb'

/-- The product of two signed words fits in 64 bits, read signed (R261). -/
theorem toInt_signedProduct (a b : Word) : (BitVec.ofInt 64 (a.toInt * b.toInt)).toInt = a.toInt * b.toInt := by
  have lo : -2 ^ 62 ≤ a.toInt * b.toInt := BitVec.le_toInt_mul_toInt
  have hi : a.toInt * b.toInt ≤ 2 ^ 62 := BitVec.toInt_mul_toInt_le
  exact BitVec.toInt_ofInt_eq_self (by decide) (by omega) (by omega)

/-- The product of two unsigned words fits in 64 bits, read unsigned (R262). -/
theorem toNat_unsignedProduct (a b : Word) : (BitVec.ofInt 64 (a.toNat * b.toNat)).toNat = a.toNat * b.toNat := by
  have hlt : a.toNat * b.toNat < 2 ^ 64 := (Nat.mul_lt_mul'' a.isLt b.isLt).trans_eq (by decide)
  rw [← Int.natCast_mul, BitVec.ofInt_natCast, BitVec.toNat_ofNat, Nat.mod_eq_of_lt hlt]

/-! ## Quotients and remainders (R263, R264) -/

/-- The operands R269 leaves open for `DIV`. -/
theorem divOpen_iff (n d : Word) : divOpen n d = true ↔ d = 0#32 ∨ n = 0x80000000#32 ∧ d = 0xFFFFFFFF#32 := by
  simp [divOpen]

/-- Of the quotients of two words, only that of 0x80000000 and -1 leaves the signed range (R263, R269). -/
theorem toInt_quotSigned {n d : Word} (h : ¬(n = 0x80000000#32 ∧ d = 0xFFFFFFFF#32)) :
    (quotSigned n d).toInt = n.toInt.tdiv d.toInt := by
  rw [quotSigned, ← BitVec.toInt_sdiv_of_ne_or_ne n d (not_and_or.1 h), BitVec.ofInt_toInt]

/-- The remainder `n - q * d` of the quotient rounded toward zero (R263). -/
theorem toInt_remSigned (n d : Word) : (remSigned n d).toInt = n.toInt.tmod d.toInt := by
  rw [remSigned, mul_comm, ← Int.tmod_def, ← BitVec.toInt_srem, BitVec.ofInt_toInt]

/-- The remainder of a division rounded toward zero is zero or of the dividend's sign. -/
theorem tmod_mul_self_nonneg (n d : Int) : 0 ≤ n.tmod d * n := by
  rcases le_total 0 n with h | h
  · exact mul_nonneg (Int.tmod_nonneg d h) h
  · have hneg : 0 ≤ (-n).tmod d := Int.tmod_nonneg d (neg_nonneg.2 h)
    rw [Int.neg_tmod] at hneg
    exact mul_nonneg_of_nonpos_of_nonpos (neg_nonneg.1 hneg) h

/-- The quotient of two unsigned words fits in a word (R264). -/
theorem toNat_quotUnsigned (n d : Word) : (quotUnsigned n d).toNat = n.toNat / d.toNat :=
  (BitVec.toNat_ofNat _ _).trans (Nat.mod_eq_of_lt ((Nat.div_le_self _ _).trans_lt n.isLt))

/-- The remainder of two unsigned words fits in a word (R264). -/
theorem toNat_remUnsigned (n d : Word) : (remUnsigned n d).toNat = n.toNat % d.toNat :=
  (BitVec.toNat_ofNat _ _).trans (Nat.mod_eq_of_lt ((Nat.mod_le _ _).trans_lt n.isLt))

/-! ## Bodies that write `HI` and `LO` (R187, R189, R260) -/

/-- A body that charges and writes `HI` and `LO` completes with those two writes and nothing else (R187, R189, R260). -/
theorem finish_hiLoBody (w : Word) (s : State) (hi lo : Word) :
    finish w s (hiLoBody w s hi lo) = .next { s.retired w with hi := hi, lo := lo } := rfl

/-- A body that leaves `HI` and `LO` open completes with two free values and one draw (R269, log 8, log 20). -/
theorem finish_hiLoFreeBody (w : Word) (s : State) :
    finish w s (hiLoFreeBody w s) =
      .next { s.retired w with hi := Config.divHi s.draws, lo := Config.divLo s.draws, draws := s.draws + 1 } := rfl

section Divide
variable {s : State} {rs rt : RegIdx}

/-- `DIV` where R263 gives a result. -/
theorem exec_div_of_closed (h0 : s.reg rt ≠ 0#32) (h : ¬(s.reg rs = 0x80000000#32 ∧ s.reg rt = 0xFFFFFFFF#32)) :
    exec (.div rs rt) s = .next
      { s.retired (instrWord (.div rs rt)) with
        hi := remSigned (s.reg rs) (s.reg rt)
        lo := quotSigned (s.reg rs) (s.reg rt) } := by
  have hclosed : ¬divOpen (s.reg rs) (s.reg rt) = true := fun ho => ((divOpen_iff _ _).1 ho).elim h0 h
  change finish _ s (divBody rs rt s) = _
  rw [divBody, if_neg hclosed, finish_hiLoBody]

/-- `DIV` where R269 leaves the result open. -/
theorem exec_div_of_open (h : s.reg rt = 0#32 ∨ s.reg rs = 0x80000000#32 ∧ s.reg rt = 0xFFFFFFFF#32) :
    exec (.div rs rt) s = .next
      { s.retired (instrWord (.div rs rt)) with
        hi := Config.divHi s.draws
        lo := Config.divLo s.draws
        draws := s.draws + 1 } := by
  change finish _ s (divBody rs rt s) = _
  rw [divBody, if_pos ((divOpen_iff _ _).2 h), finish_hiLoFreeBody]

/-- `DIVU` by a non-zero divisor (R264). -/
theorem exec_divu_of_ne_zero (h : s.reg rt ≠ 0#32) :
    exec (.divu rs rt) s = .next
      { s.retired (instrWord (.divu rs rt)) with
        hi := remUnsigned (s.reg rs) (s.reg rt)
        lo := quotUnsigned (s.reg rs) (s.reg rt) } := by
  change finish _ s (divuBody rs rt s) = _
  rw [divuBody, if_neg h, finish_hiLoBody]

/-- `DIVU` by zero (R264, R269). -/
theorem exec_divu_of_zero (h : s.reg rt = 0#32) :
    exec (.divu rs rt) s = .next
      { s.retired (instrWord (.divu rs rt)) with
        hi := Config.divHi s.draws
        lo := Config.divLo s.draws
        draws := s.draws + 1 } := by
  change finish _ s (divuBody rs rt s) = _
  rw [divuBody, if_pos h, finish_hiLoFreeBody]

end Divide

/-! ## The instructions -/

/-- Settles O14: the halves in `HI` and `LO` are the 64-bit form of a product that fits in it. -/
theorem multiplyResults : Obligations.MultiplyResults := by
  intro s rs rt
  refine ⟨⟨_, finish_hiLoBody _ s _ _, rfl, fun _ => rfl, ?mult⟩,
    ⟨_, finish_hiLoBody _ s _ _, rfl, fun _ => rfl, ?multu⟩⟩
  case mult => rw [highWord_append_lowWord, toInt_signedProduct]
  case multu => rw [highWord_append_lowWord, toNat_unsignedProduct]

/-- Settles O15: the signed remainder is that of the division rounded toward zero, which has the bound and the sign. -/
theorem divideResults : Obligations.DivideResults := by
  intro s rs rt
  refine ⟨fun h0 h => ⟨_, exec_div_of_closed h0 h, rfl, fun _ => rfl, ?div⟩,
    fun h0 => ⟨_, exec_divu_of_ne_zero h0, rfl, fun _ => rfl, ?divu⟩⟩
  case div =>
    have hd : 0 < (s.reg rt).toInt.natAbs := Int.natAbs_pos.2 (mt (BitVec.toInt_inj (y := 0#32)).1 h0)
    have hq := toInt_quotSigned h
    have hr := toInt_remSigned (s.reg rs) (s.reg rt)
    refine ⟨hq, ?remainder, ?bound, ?sign⟩
    case remainder => rw [hr, hq, Int.tmod_def, mul_comm]
    case bound =>
      rw [hr, Int.natAbs_tmod]
      exact Nat.mod_lt _ hd
    case sign =>
      rw [hr]
      exact tmod_mul_self_nonneg _ _
  case divu => exact ⟨toNat_quotUnsigned _ _, toNat_remUnsigned _ _⟩

/-- Settles O16: the open cases complete with two free values, which the statement leaves unnamed. -/
theorem divideOpen : Obligations.DivideOpen := by
  intro s rs rt
  exact ⟨fun h => ⟨_, exec_div_of_open h, fun _ => rfl, rfl⟩,
    fun h => ⟨_, exec_divu_of_zero h, fun _ => rfl, rfl⟩⟩

/-- Settles O17: the moves from `HI` and `LO` write one general register; those to them write one and keep the other. -/
theorem hiLoMoves : Obligations.HiLoMoves := by
  intro s r
  exact ⟨finish_writeBody rfl _ s r, finish_writeBody rfl _ s r, ⟨_, finish_hiLoBody _ s _ _, rfl, fun _ => rfl⟩,
    ⟨_, finish_hiLoBody _ s _ _, rfl, fun _ => rfl⟩⟩

end Sys2Proof.Machine
end

section
/-! `LWL` and `LWR` from mapped addresses (R281, R285, R289): each merges the aligned word into `rt` by its table, and
the two together load a word at any address. -/
namespace Sys2Proof.Machine

/-- The four bytes from `a` on are those of the word `m`, the least significant first (R72). -/
def State.holdsWord (s : State) (a m : Word) : Prop :=
  ∀ k < 4, s.readAddr (a + BitVec.ofNat 32 k) = some (byteOf m k)

/-- Four bytes make up the word they are read as (R72). -/
theorem holdsWord_of_bytes {s : State} {a : Word} {b0 b1 b2 b3 : Byte} (h0 : s.readAddr a = some b0)
    (h1 : s.readAddr (a + 1#32) = some b1) (h2 : s.readAddr (a + 2#32) = some b2)
    (h3 : s.readAddr (a + 3#32) = some b3) : s.holdsWord a (b3 ++ b2 ++ b1 ++ b0 : BitVec 32) := by
  intro k hk
  rw [← wordOfBytes_eq]
  match k, hk with
  | 0, _ => simpa using h0
  | 1, _ => simpa using h1
  | 2, _ => simpa using h2
  | 3, _ => simpa using h3

/-- Words held at two places agree in a byte that both of them hold. -/
theorem State.holdsWord.byteOf_eq {s : State} {a b m n : Word} (ha : s.holdsWord a m) (hb : s.holdsWord b n) {i j : Nat}
    (hi : i < 4) (hj : j < 4) (h : a + BitVec.ofNat 32 i = b + BitVec.ofNat 32 j) : byteOf m i = byteOf n j := by
  have hai := ha i hi
  rw [h, hb j hj] at hai
  exact (Option.some.inj hai).symm

/-- An access that changes no memory leaves the words held. -/
theorem State.holdsWord.of_sameMemory {s t : State} {a m : Word} (h : s.holdsWord a m) (hmem : sameMemory s t) :
    t.holdsWord a m :=
  fun k hk => (hmem _).trans (h k hk)

/-- An aligned word's address is aligned (R285). -/
theorem toNat_alignedWord_mod (a : Word) : (alignedWord a).toNat % 4 = 0 := by
  rw [toNat_alignedWord]
  omega

/-- A region ends at a word's end: around a mapped address its whole aligned word is mapped (R13, R63 to R66). -/
theorem exists_holdsWord_aligned {s : State} (hl : s.params.Legal) {a : Word} {b : Byte} (h : s.readAddr a = some b) :
    ∃ m, s.holdsWord (alignedWord a) m := by
  have ha := toNat_alignedWord_mod a
  cases hr : resolve s.params a with
  | ram off page =>
    refine ⟨readWord s.ram (off - a.toNat % 4), fun k hk => ?_⟩
    rw [State.readAddr, resolve_add_ram hl (resolve_aligned_ram hl hr) (by omega), byteOf_readWord hk]
    rfl
  | scratch off =>
    refine ⟨readWord s.scratch (off - a.toNat % 4), fun k hk => ?_⟩
    rw [State.readAddr, resolve_add_scratch hl (resolve_aligned_scratch hl hr) (by omega), byteOf_readWord hk]
    rfl
  | rom off page =>
    refine ⟨readWord s.rom (off - a.toNat % 4), fun k hk => ?_⟩
    rw [State.readAddr, resolve_add_rom hl (resolve_aligned_rom hl hr) (by omega), byteOf_readWord hk]
    rfl
  | unmapped =>
    rw [State.readAddr, hr] at h
    cases h

/-- `MemRead` of an aligned word that is held gives it and leaves the state (R73). -/
theorem memRead_of_holdsWord {s : State} (hl : s.params.Legal) {a m : Word} (ha : a.toNat % 4 = 0)
    (h : s.holdsWord a m) : memRead s a .word = (m, s) := by
  have h0 := h 0 (by omega)
  rw [BitVec.add_zero] at h0
  rw [memRead_word hl ha h0 (h 1 (by omega)) (h 2 (by omega)) (h 3 (by omega)), wordOfBytes_byteOf]

/-- A merging load completes with the aligned word merged into `rt` (R281). -/
theorem finish_loadMergeBody_mapped {s : State} (hl : s.params.Legal) {ea m : Word}
    (h : s.holdsWord (alignedWord ea) m) (w : Word) (rt : RegIdx) (merge : BitVec 2 → Word → Word → Word) :
    ∃ t, finish w s (loadMergeBody w s rt ea merge) = .next t ∧
      retiredWrite s t w rt (merge (byteInWord ea) m (s.reg rt)) := by
  have hread : memRead (s.charge w) (alignedWord ea) .word = (m, s.charge w) :=
    memRead_of_holdsWord (s := s.charge w) hl (toNat_alignedWord_mod ea) h
  unfold loadMergeBody
  rw [hread]
  exact ⟨_, rfl, retiredWrite_of_setReg w s rt _⟩

section Exec
variable {s : State} {rs : RegIdx} {imm : Imm16} {ea m : Word}

/-- `LWL` of a mapped word (R285). -/
theorem exec_lwl_mapped (hl : s.params.Legal) (hea : s.reg rs + imm.signExtend 32 = ea)
    (h : s.holdsWord (alignedWord ea) m) (rt : RegIdx) :
    ∃ t, exec (.lwl rt rs imm) s = .next t ∧
      retiredWrite s t (instrWord (.lwl rt rs imm)) rt (mergeLoadLeft (byteInWord ea) m (s.reg rt)) := by
  subst hea
  exact finish_loadMergeBody_mapped hl h _ rt mergeLoadLeft

/-- `LWR` of a mapped word (R289). -/
theorem exec_lwr_mapped (hl : s.params.Legal) (hea : s.reg rs + imm.signExtend 32 = ea)
    (h : s.holdsWord (alignedWord ea) m) (rt : RegIdx) :
    ∃ t, exec (.lwr rt rs imm) s = .next t ∧
      retiredWrite s t (instrWord (.lwr rt rs imm)) rt (mergeLoadRight (byteInWord ea) m (s.reg rt)) := by
  subst hea
  exact finish_loadMergeBody_mapped hl h _ rt mergeLoadRight

end Exec

/-- The table of R285, by the address's place in its word. -/
theorem mergeLoadLeft_byteInWord (ea m old : Word) : mergeLoadLeft (byteInWord ea) m old =
    if ea.toNat % 4 = 0 then old &&& 0x00FFFFFF#32 ||| m <<< 24
    else if ea.toNat % 4 = 1 then old &&& 0x0000FFFF#32 ||| m <<< 16
    else if ea.toNat % 4 = 2 then old &&& 0x000000FF#32 ||| m <<< 8
    else m := by
  unfold mergeLoadLeft
  rw [toNat_byteInWord]
  split <;> simp_all

/-- The table of R289, by the address's place in its word. -/
theorem mergeLoadRight_byteInWord (ea m old : Word) : mergeLoadRight (byteInWord ea) m old =
    if ea.toNat % 4 = 0 then m
    else if ea.toNat % 4 = 1 then old &&& 0xFF000000#32 ||| m >>> 8
    else if ea.toNat % 4 = 2 then old &&& 0xFFFF0000#32 ||| m >>> 16
    else old &&& 0xFFFFFF00#32 ||| m >>> 24 := by
  unfold mergeLoadRight
  rw [toNat_byteInWord]
  split <;> simp_all

/-- Settles O21: each of the two merges the aligned word that the four bytes make, by its table. -/
theorem partialLoads : Obligations.PartialLoads := by
  intro s rt rs imm b0 b1 b2 b3 hl h0 h1 h2 h3
  have hword := holdsWord_of_bytes h0 h1 h2 h3
  rw [← mergeLoadLeft_byteInWord, ← mergeLoadRight_byteInWord]
  exact ⟨exec_lwl_mapped hl rfl hword rt, exec_lwr_mapped hl rfl hword rt⟩

/-- The bytes of `a` and of those after it in its word, counted from the word's first. -/
theorem alignedWord_add_byte (a : Word) (j : Nat) :
    alignedWord a + BitVec.ofNat 32 (a.toNat % 4 + j) = a + BitVec.ofNat 32 j := by
  rw [BitVec.ofNat_add, ← BitVec.add_assoc, alignedWord_add]

/-- The word of `a + 3` begins at one of the four bytes from `a` on. -/
theorem alignedWord_add_three (a : Word) :
    alignedWord (a + 3#32) = a + BitVec.ofNat 32 (3 - (a + 3#32).toNat % 4) := by
  apply (BitVec.add_left_inj (BitVec.ofNat 32 ((a + 3#32).toNat % 4))).1
  rw [alignedWord_add, BitVec.add_assoc, ← BitVec.ofNat_add, Nat.sub_add_cancel (by omega)]

/-- The place of `a + 3` in its word, from that of `a`. -/
theorem toNat_add_three_mod (a : Word) : (a + 3#32).toNat % 4 = (a.toNat + 3) % 4 := by
  rw [BitVec.toNat_add, BitVec.toNat_ofNat]
  omega

/-- The two merges take every byte of the word at `a`: those in the word of `a` by `LWR`, the others by `LWL`. -/
theorem mergeLoad_pair {s : State} {a m lo hi : Word} (h : s.holdsWord a m) (hlo : s.holdsWord (alignedWord a) lo)
    (hhi : s.holdsWord (alignedWord (a + 3#32)) hi) (old : Word) :
    mergeLoadLeft (byteInWord (a + 3#32)) hi (mergeLoadRight (byteInWord a) lo old) = m := by
  have h3 := toNat_add_three_mod a
  apply word_eq_of_bytes
  intro j hj
  rw [byteOf_mergeLoadLeft _ _ _ _ hj, byteOf_mergeLoadRight _ _ _ _ hj, toNat_byteInWord, toNat_byteInWord]
  split
  case isTrue hleft =>
    refine hhi.byteOf_eq h (by omega) hj ?_
    rw [alignedWord_add_three, BitVec.add_assoc, ← BitVec.ofNat_add]
    congr 2
    omega
  case isFalse hright =>
    rw [if_pos (by omega)]
    exact hlo.byteOf_eq h (by omega) hj (alignedWord_add_byte a j)

section WroteReg
variable {s t : State} {r : RegIdx} {v : Word}

/-- The register written, unless it is `x[0]` (R21). -/
theorem wroteReg.same (h : wroteReg s t r v) (hr : r ≠ 0#5) : t.reg r = v := by
  rw [h r, if_neg hr, if_pos rfl]

/-- A register that is not the one written. -/
theorem wroteReg.other (h : wroteReg s t r v) {q : RegIdx} (hq : q ≠ r) : t.reg q = s.reg q := by
  rw [h q, if_neg hq]
  split
  case isTrue h0 => rw [h0, reg_zero]
  case isFalse => rfl

end WroteReg

/-- Settles O22: each of the two reads the aligned word of one end, and between them they take all four bytes. -/
theorem unalignedWordLoad : Obligations.UnalignedWordLoad := by
  intro s rt rs b0 b1 b2 b3 hl hrt hne h0 h1 h2 h3
  obtain ⟨lo, hlo⟩ := exists_holdsWord_aligned hl h0
  obtain ⟨hi, hhi⟩ := exists_holdsWord_aligned hl h3
  obtain ⟨t, ht, hteq, htregs, htmem⟩ := exec_lwr_mapped (imm := 0#16) hl (BitVec.add_zero _) hlo rt
  have hbase : t.reg rs = s.reg rs := htregs.other hne.symm
  have hparams : t.params = s.params := by
    rw [hteq]
    rfl
  obtain ⟨u, hu, -, huregs, humem⟩ := exec_lwl_mapped (imm := 3#16) (hparams ▸ hl) (congrArg (· + 3#32) hbase)
    (hhi.of_sameMemory htmem) rt
  refine ⟨t, u, ht, hu, ?word, fun q hq => (huregs.other hq).trans (htregs.other hq),
    fun a => (humem a).trans (htmem a)⟩
  rw [huregs.same hrt, htregs.same hrt]
  exact mergeLoad_pair (holdsWord_of_bytes h0 h1 h2 h3) hlo hhi _

end Sys2Proof.Machine
end

section
/-! `SWR` and `SWL` together store a word at any address of RAM (R77, R292, R294). -/
namespace Sys2Proof.Machine

/-- A store, and one that begins inside it or at its end and goes on at least as far: together they leave one run of
bytes, when no two of its addresses are aliases. -/
theorem storedBytes_append {s t u : State} {a : Word} {n d m l : Nat} {byte : Nat → Byte}
    (hparams : t.params = s.params) (hd : d ≤ n) (hn : n ≤ l) (hl : d + m = l) (hs : storedBytes s t a n byte)
    (ht : storedBytes t u (a + BitVec.ofNat 32 d) m (fun k => byte (d + k)))
    (hinj : ∀ i < l, ∀ j < l,
      resolve s.params (a + BitVec.ofNat 32 i) = resolve s.params (a + BitVec.ofNat 32 j) → i = j) :
    storedBytes s u a l byte := by
  intro x
  obtain ⟨hfirst, hfirstElse⟩ := hs x
  obtain ⟨hlast, hlastElse⟩ := ht x
  simp only [BitVec.add_assoc, ← BitVec.ofNat_add, hparams] at hlast hlastElse
  refine ⟨fun k hk hx => ?inside, fun hx => ?outside⟩
  case inside =>
    by_cases hkd : k < d
    · have hother : ∀ j < m, resolve s.params x ≠ resolve s.params (a + BitVec.ofNat 32 (d + j)) := by
        intro j hj hxj
        have := hinj k hk (d + j) (by omega) (hx.symm.trans hxj)
        omega
      rw [hlastElse hother]
      exact hfirst k (by omega) hx
    · obtain ⟨j, rfl⟩ := Nat.exists_eq_add_of_le (Nat.le_of_not_lt hkd)
      exact hlast j (by omega) hx
  case outside =>
    rw [hlastElse fun j hj => hx (d + j) (by omega)]
    exact hfirstElse fun k hk => hx k (by omega)

/-- Between two RAM addresses three apart every address is in RAM, at the next offset (R13 d, R64, R65). -/
theorem resolve_add_ram_of_end {c : Params} (hl : c.Legal) {a : Word} {off page off' page' : Nat}
    (hlo : resolve c a = .ram off page) (hhi : resolve c (a + 3#32) = .ram off' page') {k : Nat} (hk : k < 4) :
    resolve c (a + BitVec.ofNat 32 k) = .ram (off + k) ((off + k) / c.pageBytes) := by
  obtain ⟨hoff, hlt, -⟩ := resolve_eq_ram.1 hlo
  obtain ⟨hoff', hlt', -⟩ := resolve_eq_ram.1 hhi
  have hmod := maskAddress_mod hl a
  have hend : (maskAddress c (a + 3#32)).toNat = _ := toNat_maskAddress_add hl a 3 (by omega)
  exact resolve_eq_ram.2 ⟨by rw [toNat_maskAddress_add hl a k (by omega), hoff], by omega, rfl⟩

section RamStore
variable {s t : State} {w first : Word} {page n : Nat} {byte : Nat → Byte}

/-- A store writes no register. -/
theorem retiredRamStore.reg (h : retiredRamStore s t w page first n byte) (q : RegIdx) : t.reg q = s.reg q := by
  obtain ⟨heq, -, -⟩ := h
  rw [heq]
  rfl

/-- A store leaves the configuration. -/
theorem retiredRamStore.params (h : retiredRamStore s t w page first n byte) : t.params = s.params := by
  obtain ⟨heq, -, -⟩ := h
  rw [heq]
  rfl

/-- A store into RAM leaves its page invalid, and any page that was (R77). -/
theorem retiredRamStore.pageValid (h : retiredRamStore s t w page first n byte) {p : Nat}
    (hp : p = page ∨ s.pageValid p = false) : t.pageValid p = false := by
  obtain ⟨-, hvalid, -⟩ := h
  rw [hvalid p]
  rcases hp with rfl | hp
  · simp
  · simp [hp]

/-- `SWR` into RAM (R294). -/
theorem exec_swr_ram (hl : s.params.Legal) {rs : RegIdx} {imm : Imm16} {ea : Word} {off : Nat}
    (hea : s.reg rs + imm.signExtend 32 = ea) (hr : resolve s.params ea = .ram off page) (rt : RegIdx) :
    ∃ t, exec (.swr rt rs imm) s = .next t ∧
      retiredRamStore s t (instrWord (.swr rt rs imm)) page ea (4 - ea.toNat % 4) (regByte (s.reg rt)) := by
  subst hea
  exact ((partialStores s rt rs imm hl).1 off page hr).2

/-- `SWL` into RAM (R292). -/
theorem exec_swl_ram (hl : s.params.Legal) {rs : RegIdx} {imm : Imm16} {ea : Word} {off : Nat}
    (hea : s.reg rs + imm.signExtend 32 = ea) (hr : resolve s.params ea = .ram off page) (rt : RegIdx) :
    ∃ t, exec (.swl rt rs imm) s = .next t ∧
      retiredRamStore s t (instrWord (.swl rt rs imm)) page (alignedWord ea) (ea.toNat % 4 + 1)
        (fun k => regByte (s.reg rt) (3 - ea.toNat % 4 + k)) := by
  subst hea
  exact ((partialStores s rt rs imm hl).1 off page hr).1

end RamStore

/-- Settles O28: `SWR` stores the bytes in the word of `x[rs]`, and `SWL` those in the word of `x[rs] + 3`. -/
theorem unalignedWordStore : Obligations.UnalignedWordStore := by
  intro s rt rs off page off' page' hl hlo hhi
  obtain ⟨t, ht, htstore⟩ := exec_swr_ram (imm := 0#16) hl (BitVec.add_zero _) hlo rt
  have hparams := htstore.params
  have hbase : t.reg rs + 3#32 = s.reg rs + 3#32 := by rw [htstore.reg]
  obtain ⟨u, hu, hustore⟩ := exec_swl_ram (imm := 3#16) (hparams ▸ hl) hbase (hparams ▸ hhi) rt
  refine ⟨t, u, ht, hu, ?stored, fun q => (hustore.reg q).trans (htstore.reg q),
    hustore.pageValid (.inr (htstore.pageValid (.inl rfl))), hustore.pageValid (.inl rfl)⟩
  rw [htstore.reg, alignedWord_add_three] at hustore
  obtain ⟨-, -, hleft⟩ := hustore
  obtain ⟨-, -, hright⟩ := htstore
  have h3 := toNat_add_three_mod (s.reg rs)
  refine storedBytes_append hparams (by omega) (by omega) (by omega) hright hleft fun i hi j hj hij => ?_
  rw [resolve_add_ram_of_end hl hlo hhi hi, resolve_add_ram_of_end hl hlo hhi hj, Resolution.ram.injEq] at hij
  omega

end Sys2Proof.Machine
end

section
/-! A fault in the delay slot is the fault stop of its control-flow unit (R311, R375). -/
namespace Sys2Proof.Machine

/-- The slot starts at its branch's `PC` (R310 step 6). -/
theorem slotEntry_pc (i : Instr) (s : State) : (slotEntry i s).pc = s.pc := by
  obtain ⟨regs, hentry⟩ := slotEntry_eq i s
  rw [hentry]

/-- A word that decodes to nothing is no branch or jump (R119). -/
theorem isControlWord_of_reserved {d : Word} (h : decodeGuest d = .reserved) : isControlWord d = false := by
  simp [isControlWord, h]

/-- A word that decodes to nothing raises `ReservedInstr` in a slot (R355). -/
theorem slotWordBody_of_reserved {d : Word} (h : decodeGuest d = .reserved) (s : State) :
    slotWordBody d s = .fault .reservedInstr none := by
  simp [slotWordBody, h]

/-- A fault of the slot's body stops its unit at the branch, charged and linked, with the slot's word (R375). -/
theorem exec_control_of_slot_fault {i : Instr} {s : State} {d : Word} {c : FaultCode} {addr : Option Word}
    (h : i.isControlFlow = true) (hslot : slotWord s = some d) (hd : isControlWord d = false)
    (hbody : slotWordBody d (slotEntry i s) = .fault c addr) :
    ∃ t, exec i s = .next t ∧ stoppedAt (slotEntry i s) t c (some d) addr true ∧ t.faultPc = s.pc := by
  refine ⟨(slotEntry i s).faultStop c (slotEntry i s).pc (some d) addr true, ?exec, stoppedAt_faultStop _ _ _ _ _,
    slotEntry_pc i s⟩
  case exec =>
    rw [exec_control_of_slot h hslot hd, hbody]
    rfl

/-- Settles O35: each of the three words named raises its own fault as the slot's body. -/
theorem slotFaults : Obligations.SlotFaults := by
  intro i s d hi hslot
  refine ⟨fun c addr hd hbody => exec_control_of_slot_fault hi hslot hd hbody, fun hres => ?reserved,
    fun code hdec => ?syscall, fun code hdec => ?brk⟩
  case reserved =>
    exact exec_control_of_slot_fault hi hslot (isControlWord_of_reserved hres) (slotWordBody_of_reserved hres _)
  case syscall =>
    exact exec_control_of_slot_fault hi hslot (isControlWord_of_decode hdec) (slotWordBody_of_decode hdec _)
  case brk =>
    exact exec_control_of_slot_fault hi hslot (isControlWord_of_decode hdec) (slotWordBody_of_decode hdec _)

end Sys2Proof.Machine
end

section
/-! The instructions that do nothing but raise, and the words without a meaning, are fault stops at `PC` in Execute
(R341 to R355, R372). -/
namespace Sys2Proof.Machine

/-! ## `RESERVED` words -/

/-- Execute stops at a word that decodes to nothing (R355, R382). -/
theorem executeMove_of_reserved {s : State} (h : decodeGuest (fetchWord s) = .reserved) :
    executeMove s = .next (s.faultStop .reservedInstr s.pc (some (fetchWord s)) none false) := by
  simp [executeMove, h, State.reservedFault]

/-- Settles O7: the step is Execute's, and Execute's move is the fault stop. -/
theorem reservedWordStops : Obligations.ReservedWordStops := by
  intro s hlife hcall hexec hres
  rw [step_of_execute hlife hcall hexec, executeMove_of_reserved hres]
  exact ⟨_, rfl, stoppedAt_faultStop s _ _ _ _⟩

/-! ## Bodies that raise -/

/-- An instruction whose body raises, and which is no branch or jump, stops at itself (R189, R372). -/
theorem exec_of_body_fault {i : Instr} {s : State} {c : FaultCode} {addr : Option Word}
    (hcontrol : i.isControlFlow = false) (hcommand : i.isCommand = false) (hbody : slotBody i s = .fault c addr) :
    ∃ t, exec i s = .next t ∧ stoppedAt s t c (some (instrWord i)) addr false := by
  rw [exec_plain s hcontrol hcommand, hbody]
  exact ⟨_, rfl, stoppedAt_faultStop s _ _ _ _⟩

/-- Settles O36: each of the two has a body that raises its own fault, whatever the code. -/
theorem systemCallsStop : Obligations.SystemCallsStop := by
  intro s code
  exact ⟨exec_of_body_fault rfl rfl rfl, exec_of_body_fault rfl rfl rfl⟩

/-- The body of every coprocessor instruction raises `Coprocessor`, whatever its operands and the state
(R343 to R354). -/
theorem slotBody_of_coproc {i : Instr} (h : i.cls = .coproc) (s : State) :
    slotBody i s = .fault .coprocessor none := by
  cases i with
  | cop0 | cop1 | cop2 | cop3 => rfl
  | lwc0 | lwc1 | lwc2 | lwc3 => rfl
  | swc0 | swc1 | swc2 | swc3 => rfl
  | _ => cases h

/-- A coprocessor instruction is the fault stop `Coprocessor` (R343 to R354). -/
theorem exec_of_coproc {i : Instr} (h : i.cls = .coproc) (s : State) :
    ∃ t, exec i s = .next t ∧ stoppedAt s t .coprocessor (some (instrWord i)) none false :=
  exec_of_body_fault (by simp [Instr.isControlFlow, h]) (by simp [Instr.isCommand, h]) (slotBody_of_coproc h s)

/-- Settles O37: each of the twelve is of the coprocessor class. -/
theorem coprocessorStops : Obligations.CoprocessorStops := by
  intro s f rt rs imm
  have stop {i : Instr} (h : i.cls = .coproc) := exec_of_coproc h s
  exact ⟨stop rfl, stop rfl, stop rfl, stop rfl, stop rfl, stop rfl, stop rfl, stop rfl, stop rfl, stop rfl,
    stop rfl, stop rfl⟩

end Sys2Proof.Machine
end

section
/-! The exceptions an instruction raises itself: `Overflow`, `AddrLoad`, `AddrStore` and `BranchInDelay` are fault stops
at `PC` (R372, R386 to R389). -/
namespace Sys2Proof.Machine

/-! ## A branch or jump in the delay slot (R389) -/

/-- A control-flow unit whose slot holds a branch or jump stops before its charge and its link (R311, R389). -/
theorem exec_control_of_control_slot {i : Instr} {s : State} {d : Word} (h : i.isControlFlow = true)
    (hslot : slotWord s = some d) (hd : isControlWord d = true) :
    exec i s = .next (s.faultStop .branchInDelay s.pc (some d) none true) := by
  rcases exec_control_cases s h with ⟨hnone, -⟩ | ⟨d', hd', -, he⟩ | ⟨d', hd', hplain, -⟩
  · simp [hslot] at hnone
  · cases hslot.symm.trans hd'
    exact he
  · cases hslot.symm.trans hd'
    simp [hd] at hplain

/-- Settles O33: the slot's word is a branch or jump because its instruction is. -/
theorem branchInDelayStops : Obligations.BranchInDelayStops := by
  intro i j s d hi hslot hdec hj
  have hcontrol : isControlWord d = true := (isControlWord_of_decode hdec).trans hj
  exact ⟨_, exec_control_of_control_slot hi hslot hcontrol, stoppedAt_faultStop s _ _ _ _⟩

/-! ## Overflow (R386) -/

/-- An addition overflows exactly when no word is the true signed sum (R221). -/
theorem overflowAdd_eq_true_iff {a b : Word} : overflowAdd a b = true ↔ ∀ v : Word, v.toInt ≠ a.toInt + b.toInt := by
  rw [← Bool.not_eq_false, overflowAdd_eq_false_iff, not_exists]

/-- A subtraction overflows exactly when no word is the true signed difference (R221). -/
theorem overflowSub_eq_true_iff {a b : Word} : overflowSub a b = true ↔ ∀ v : Word, v.toInt ≠ a.toInt - b.toInt := by
  rw [← Bool.not_eq_false, overflowSub_eq_false_iff, not_exists]

/-- A trapping body raises on overflow, whatever its destination (R221). -/
theorem trapBody_of_overflow {overflow : Bool} (h : overflow = true) (w : Word) (s : State) (r : RegIdx) (v : Word) :
    trapBody w s overflow r v = .fault .overflow none := if_pos h

/-- Settles O13: a result no word holds overflows, and the body raises before it writes. -/
theorem trappingOverflows : Obligations.TrappingOverflows := by
  intro s rd rs rt imm
  refine ⟨fun h => ?addi, fun h => ?add, fun h => ?sub⟩
  case addi =>
    rw [← toInt_signExtImm] at h
    exact exec_of_body_fault rfl rfl (trapBody_of_overflow (overflowAdd_eq_true_iff.2 h) _ s rt _)
  case add => exact exec_of_body_fault rfl rfl (trapBody_of_overflow (overflowAdd_eq_true_iff.2 h) _ s rd _)
  case sub => exact exec_of_body_fault rfl rfl (trapBody_of_overflow (overflowSub_eq_true_iff.2 h) _ s rd _)

/-! ## Misaligned accesses (R75, R387, R388) -/

/-- A misaligned load raises before it resolves its address (R75, R281). -/
theorem loadBody_misaligned {ea : Word} {n : Size} (h : misaligned ea n = true) (w : Word) (s : State) (rt : RegIdx)
    (ext : Word → Word) : loadBody w s rt ea n ext = .fault .addrLoad (some ea) := if_pos h

/-- A misaligned store raises before it resolves its address (R75, R282). -/
theorem storeBody_misaligned {ea : Word} {n : Size} (h : misaligned ea n = true) (w : Word) (s : State) (rt : RegIdx)
    (kind : StoreKind) : storeBody w s rt ea n kind = .fault .addrStore (some ea) := if_pos h

/-- Settles O20: each of the three loads checks the alignment of its own size first. -/
theorem misalignedLoads : Obligations.MisalignedLoads := by
  intro s rt rs imm
  refine ⟨fun h2 => ⟨?lh, ?lhu⟩, fun h4 => ?lw⟩
  case lh => exact exec_of_body_fault rfl rfl (loadBody_misaligned ((misaligned_half _).2 h2) _ s rt signExtHalf)
  case lhu => exact exec_of_body_fault rfl rfl (loadBody_misaligned ((misaligned_half _).2 h2) _ s rt id)
  case lw => exact exec_of_body_fault rfl rfl (loadBody_misaligned ((misaligned_word _).2 h4) _ s rt id)

/-- Settles O27: each of the two stores checks the alignment of its own size first. -/
theorem misalignedStores : Obligations.MisalignedStores := by
  intro s rt rs imm
  refine ⟨fun h2 => ?sh, fun h4 => ?sw⟩
  case sh => exact exec_of_body_fault rfl rfl (storeBody_misaligned ((misaligned_half _).2 h2) _ s rt .h)
  case sw => exact exec_of_body_fault rfl rfl (storeBody_misaligned ((misaligned_word _).2 h4) _ s rt .w)

end Sys2Proof.Machine
end
